-- ==== Sys2Proof/Word.lean ====
section
/-!
DEFINITION. The word types of macvid-core and their plainest arithmetic (00_scope R12: bits are
numbered from 0 at the least significant bit, arithmetic is unsigned and modulo 2^width).
-/

namespace Sys2Proof

/-- A 32-bit word: counters, shift register, FIFO words, LUT entries, bus data (R12, R27, R61). -/
abbrev Word := BitVec 32

/-- A byte of a frame bank or loop table as the model stores it (R74). -/
abbrev Byte := BitVec 8

/-- A 16-bit micro-operation word (R90). -/
abbrev OpWord := BitVec 16

/-- A host bus address: a word address of 16 bits (R61). -/
abbrev Addr := BitVec 16

/-- A program slot (R26). -/
abbrev Slot := BitVec 5

end Sys2Proof
end

