-- ==== Sys2Proof/Syntax.lean ====
section
/-!
DEFINITION. The micro-operations (30_encoding R90 to R100), one constructor of `Instr` per row of
spec/opcode_table.json. The operand forms are inductive types, so that the reserved codes of `side`,
`cond`, `src`, `dest` and `target` have no term; the one condition that relates several fields
(`consume`, R95) is checked in WellFormed.lean.
-/

namespace Sys2Proof

/-- The side-channel action of a word (R92): none, write 0, write 1. -/
inductive Side
  | none
  | low
  | high
deriving DecidableEq, Repr

/-- Jump conditions (R94). -/
inductive Cond
  | always
  | xDec
  | yDec
  | vsHigh
  | vsLow
  | hsHigh
  | hsLow
deriving DecidableEq, Repr

/-- Sources of `WAIT` (R95). -/
inductive WaitSrc
  | pix
  | hs
  | vs
  | hsFall
  | hsRise
  | vsFall
  | vsRise
  | flag (k : BitVec 2)
deriving DecidableEq, Repr

/-- The bit count of `IN` and `OUT` (R96): the immediate `m + 1`, or `LUT[k]`. -/
inductive Count
  | imm (m : BitVec 7)
  | lut (k : BitVec 5)
deriving DecidableEq, Repr

/-- Targets of `SETO` (R98). -/
inductive SetTarget
  | pin
  | pix
  | flag (k : BitVec 2)
deriving DecidableEq, Repr

/-- The counter a `LOAD` writes (R99). -/
inductive Dest
  | x
  | y
deriving DecidableEq, Repr

/-- The value a `LOAD` writes (R99): `LUT[k]`, or a 6-bit immediate. -/
inductive LoadSrc
  | lut (k : BitVec 5)
  | imm (v : BitVec 6)
deriving DecidableEq, Repr

/-- A micro-operation word (R90, R91); `side` and `dly` are fields of every word (R92, R93). For `getX`
and `getY`, `m` is the field `n - 1` with `1 ≤ n ≤ 32` (R97). -/
inductive Instr
  | jmp (side : Side) (dly : BitVec 3) (cond : Cond) (target : Slot)
  | wait (side : Side) (dly : BitVec 3) (level : Bool) (src : WaitSrc) (consume : Bool)
  | shiftIn (side : Side) (dly : BitVec 3) (count : Count)
  | shiftOut (side : Side) (dly : BitVec 3) (count : Count)
  | getX (side : Side) (dly : BitVec 3) (m : BitVec 5)
  | getY (side : Side) (dly : BitVec 3) (m : BitVec 5)
  | getExec (side : Side) (dly : BitVec 3)
  | seto (side : Side) (dly : BitVec 3) (target : SetTarget) (value : Bool)
  | load (side : Side) (dly : BitVec 3) (dest : Dest) (src : LoadSrc)
  | nop (side : Side) (dly : BitVec 3)
deriving DecidableEq, Repr

/-- The side action of a word. -/
def Instr.side : Instr → Side
  | .jmp s _ _ _ => s
  | .wait s _ _ _ _ => s
  | .shiftIn s _ _ => s
  | .shiftOut s _ _ => s
  | .getX s _ _ => s
  | .getY s _ _ => s
  | .getExec s _ => s
  | .seto s _ _ _ => s
  | .load s _ _ _ => s
  | .nop s _ => s

/-- The delay field of a word. -/
def Instr.delay : Instr → BitVec 3
  | .jmp _ d _ _ => d
  | .wait _ d _ _ _ => d
  | .shiftIn _ d _ => d
  | .shiftOut _ d _ => d
  | .getX _ d _ => d
  | .getY _ d _ => d
  | .getExec _ d => d
  | .seto _ d _ _ => d
  | .load _ d _ _ => d
  | .nop _ d => d

end Sys2Proof
end

