-- ==== Sys2Proof/WellFormed.lean ====
section
/-!
DEFINITION. Which terms of `Instr` stand for legal words. The only line of 30_encoding R101 that the
types of Syntax.lean do not already exclude is the one on `consume` (R95): it needs a flag source and
`level = 1`.
-/

namespace Sys2Proof

/-- The source is one of `F0` to `F3`. -/
def WaitSrc.isFlag : WaitSrc → Bool
  | .flag _ => true
  | .pix => false
  | .hs => false
  | .vs => false
  | .hsFall => false
  | .hsRise => false
  | .vsFall => false
  | .vsRise => false

/-- R95, first half: a consuming `WAIT` names a flag. -/
def consumeNamesFlag (src : WaitSrc) (consume : Bool) : Bool := !consume || src.isFlag

/-- R95, second half: a consuming `WAIT` waits for level 1. -/
def consumeWaitsHigh (level consume : Bool) : Bool := !consume || level

/-- The legal words (R101). -/
def Instr.wellFormed : Instr → Bool
  | .jmp _ _ _ _ => true
  | .wait _ _ level src consume => consumeNamesFlag src consume && consumeWaitsHigh level consume
  | .shiftIn _ _ _ => true
  | .shiftOut _ _ _ => true
  | .getX _ _ _ => true
  | .getY _ _ _ => true
  | .getExec _ _ => true
  | .seto _ _ _ _ => true
  | .load _ _ _ _ => true
  | .nop _ _ => true

end Sys2Proof
end

