-- ==== Sys2Proof/Decode.lean ====
section
/-!
DEFINITION. Decoding of the 16-bit micro-operation word (30_encoding R90 to R101, R109) and the
encoder. Decoding is total; a reserved word is rejected by the name of the line of R101 it matches.
-/

namespace Sys2Proof

/-- Why a word is illegal: the lines of R101. -/
inductive DecodeError
  /-- `side = 0b01`. -/
  | reservedSide
  /-- `JMP` with `cond = 7`. -/
  | reservedCond
  /-- `WAIT` with `arg[1:0] ≠ 0`. -/
  | waitMustBeZero
  /-- `WAIT` with `src = 3` or `src ≥ 12`. -/
  | reservedWaitSource
  /-- `WAIT` with `consume = 1` and not (a flag source and `level = 1`). -/
  | consumeNotAllowed
  /-- `IN` or `OUT` with `arg[7] = 1` and `arg[6:5] ≠ 0`. -/
  | reservedCount
  /-- `GET` with `dest = 3`. -/
  | reservedGetDest
  /-- `GET` with `arg[5:0] ≥ 32`. -/
  | reservedGetWidth
  /-- `GET EXEC` with `arg[5:0] ≠ 15`. -/
  | execWidthNot16
  /-- `SETO` with `arg[4:1] ≠ 0`. -/
  | setoMustBeZero
  /-- `SETO` with target 2 or 3. -/
  | reservedSetoTarget
  /-- `LOAD` with `arg[6] = 0` and `arg[5] = 1`. -/
  | reservedLoadIndex
  /-- `NOP` with `arg ≠ 0`. -/
  | nopMustBeZero
deriving DecidableEq, Repr

/-- The result of decoding (R109): `Legal(…)` or `Illegal`, the latter with its reason. -/
inductive Decoded
  | legal (i : Instr)
  | illegal (e : DecodeError)
deriving DecidableEq, Repr

/-- The eight operations of R91. -/
inductive Op
  | jmp
  | wait
  | shiftIn
  | shiftOut
  | get
  | seto
  | load
  | nop
deriving DecidableEq, Repr

/-! ### The fields of a word (R90) -/

def opBits (w : OpWord) : BitVec 3 := w.extractLsb' 13 3
def sideBits (w : OpWord) : BitVec 2 := w.extractLsb' 11 2
def dlyBits (w : OpWord) : BitVec 3 := w.extractLsb' 8 3
def argBits (w : OpWord) : BitVec 8 := w.extractLsb' 0 8

/-- A word from its four fields (R90). -/
def packWord (op : BitVec 3) (side : BitVec 2) (dly : BitVec 3) (arg : BitVec 8) : OpWord :=
  op ++ side ++ dly ++ arg

/-! ### Codes of the fields -/

/-- R91. -/
def Op.ofBits (b : BitVec 3) : Op :=
  if b = 0 then .jmp else if b = 1 then .wait else if b = 2 then .shiftIn
  else if b = 3 then .shiftOut else if b = 4 then .get else if b = 5 then .seto
  else if b = 6 then .load else .nop

/-- R91. -/
def Op.bits : Op → BitVec 3
  | .jmp => 0
  | .wait => 1
  | .shiftIn => 2
  | .shiftOut => 3
  | .get => 4
  | .seto => 5
  | .load => 6
  | .nop => 7

/-- R92: `0b01` is reserved. -/
def Side.ofBits (b : BitVec 2) : Option Side :=
  if b = 0 then some .none else if b = 2 then some .low else if b = 3 then some .high
  else Option.none

/-- R92. -/
def Side.bits : Side → BitVec 2
  | .none => 0
  | .low => 2
  | .high => 3

/-- R94: 7 is reserved. -/
def Cond.ofBits (b : BitVec 3) : Option Cond :=
  if b = 0 then some .always else if b = 1 then some .xDec else if b = 2 then some .yDec
  else if b = 3 then some .vsHigh else if b = 4 then some .vsLow
  else if b = 5 then some .hsHigh else if b = 6 then some .hsLow else none

/-- R94. -/
def Cond.bits : Cond → BitVec 3
  | .always => 0
  | .xDec => 1
  | .yDec => 2
  | .vsHigh => 3
  | .vsLow => 4
  | .hsHigh => 5
  | .hsLow => 6

/-- R95: 3 and 12 to 15 are reserved; 8 to 11 are the flags. -/
def WaitSrc.ofBits (b : BitVec 4) : Option WaitSrc :=
  if b = 0 then some .pix else if b = 1 then some .hs else if b = 2 then some .vs
  else if b = 4 then some .hsFall else if b = 5 then some .hsRise
  else if b = 6 then some .vsFall else if b = 7 then some .vsRise
  else if b.extractLsb' 2 2 = 2 then some (.flag (b.extractLsb' 0 2)) else none

/-- R95. -/
def WaitSrc.bits : WaitSrc → BitVec 4
  | .pix => 0
  | .hs => 1
  | .vs => 2
  | .hsFall => 4
  | .hsRise => 5
  | .vsFall => 6
  | .vsRise => 7
  | .flag k => 2#2 ++ k

/-- R98: targets 2 and 3 are reserved; 4 to 7 are the flags. -/
def SetTarget.ofBits (b : BitVec 3) : Option SetTarget :=
  if b = 0 then some .pin else if b = 1 then some .pix
  else if b.extractLsb' 2 1 = 1 then some (.flag (b.extractLsb' 0 2)) else none

/-- R98. -/
def SetTarget.bits : SetTarget → BitVec 3
  | .pin => 0
  | .pix => 1
  | .flag k => 1#1 ++ k

/-! ### Decoding the argument field -/

/-- R94. -/
def decodeJmp (side : Side) (dly : BitVec 3) (arg : BitVec 8) : Decoded :=
  match Cond.ofBits (arg.extractLsb' 5 3) with
  | some cond => .legal (.jmp side dly cond (arg.extractLsb' 0 5))
  | none => .illegal .reservedCond

/-- R95. -/
def decodeWait (side : Side) (dly : BitVec 3) (arg : BitVec 8) : Decoded :=
  if arg.extractLsb' 0 2 ≠ 0 then .illegal .waitMustBeZero else
  match WaitSrc.ofBits (arg.extractLsb' 3 4) with
  | none => .illegal .reservedWaitSource
  | some src =>
    let i := Instr.wait side dly (arg.getLsbD 7) src (arg.getLsbD 2)
    if i.wellFormed then .legal i else .illegal .consumeNotAllowed

/-- R96: the count of `IN` and `OUT`. -/
def decodeCount (arg : BitVec 8) : Option Count :=
  if arg.getLsbD 7 then
    if arg.extractLsb' 5 2 = 0 then some (.lut (arg.extractLsb' 0 5)) else none
  else some (.imm (arg.extractLsb' 0 7))

/-- R97. -/
def decodeGet (side : Side) (dly : BitVec 3) (arg : BitVec 8) : Decoded :=
  let dest := arg.extractLsb' 6 2
  if dest = 3 then .illegal .reservedGetDest
  else if arg.getLsbD 5 then .illegal .reservedGetWidth
  else if dest = 0 then .legal (.getX side dly (arg.extractLsb' 0 5))
  else if dest = 1 then .legal (.getY side dly (arg.extractLsb' 0 5))
  else if arg.extractLsb' 0 5 = 15 then .legal (.getExec side dly)
  else .illegal .execWidthNot16

/-- R98. -/
def decodeSeto (side : Side) (dly : BitVec 3) (arg : BitVec 8) : Decoded :=
  if arg.extractLsb' 1 4 ≠ 0 then .illegal .setoMustBeZero else
  match SetTarget.ofBits (arg.extractLsb' 5 3) with
  | some target => .legal (.seto side dly target (arg.getLsbD 0))
  | none => .illegal .reservedSetoTarget

/-- R99. -/
def decodeLoad (side : Side) (dly : BitVec 3) (arg : BitVec 8) : Decoded :=
  let dest : Dest := if arg.getLsbD 7 then .y else .x
  if arg.getLsbD 6 then .legal (.load side dly dest (.imm (arg.extractLsb' 0 6)))
  else if arg.getLsbD 5 then .illegal .reservedLoadIndex
  else .legal (.load side dly dest (.lut (arg.extractLsb' 0 5)))

/-- R100. -/
def decodeNop (side : Side) (dly : BitVec 3) (arg : BitVec 8) : Decoded :=
  if arg = 0 then .legal (.nop side dly) else .illegal .nopMustBeZero

/-- Decoding, total on all 65536 words (R109). -/
def decode (w : OpWord) : Decoded :=
  match Side.ofBits (sideBits w) with
  | none => .illegal .reservedSide
  | some side =>
    let dly := dlyBits w
    let arg := argBits w
    match Op.ofBits (opBits w) with
    | .jmp => decodeJmp side dly arg
    | .wait => decodeWait side dly arg
    | .shiftIn =>
      match decodeCount arg with
      | some c => .legal (.shiftIn side dly c)
      | none => .illegal .reservedCount
    | .shiftOut =>
      match decodeCount arg with
      | some c => .legal (.shiftOut side dly c)
      | none => .illegal .reservedCount
    | .get => decodeGet side dly arg
    | .seto => decodeSeto side dly arg
    | .load => decodeLoad side dly arg
    | .nop => decodeNop side dly arg

/-! ### The encoder -/

/-- The operation of an instruction (R91). -/
def Instr.op : Instr → Op
  | .jmp _ _ _ _ => .jmp
  | .wait _ _ _ _ _ => .wait
  | .shiftIn _ _ _ => .shiftIn
  | .shiftOut _ _ _ => .shiftOut
  | .getX _ _ _ => .get
  | .getY _ _ _ => .get
  | .getExec _ _ => .get
  | .seto _ _ _ _ => .seto
  | .load _ _ _ _ => .load
  | .nop _ _ => .nop

/-- R96. -/
def Count.bits : Count → BitVec 8
  | .imm m => 0#1 ++ m
  | .lut k => 4#3 ++ k

/-- The argument field of an instruction (R94 to R100). -/
def Instr.arg : Instr → BitVec 8
  | .jmp _ _ cond target => cond.bits ++ target
  | .wait _ _ level src consume =>
    BitVec.ofBool level ++ src.bits ++ BitVec.ofBool consume ++ 0#2
  | .shiftIn _ _ count => count.bits
  | .shiftOut _ _ count => count.bits
  | .getX _ _ m => 0#3 ++ m
  | .getY _ _ m => 2#3 ++ m
  | .getExec _ _ => 0x8F#8
  | .seto _ _ target value => target.bits ++ 0#4 ++ BitVec.ofBool value
  | .load _ _ dest (.lut k) => BitVec.ofBool (dest = .y) ++ 0#2 ++ k
  | .load _ _ dest (.imm v) => BitVec.ofBool (dest = .y) ++ 1#1 ++ v
  | .nop _ _ => 0

/-- The word of an instruction. -/
def encode (i : Instr) : OpWord := packWord i.op.bits i.side.bits i.delay i.arg

/-- The instruction the decoder reads from a table word of `nbits` bits (at most 16: no instruction
is longer), every bit above `nbits` being 0. -/
def decodeTableWord (nbits w : Nat) : Option Instr :=
  if nbits ≤ 16 then
    match decode (BitVec.ofNat 16 (w % 2 ^ nbits)) with
    | .legal i => some i
    | .illegal _ => none
  else none

end Sys2Proof
end

