-- ==== Sys2Proof/Config.lean ====
section
/-!
DEFINITION. What an implementation of macvid-core fixes (the open parameters of 00_scope R10), what
the environment supplies in a cycle (R7, R20, R61), and the free values of the model.
-/

namespace Sys2Proof

/-- The parameters of the hardware that R10 leaves to the implementation (93 U16). The step reads
`fifoDepth` and `bankWords`; it sees the picture's size only through the LUT (92 D44). The video mode and
the clocks are arguments of the functions that use them. -/
structure Params where
  /-- `ACTIVE_W`: active pixels per line. -/
  activeW : Nat
  /-- `ACTIVE_H`: active lines per frame. -/
  activeH : Nat
  /-- `FIFO_DEPTH`: words in each engine FIFO. -/
  fifoDepth : Nat
  /-- `BANK_WORDS`: words in each frame bank. -/
  bankWords : Nat
deriving DecidableEq, Repr

/-- The reference hardware (R10). -/
def Params.reference : Params :=
  { activeW := 512, activeH := 342, fifoDepth := 8, bankWords := 5472 }

/-- The words of a frame of the parameters' size, `ACTIVE_W · ACTIVE_H / 32` (R10). -/
def Params.frameWords (p : Params) : Nat := p.activeW * p.activeH / 32

/-- The ranges of R10 and R11: `1 ≤ FIFO_DEPTH ≤ 15`, a frame of whole words, and
`1 ≤ FRAME_WORDS ≤ BANK_WORDS ≤ 8192`. -/
def Params.wf (p : Params) : Bool :=
  decide (1 ≤ p.fifoDepth) && decide (p.fifoDepth ≤ 15) &&
  decide (p.activeW * p.activeH % 32 = 0) && decide (1 ≤ p.frameWords) &&
  decide (p.frameWords ≤ p.bankWords) && decide (p.bankWords ≤ 8192)

/-- A pin bank (R20). -/
inductive Bank
  | cap
  | gen
deriving DecidableEq, Repr

/-- One of the two auxiliary sync generators (R38): `h` feeds `E_HS`, `v` feeds `E_VS`. -/
inductive SyncGen
  | h
  | v
deriving DecidableEq, Repr

/-- The memories that reset does not fill (R60, R59): the banks (index 0 is `false`) and the loop
tables. -/
inductive Space
  | cbank (b : Bool)
  | gbank (b : Bool)
  | loopTable (g : SyncGen)
deriving DecidableEq, Repr

/-- What the host presents on the bus in one cycle (R61). -/
inductive HostAccess
  | idle
  | read (addr : Addr)
  | write (addr : Addr) (data : Word)
deriving DecidableEq, Repr, Inhabited

/-- The inputs of one clock cycle (R8, R20, R61): they are not state of the hardware (R43). -/
structure Input where
  /-- `rst`, active high (R58). -/
  rst : Bool
  capPix : Bool
  capHsync : Bool
  capVsync : Bool
  genHsync : Bool
  genVsync : Bool
  /-- The host's access of this cycle. -/
  host : HostAccess
deriving DecidableEq, Repr, Inhabited

/-- A cycle with all pins at their inactive level, no reset and no bus access (R14, 95 part 0). -/
def Input.quiet : Input :=
  { rst := false, capPix := false, capHsync := true, capVsync := true,
    genHsync := true, genVsync := true, host := .idle }

/-- FREE VALUE (log 2): the inputs of a cycle beyond the listed stimulus. Nothing constrains them
(R7: "supplies the input pins and `rst` each cycle as free values"). -/
opaque Config.freeInput : Nat → Input

/-- FREE VALUE (log 3): the content of a byte of a bank or loop table that nothing has written since
power-up (93 U1: any value, and stable). -/
opaque Config.unwritten : Space → Nat → Byte

/-- FREE VALUE (log 18): the implied refresh rate of a mode whose line rounds to 0 cycles, as a function
of the engine clock. R161 states none. -/
opaque Config.refreshOfEmptyFrame : Rat → Rat

/-- FREE VALUE (log 18): the measured frequency while a period meter is 0, as a function of the engine
clock. R164 states none. -/
opaque Config.frequencyWithoutPeriod : Rat → Rat

end Sys2Proof
end

