-- ==== Sys2Proof/Machine/Programs.lean ====
section
/-!
DEFINITION. The canonical programs (43 R166; 44 R186, R190, R192, R194), the reset column of the timing
LUT (42 R157) and the names of the LUT entries that agents and programs read.
-/

namespace Sys2Proof.Machine

/-- Program CAP, the reset content of `PROG[0]` (R166). -/
def programCap : Vector OpWord 32 :=
  #v[0x0083, 0x20A0, 0x0000, 0x20B8, 0xC010, 0x20A0, 0x0025, 0xC091,
     0x20A0, 0xC012, 0x002A, 0x408F, 0x0048, 0x0000, 0, 0,
     0, 0, 0, 0, 0, 0, 0, 0, 0, 0, 0, 0, 0, 0, 0, 0]

/-- Program GEN, the reset content of `PROG[1]` (R186). -/
def programGen : Vector OpWord 32 :=
  #v[0x0083, 0x20A0, 0x0000, 0x20B8, 0xC013, 0x20A0, 0x0025, 0xC094,
     0x20A0, 0xC015, 0x002A, 0x608F, 0xA020, 0x0048, 0x0000, 0,
     0, 0, 0, 0, 0, 0, 0, 0, 0, 0, 0, 0, 0, 0, 0, 0]

/-- Program GEN_IRQ (R190): not loaded by reset, the host writes it to `PROG[1]`. -/
def programGenIrq : Vector OpWord 32 :=
  #v[0x20C8, 0x2048, 0xC013, 0x2040, 0x20C0, 0x0023, 0xC094, 0x2040,
     0x20C0, 0xC015, 0x002A, 0x608F, 0xA020, 0x0047, 0x0000, 0,
     0, 0, 0, 0, 0, 0, 0, 0, 0, 0, 0, 0, 0, 0, 0, 0]

/-- Program AUX_H, the reset content of `PROG[2]` (R192). -/
def programAuxH : Vector OpWord 32 :=
  #v[0x800F, 0x808F, 0x0022, 0x0000, 0, 0, 0, 0,
     0, 0, 0, 0, 0, 0, 0, 0, 0, 0, 0, 0, 0, 0, 0, 0, 0, 0, 0, 0, 0, 0, 0, 0]

/-- Program AUX_V, the reset content of `PROG[3]` (R194). -/
def programAuxV : Vector OpWord 32 :=
  #v[0x800F, 0x808F, 0x2040, 0x20C0, 0x0022, 0x0000, 0, 0,
     0, 0, 0, 0, 0, 0, 0, 0, 0, 0, 0, 0, 0, 0, 0, 0, 0, 0, 0, 0, 0, 0, 0, 0]

/-- The reset column of the timing LUT (R157): `compute` of the reference mode at one engine cycle
per pixel, and the derived constants of R158 with `vs_leads`. -/
def resetLut : Vector Word 32 :=
  #v[0, 178, 0, 512, 690, 0, 4, 24, 342, 370, 0, 2760, 16560, 235980, 255300, 512,
     23, 341, 175, 23, 341, 174, 0, 0, 0, 5472, 0, 0, 0, 0, 0, 0]

/-- `ACTIVE_W_BITS` (R157). -/
def idxActiveWBits : BitVec 5 := 15
/-- `CAP_VBP_CNT` (R157). -/
def idxCapVbpCnt : BitVec 5 := 16
/-- `CAP_LINES_CNT` (R157). -/
def idxCapLinesCnt : BitVec 5 := 17
/-- `CAP_HBP_CNT` (R157). -/
def idxCapHbpCnt : BitVec 5 := 18
/-- `GEN_VBP_CNT` (R157). -/
def idxGenVbpCnt : BitVec 5 := 19
/-- `GEN_LINES_CNT` (R157). -/
def idxGenLinesCnt : BitVec 5 := 20
/-- `GEN_HBP_CNT` (R157). -/
def idxGenHbpCnt : BitVec 5 := 21
/-- `FRAME_WINDOW_CYC` (R157): watchdog, first word to last word of a frame. -/
def idxFrameWindow : BitVec 5 := 23
/-- `ARM_WINDOW_CYC` (R157): watchdog, `ARM` to first word. -/
def idxArmWindow : BitVec 5 := 24
/-- `FRAME_WORDS` (R157). -/
def idxFrameWords : BitVec 5 := 25

end Sys2Proof.Machine
end

