-- ==== Sys2Proof/Machine/State.lean ====
section
/-!
DEFINITION. The state of macvid-core (10_state.md) as plain data, its accessors, the reasons a step can
stop, and the state after reset (R59).
-/

namespace Sys2Proof.Machine

/-! ### Reasons to stop -/

/-- Why a step stops with a fault. No reachable state has either (log 12): the ENGINE faults of the
spec are no stop, they are the field `Engine.fault` of a next state (R241). -/
inductive Fault
  /-- Raised by the cycle when the capture mover would write a word outside its bank
  (`wptr ≥ BANK_WORDS`), an address that does not exist (R36, R220). Safe. -/
  | captureBankIndex
  /-- Raised by the cycle when the generation feeder would read a word outside its bank
  (`rptr ≥ BANK_WORDS`), an address that does not exist (R37, R228). Safe. -/
  | generationBankIndex
deriving DecidableEq, Repr

/-- Why a step refuses. -/
inductive Refusal
  /-- Raised by an arm of `exec` whose instruction has no meaning yet; no arm does. Safe. -/
  | notModelled (mnemonic : String)
deriving DecidableEq, Repr

/-! ### Engines -/

/-- Which of the four engines (00_scope R9), in the order of their indices 0 to 3. -/
inductive EngineId
  /-- `E_CAP`, index 0. -/
  | cap
  /-- `E_GEN`, index 1. -/
  | gen
  /-- `E_HS`, index 2. -/
  | hs
  /-- `E_VS`, index 3. -/
  | vs
deriving DecidableEq, Repr

/-- `CONFIG.dir` (R33). -/
inductive Dir
  | rx
  | tx
deriving DecidableEq, Repr

/-- `CONFIG.side_sel` (R33); the code 3 is not legal. -/
inductive SideSel
  | none
  | hsync
  | vsync
deriving DecidableEq, Repr

/-- The `CONFIG` register of an engine (R33). -/
structure EngineConfig where
  dir : Dir
  bank : Bank
  sideSel : SideSel
  pixDrv : Bool
deriving DecidableEq, Repr

/-- The causes of an engine fault (60 R241), codes 1 to 5. -/
inductive EngineFault
  | illegalEncoding
  | wrongDirection
  | fieldUnderflow
  | execNotAllowed
  | noPin
deriving DecidableEq, Repr

/-- The state of one engine (R25 to R33). -/
structure Engine where
  /-- `PROG`, 32 slots (R25). -/
  prog : Vector OpWord 32
  /-- R26. -/
  pc : Slot
  /-- Counter X (R27). -/
  x : Word
  /-- Counter Y (R27). -/
  y : Word
  /-- The shift register `SR` (R28). -/
  sr : Word
  /-- The bit count of `SR` (R28). -/
  cnt : BitVec 6
  /-- Idle cycles still owed (R29). -/
  dly : BitVec 3
  /-- Bits a running `IN` or `OUT` has still to move (R29). -/
  rem : Word
  /-- R30. -/
  run : Bool
  /-- R30, R241: `none` is code 0. -/
  fault : Option EngineFault
  /-- R30. -/
  rxStall : Bool
  /-- R30. -/
  txStall : Bool
  /-- Head first (R31). -/
  fifo : List Word
  /-- R33. -/
  config : EngineConfig
deriving DecidableEq, Repr

/-- The four engines. -/
structure Engines where
  cap : Engine
  gen : Engine
  hs : Engine
  vs : Engine
deriving DecidableEq, Repr

/-! ### Pins and edge detectors -/

/-- The output pin registers (R21). -/
structure OutPins where
  pix : Bool
  hsync : Bool
  vsync : Bool
deriving DecidableEq, Repr

/-- The previous-level registers of one pin bank (R22). -/
structure EdgeRegs where
  hsQ : Bool
  vsQ : Bool
deriving DecidableEq, Repr

/-! ### Frame exchange, players -/

/-- The memory of a bank or loop table: pairs of byte address and byte, addresses strictly rising
(log 4). Word `i` stands at byte addresses `4 i` to `4 i + 3`. -/
abbrev Memory := List Host.Cell

/-- The handshake states (R36, R217); the code 3 never occurs. -/
inductive XState
  | idle
  | transferring
  | settled
deriving DecidableEq, Repr

/-- The capture side: banks, ownership bit, handshake, watchdog, frame counter and meter
(R34 to R36, R39, R42). -/
structure CaptureSide where
  bank0 : Memory
  bank1 : Memory
  /-- `csel`: the bank in flight. -/
  sel : Bool
  /-- `cx`. -/
  x : XState
  /-- `cbuf`. -/
  buf : Bool
  /-- `wptr`. -/
  ptr : BitVec 16
  /-- `wd_on`. -/
  wdOn : Bool
  /-- `wd_ctr`. -/
  wdCtr : Word
  /-- `cap_frames`. -/
  frames : Word
  /-- `cap_meas`. -/
  meas : Word
  /-- `cap_meas_ctr`. -/
  measCtr : Word
deriving DecidableEq, Repr

/-- The generation side (R34, R35, R37, R42). -/
structure GenSide where
  bank0 : Memory
  bank1 : Memory
  /-- `gsel`: the bank in flight. -/
  sel : Bool
  /-- `gx`. -/
  x : XState
  /-- `gbuf`. -/
  buf : Bool
  /-- `rptr`. -/
  ptr : BitVec 16
  /-- `feed_en`. -/
  feedEn : Bool
  /-- `single`. -/
  single : Bool
  /-- `gen_frames`. -/
  frames : Word
  /-- `gen_meas`. -/
  meas : Word
  /-- `gen_meas_ctr`. -/
  measCtr : Word
deriving DecidableEq, Repr

/-- A loop table and its player (R38). -/
structure Player where
  /-- `lt_mem`. -/
  mem : Memory
  /-- `lt_len`. -/
  len : BitVec 5
  /-- `lt_armed`. -/
  armed : Bool
  /-- `lt_idx`. -/
  idx : BitVec 4
deriving DecidableEq, Repr

/-! ### Requests -/

/-- The writes that one engine's word asks, in one cycle, of state with several writers (60 R262): the
output pins, the flags, the stall flags and the engine's FIFO. The model's own (log 7). -/
structure Requests where
  pix : Option Bool
  hsync : Option Bool
  vsync : Option Bool
  flagSet : BitVec 4
  flagClr : BitVec 4
  rxStall : Bool
  txStall : Bool
  pop : Bool
  push : Option Word
deriving DecidableEq, Repr

/-- No request. -/
def Requests.none : Requests :=
  { pix := .none, hsync := .none, vsync := .none, flagSet := 0, flagClr := 0,
    rxStall := false, txStall := false, pop := false, push := .none }

/-! ### The state -/

/-- The state of macvid-core at the start of a clock cycle. -/
structure State where
  /-- MODEL: the open parameters (log 5). -/
  params : Params
  /-- MODEL: the inputs of this and the coming cycles (log 1). -/
  stim : List Input
  /-- MODEL: cycles passed, the argument of the free input (log 2). -/
  cycle : Nat
  /-- MODEL: the engine whose word `exec` evaluates (log 7). -/
  cur : EngineId
  /-- MODEL: what that word asks of shared state; empty between cycles (log 7). -/
  req : Requests
  /-- MODEL: what the bus returned for the last cycle's read (log 13). -/
  busData : Option Word
  /-- `pix_out`, `hsync_out`, `vsync_out` (R21). -/
  out : OutPins
  /-- `hs_q[0]`, `vs_q[0]` (R22). -/
  edgeCap : EdgeRegs
  /-- `hs_q[1]`, `vs_q[1]` (R22). -/
  edgeGen : EdgeRegs
  /-- `F[0..3]` (R23). -/
  flags : BitVec 4
  /-- `LUT[0..31]` (R24). -/
  lut : Vector Word 32
  /-- `eng[0..3]` (R25 to R33). -/
  eng : Engines
  /-- The capture side (R34 to R36, R39, R42). -/
  cap : CaptureSide
  /-- The generation side (R34, R35, R37, R42). -/
  gen : GenSide
  /-- Loop table 0 and its player (R38). -/
  playerH : Player
  /-- Loop table 1 and its player (R38). -/
  playerV : Player
  /-- `err` (R40). -/
  err : BitVec 64
  /-- `bus_err` (R41). -/
  busErr : Bool
  /-- `cap_evt` (R41). -/
  capEvt : Bool
  /-- `gen_evt` (R41). -/
  genEvt : Bool
deriving DecidableEq, Repr

/-! ### Accessors -/

/-- Engine `e`. -/
def Engines.get (g : Engines) : EngineId → Engine
  | .cap => g.cap
  | .gen => g.gen
  | .hs => g.hs
  | .vs => g.vs

/-- Engine `e` replaced. -/
def Engines.set (g : Engines) (e : EngineId) (v : Engine) : Engines :=
  match e with
  | .cap => { g with cap := v }
  | .gen => { g with gen := v }
  | .hs => { g with hs := v }
  | .vs => { g with vs := v }

/-- `eng[e]`. -/
def State.engine (s : State) (e : EngineId) : Engine := s.eng.get e

/-- `eng[e]` replaced. -/
def State.setEngine (s : State) (e : EngineId) (v : Engine) : State :=
  { s with eng := s.eng.set e v }

/-- The engine whose word is evaluated. -/
def State.me (s : State) : Engine := s.engine s.cur

/-- The engine whose word is evaluated, replaced. -/
def State.setMe (s : State) (v : Engine) : State := s.setEngine s.cur v

/-- The state as engine `e` evaluates its word in it. -/
def State.focus (s : State) (e : EngineId) : State := { s with cur := e }

/-- The requests replaced. -/
def State.setReq (s : State) (r : Requests) : State := { s with req := r }

/-- The edge detector of a bank. -/
def State.edge (s : State) : Bank → EdgeRegs
  | .cap => s.edgeCap
  | .gen => s.edgeGen

/-- The player of a loop table. -/
def State.player (s : State) : SyncGen → Player
  | .h => s.playerH
  | .v => s.playerV

/-- The capture bank of an index (`false` is 0). -/
def CaptureSide.bank (c : CaptureSide) : Bool → Memory
  | false => c.bank0
  | true => c.bank1

/-- The generation bank of an index. -/
def GenSide.bank (g : GenSide) : Bool → Memory
  | false => g.bank0
  | true => g.bank1

/-- The inputs of the current cycle: the head of the stimulus, or a free value (R8, R43; log 1, 2). -/
def State.input (s : State) : Input :=
  match s.stim with
  | [] => Config.freeInput s.cycle
  | i :: _ => i

/-- `LUT[k]` (R24). -/
def State.lutAt (s : State) (k : BitVec 5) : Word := s.lut[k.toNat]'k.isLt

/-! ### Reset (R59) -/

/-- The reset value of `CONFIG` (R9, R33). -/
def resetConfig : EngineId → EngineConfig
  | .cap => { dir := .rx, bank := .cap, sideSel := .none, pixDrv := false }
  | .gen => { dir := .tx, bank := .gen, sideSel := .none, pixDrv := true }
  | .hs => { dir := .tx, bank := .gen, sideSel := .hsync, pixDrv := false }
  | .vs => { dir := .tx, bank := .gen, sideSel := .vsync, pixDrv := false }

/-- The reset value of `PROG` (R25). -/
def resetProg : EngineId → Vector OpWord 32
  | .cap => programCap
  | .gen => programGen
  | .hs => programAuxH
  | .vs => programAuxV

/-- The reset state of an engine (R59). -/
def resetEngine (e : EngineId) : Engine :=
  { prog := resetProg e, pc := 0, x := 0, y := 0, sr := 0, cnt := 0, dly := 0, rem := 0,
    run := false, fault := none, rxStall := false, txStall := false, fifo := [],
    config := resetConfig e }

/-- R59. -/
def resetEngines : Engines :=
  { cap := resetEngine .cap, gen := resetEngine .gen, hs := resetEngine .hs, vs := resetEngine .vs }

/-- R59; the banks are not written by reset. -/
def resetCapture (bank0 bank1 : Memory) : CaptureSide :=
  { bank0 := bank0, bank1 := bank1, sel := false, x := .idle, buf := false, ptr := 0,
    wdOn := false, wdCtr := 0, frames := 0, meas := 0, measCtr := 0 }

/-- R59; the banks are not written by reset. -/
def resetGeneration (bank0 bank1 : Memory) : GenSide :=
  { bank0 := bank0, bank1 := bank1, sel := false, x := .idle, buf := false, ptr := 0,
    feedEn := false, single := false, frames := 0, meas := 0, measCtr := 0 }

/-- R59; the loop table is not written by reset. -/
def resetPlayer (mem : Memory) : Player := { mem := mem, len := 0, armed := false, idx := 0 }

/-- The machine right after reset (R59): the reference parameters (log 5), nothing known of the
memories (log 3), no stimulus listed (log 14). -/
def State.reset : State :=
  { params := Params.reference, stim := [], cycle := 0, cur := .cap, req := Requests.none,
    busData := none,
    out := { pix := false, hsync := true, vsync := true },
    edgeCap := { hsQ := true, vsQ := true }, edgeGen := { hsQ := true, vsQ := true },
    flags := 0, lut := resetLut, eng := resetEngines,
    cap := resetCapture [] [], gen := resetGeneration [] [],
    playerH := resetPlayer [], playerV := resetPlayer [],
    err := 0, busErr := false, capEvt := false, genEvt := false }

end Sys2Proof.Machine
end

