-- ==== Sys2Proof/Machine/Flags.lean ====
section
/-!
DEFINITION. The shared signal flags `F[0..3]` (10_state R23, 60 R250), the stall flags (R30) and the
sticky event bits (R41): how each is read, requested and merged within a cycle (60 R262).
-/

namespace Sys2Proof.Machine

/-- `pre(F[k])`. -/
def State.flag (s : State) (k : BitVec 2) : Bool := s.flags.getLsbD k.toNat

/-- The bit of flag `k`. -/
def flagBit (k : BitVec 2) : BitVec 4 := 1#4 <<< k.toNat

/-- R23, R262: any set wins, else any clear, else hold. -/
def resolveFlags (pre set clr : BitVec 4) : BitVec 4 := (pre &&& ~~~clr) ||| set

/-- R133: value 1 requests a set of `F[k]`, value 0 a clear. -/
def Requests.flag (r : Requests) (k : BitVec 2) (value : Bool) : Requests :=
  if value then { r with flagSet := r.flagSet ||| flagBit k }
  else { r with flagClr := r.flagClr ||| flagBit k }

/-- R30, R262: a sticky bit that is set in a cycle ends set, whoever clears it. -/
def resolveSticky (pre set clr : Bool) : Bool := set || (pre && !clr)

end Sys2Proof.Machine
end

