-- ==== Sys2Proof/Machine/Memory.lean ====
section
/-!
DEFINITION. The memories that reset does not fill: frame banks and loop tables (20 R60, R74). The bus
moves whole words (R75); the model stores a word as four bytes, byte 0 being bits 31:24 (R74), at byte
addresses `4 i` to `4 i + 3` (log 4).
-/

namespace Sys2Proof.Machine

/-- The canonical form: byte addresses strictly rising. An unlisted address holds no value, so no entry
can equal what an unlisted address reads as, and equal memories are equal lists. -/
abbrev Memory.wf (m : Memory) : Prop := m.Pairwise (fun x y => x.1 < y.1)

/-- The byte written at an address, if any. -/
def Memory.lookup : Memory → Nat → Option Byte
  | [], _ => none
  | (k, b) :: m, a => if k = a then some b else Memory.lookup m a

/-- One byte written. -/
def Memory.insert : Memory → Nat → Byte → Memory
  | [], a, b => [(a, b)]
  | (k, c) :: m, a, b =>
    if a < k then (a, b) :: (k, c) :: m
    else if a = k then (a, b) :: m
    else (k, c) :: Memory.insert m a b

/-- One byte read: the byte written last, or the free value of a byte never written (93 U1). -/
def Memory.readByte (sp : Space) (m : Memory) (a : Nat) : Byte :=
  match Memory.lookup m a with
  | some b => b
  | none => Config.unwritten sp a

/-- `MemRead` (R13): word `i`, byte 0 first (R74). -/
def Memory.readWord (sp : Space) (m : Memory) (i : Nat) : Word :=
  Memory.readByte sp m (4 * i) ++ Memory.readByte sp m (4 * i + 1) ++
    Memory.readByte sp m (4 * i + 2) ++ Memory.readByte sp m (4 * i + 3)

/-- Byte `k` of a word (R74: byte 0 is bits 31:24). -/
def wordByte (w : Word) (k : Nat) : Byte := w.extractLsb' (8 * (3 - k)) 8

/-- `MemWrite` (R13): word `i`. -/
def Memory.writeWord (m : Memory) (i : Nat) (w : Word) : Memory :=
  Memory.insert
    (Memory.insert
      (Memory.insert
        (Memory.insert m (4 * i) (wordByte w 0))
        (4 * i + 1) (wordByte w 1))
      (4 * i + 2) (wordByte w 2))
    (4 * i + 3) (wordByte w 3)

/-- Word `i` of capture bank `b` (R34). -/
def State.cbankWord (s : State) (b : Bool) (i : Nat) : Word :=
  Memory.readWord (.cbank b) (s.cap.bank b) i

/-- Word `i` of generation bank `b` (R34). -/
def State.gbankWord (s : State) (b : Bool) (i : Nat) : Word :=
  Memory.readWord (.gbank b) (s.gen.bank b) i

/-- Entry `i` of a loop table (R38). -/
def State.ltWord (s : State) (g : SyncGen) (i : Nat) : Word :=
  Memory.readWord (.loopTable g) (s.player g).mem i

/-- The memory of a space. -/
def State.memory (s : State) : Space → Memory
  | .cbank b => s.cap.bank b
  | .gbank b => s.gen.bank b
  | .loopTable g => (s.player g).mem

/-- One byte of a space, through which statements speak of memory. -/
def State.byteAt (s : State) (sp : Space) (a : Nat) : Byte :=
  Memory.readByte sp (s.memory sp) a

/-- Word `i` of capture bank `b` written. -/
def CaptureSide.writeWord (c : CaptureSide) (b : Bool) (i : Nat) (w : Word) : CaptureSide :=
  match b with
  | false => { c with bank0 := Memory.writeWord c.bank0 i w }
  | true => { c with bank1 := Memory.writeWord c.bank1 i w }

/-- Word `i` of generation bank `b` written. -/
def GenSide.writeWord (g : GenSide) (b : Bool) (i : Nat) (w : Word) : GenSide :=
  match b with
  | false => { g with bank0 := Memory.writeWord g.bank0 i w }
  | true => { g with bank1 := Memory.writeWord g.bank1 i w }

end Sys2Proof.Machine
end

