-- ==== Sys2Proof/Machine/Ops.lean ====
section
/-!
DEFINITION. The operations the meanings share: writing the evaluated engine's registers, requesting
writes of shared state, raising an engine fault (60 R241) and the restart that ends it (41 R137),
completion (R124), the side action (R123), and committing a word's requests.
-/

namespace Sys2Proof.Machine

/-- The evaluated engine's registers changed. -/
def State.mapMe (s : State) (f : Engine → Engine) : State := s.setMe (f s.me)

/-- The requests changed. -/
def State.mapReq (s : State) (f : Requests → Requests) : State := s.setReq (f s.req)

/-! ### The exception of an engine, and the return from it -/

/-- `raise Fault(code)` (R13, R241): the fault field is set and nothing else changes; `pc` keeps the
slot of the faulting word. -/
def raiseFault (f : EngineFault) (s : State) : State :=
  s.mapMe fun en => { en with fault := some f }

/-- The restart of an engine (R137), the only way out of a fault: to slot 0, with the shift register,
the delay, the running transfer and the fault cleared; everything else holds. -/
def restartEngine (en : Engine) : Engine :=
  { en with pc := 0, sr := 0, cnt := 0, dly := 0, rem := 0, fault := none }

/-- The cause code of `STATUS` (R241). -/
def faultCode : Option EngineFault → BitVec 3
  | none => 0
  | some .illegalEncoding => 1
  | some .wrongDirection => 2
  | some .fieldUnderflow => 3
  | some .execNotAllowed => 4
  | some .noPin => 5

/-! ### Completion (R124) -/

/-- The word completes and `pc` goes to a slot. -/
def completeAt (target : Slot) (dly : BitVec 3) (s : State) : State :=
  s.mapMe fun en => { en with pc := target, dly := dly }

/-- The word completes and `pc` goes to the next slot, slot 31 being followed by 0 (R26). -/
def complete (dly : BitVec 3) (s : State) : State := completeAt (s.me.pc + 1) dly s

/-! ### Requests of shared state -/

/-- A write of `pix_out` (R21). -/
def writePix (v : Bool) (s : State) : State := s.mapReq fun r => { r with pix := some v }

/-- A write of the engine's side-channel pin (R92): the register `CONFIG.side_sel` names. -/
def writeSidePin (v : Bool) (s : State) : State :=
  match s.me.config.sideSel with
  | .none => s
  | .hsync => s.mapReq fun r => { r with hsync := some v }
  | .vsync => s.mapReq fun r => { r with vsync := some v }

/-- The side action of a word (R92, R123). -/
def sideAction (side : Side) (s : State) : State :=
  match side with
  | .none => s
  | .low => writeSidePin false s
  | .high => writeSidePin true s

/-- A set (`true`) or clear of `F[k]` (R23, R133). -/
def requestFlag (k : BitVec 2) (v : Bool) (s : State) : State := s.mapReq fun r => r.flag k v

/-- `push(e, w)` (R31). -/
def requestPush (w : Word) (s : State) : State := s.mapReq fun r => { r with push := some w }

/-- `pop(e)` (R31). -/
def requestPop (s : State) : State := s.mapReq fun r => { r with pop := true }

/-- `rx_stall <- 1` (R128). -/
def requestRxStall (s : State) : State := s.mapReq fun r => { r with rxStall := true }

/-- `tx_stall <- 1` (R130). -/
def requestTxStall (s : State) : State := s.mapReq fun r => { r with txStall := true }

/-! ### Merging -/

/-- The queue after a cycle (R31, R262): a flush empties it and discards the push; otherwise the pop
removes the head of the pre-cycle queue and the push goes to the tail. -/
def nextFifo (flush pop : Bool) (push : Option Word) (q : List Word) : List Word :=
  if flush then [] else (if pop then q.tail else q) ++ push.toList

/-- The output registers after the pin writes of one word (R123). -/
def Requests.drive (r : Requests) (o : OutPins) : OutPins :=
  { pix := r.pix.getD o.pix, hsync := r.hsync.getD o.hsync, vsync := r.vsync.getD o.vsync }

/-- The engine after its own FIFO and stall requests. -/
def Requests.applyEngine (r : Requests) (en : Engine) : Engine :=
  { en with
    rxStall := resolveSticky en.rxStall r.rxStall false
    txStall := resolveSticky en.txStall r.txStall false
    fifo := nextFifo false r.pop r.push en.fifo }

/-- What the word's requests do to the machine when no other agent writes in the cycle (log 7); the
cycle merges the requests of all agents by R262 instead. -/
def commit (s : State) : State :=
  let t := s.mapMe s.req.applyEngine
  { t with
    out := s.req.drive s.out
    flags := resolveFlags s.flags s.req.flagSet s.req.flagClr }

/-! ### Evaluation of a word (R122 to R124) -/

/-- Checks 2 and 3 of R122 in their order: the direction the operation needs, then the pins it and its
side action need. -/
def checkWord (side : Side) (need : Option Dir) (pinMissing : Bool) (c : EngineConfig) :
    Option EngineFault :=
  if need.any (fun d => decide (d ≠ c.dir)) then some .wrongDirection
  else if pinMissing || (decide (side ≠ .none) && decide (c.sideSel = .none)) then some .noPin
  else none

/-- One evaluation of a word: a fault found by the checks has no other effect at all (R122); otherwise
the word acts. -/
def evaluate (fault : Option EngineFault) (body : State → State) (s : State) :
    Host.Outcome State Fault Refusal :=
  let t := s.setReq Requests.none
  match fault with
  | some f => .next (raiseFault f t)
  | none => .next (commit (body t))

end Sys2Proof.Machine
end

