-- ==== Sys2Proof/Machine/Operands.lean ====
section
/-!
DEFINITION. The operand forms: input pins and edge strobes (10_state R20, 40 R111), the sources of
`WAIT` (R95), the conditions of `JMP` (R94), the counts of `IN` and `OUT` (R96), the values of `LOAD`
(R99) and the pins `SETO` needs (R98, R122).
-/

namespace Sys2Proof.Machine

/-! ### Pins of this cycle (R14, R20) -/

/-- The pixel pin of a bank; bank GEN has none and reads 0 (R20). -/
def Input.pix (i : Input) : Bank → Bool
  | .cap => i.capPix
  | .gen => false

/-- The hsync pin of a bank. -/
def Input.hs (i : Input) : Bank → Bool
  | .cap => i.capHsync
  | .gen => i.genHsync

/-- The vsync pin of a bank. -/
def Input.vs (i : Input) : Bank → Bool
  | .cap => i.capVsync
  | .gen => i.genVsync

/-! ### Strobes (R111): functions of the previous level and the level of this cycle -/

/-- The level fell: 1 before, 0 now. -/
def fell (pre now : Bool) : Bool := pre && !now

/-- The level rose: 0 before, 1 now. -/
def rose (pre now : Bool) : Bool := !pre && now

/-- `HS_FALL[b]`. -/
def State.hsFall (s : State) (b : Bank) : Bool := fell (s.edge b).hsQ (Input.hs s.input b)
/-- `HS_RISE[b]`. -/
def State.hsRise (s : State) (b : Bank) : Bool := rose (s.edge b).hsQ (Input.hs s.input b)
/-- `VS_FALL[b]`. -/
def State.vsFall (s : State) (b : Bank) : Bool := fell (s.edge b).vsQ (Input.vs s.input b)
/-- `VS_RISE[b]`. -/
def State.vsRise (s : State) (b : Bank) : Bool := rose (s.edge b).vsQ (Input.vs s.input b)

/-- The edge detector's registers after the cycle (R112). -/
def State.edgeNext (s : State) (b : Bank) : EdgeRegs :=
  { hsQ := Input.hs s.input b, vsQ := Input.vs s.input b }

/-! ### Operands of the words -/

/-- The value a `WAIT` compares with its level (R95), in the bank of the engine. -/
def waitValue (s : State) (src : WaitSrc) : Bool :=
  let b := s.me.config.bank
  match src with
  | .pix => Input.pix s.input b
  | .hs => Input.hs s.input b
  | .vs => Input.vs s.input b
  | .hsFall => s.hsFall b
  | .hsRise => s.hsRise b
  | .vsFall => s.vsFall b
  | .vsRise => s.vsRise b
  | .flag k => s.flag k

/-- Whether a jump is taken (R94, R125): the counters before the decrement, the pins of this cycle. -/
def jumpTaken (s : State) (cond : Cond) : Bool :=
  let b := s.me.config.bank
  match cond with
  | .always => true
  | .xDec => decide (s.me.x ≠ 0)
  | .yDec => decide (s.me.y ≠ 0)
  | .vsHigh => Input.vs s.input b
  | .vsLow => !Input.vs s.input b
  | .hsHigh => Input.hs s.input b
  | .hsLow => !Input.hs s.input b

/-- The post-decrement of a jump (R125): always, taken or not, modulo 2^32. -/
def decrementFor (cond : Cond) (s : State) : State :=
  match cond with
  | .xDec => s.mapMe fun en => { en with x := en.x - 1 }
  | .yDec => s.mapMe fun en => { en with y := en.y - 1 }
  | .always => s
  | .vsHigh => s
  | .vsLow => s
  | .hsHigh => s
  | .hsLow => s

/-- The bit count `N` of `IN` and `OUT` (R96). -/
def countValue (s : State) : Count → Word
  | .imm m => m.setWidth 32 + 1
  | .lut k => s.lutAt k

/-- The bits a transfer has still to move in this evaluation (R127, R129): `rem`, or `N` when none is
in progress. It is 0 exactly when `rem = 0` and `N = 0`. -/
def bitsLeft (s : State) (c : Count) : Word :=
  if s.me.rem = 0 then countValue s c else s.me.rem

/-- The value of a `LOAD` (R99). -/
def loadValue (s : State) : LoadSrc → Word
  | .lut k => s.lutAt k
  | .imm v => v.setWidth 32

/-- R122 check 3 for `SETO`: the target's pin is not there. -/
def targetPinMissing (c : EngineConfig) : SetTarget → Bool
  | .pin => decide (c.sideSel = .none)
  | .pix => !c.pixDrv
  | .flag _ => false

/-- The effect of `SETO` (R133). -/
def setTarget (target : SetTarget) (v : Bool) (s : State) : State :=
  match target with
  | .pin => writeSidePin v s
  | .pix => writePix v s
  | .flag k => requestFlag k v s

end Sys2Proof.Machine
end

