-- ==== Sys2Proof/Machine/Bus.lean ====
section
/-!
DEFINITION. The host bus: the address map (20 R72), the register words (30 R103 to R106), what a read
returns and which access is refused (20 R61 to R73, 44 R199, 45 R219 to R232). All of it is a function
of the pre-cycle state and the inputs of the cycle.
-/

namespace Sys2Proof.Machine

/-! ### Address map -/

/-- What an address names (R72). -/
inductive BusTarget
  | lut (k : BitVec 5)
  | errLo
  | errHi
  | gstat
  | flags
  | pins
  | capXctrl
  | capXstat
  | capMeas
  | capFrames
  | capWd
  | genXctrl
  | genXstat
  | genMeas
  | genFrames
  | genXcfg
  | prog (e : EngineId) (slot : Slot)
  | ctrl (e : EngineId)
  | status (e : EngineId)
  | config (e : EngineId)
  | fifo (e : EngineId)
  | regX (e : EngineId)
  | regY (e : EngineId)
  | regSr (e : EngineId)
  | regRem (e : EngineId)
  | ltEntry (g : SyncGen) (i : BitVec 4)
  | ltCtrl (g : SyncGen)
  | capWindow (i : Nat)
  | genWindow (i : Nat)
deriving DecidableEq, Repr

/-- The engine of a block index (R64). -/
def engineOfIndex (n : Nat) : EngineId :=
  if n = 0 then .cap else if n = 1 then .gen else if n = 2 then .hs else .vs

/-- The registers below `0x0100` (R62, R63, R71). -/
def decodeGlobal (n : Nat) : Option BusTarget :=
  if n < 0x20 then some (.lut (BitVec.ofNat 5 n))
  else if n = 0x20 then some .errLo
  else if n = 0x21 then some .errHi
  else if n = 0x22 then some .gstat
  else if n = 0x23 then some .flags
  else if n = 0x24 then some .pins
  else if n = 0x28 then some .capXctrl
  else if n = 0x29 then some .capXstat
  else if n = 0x2A then some .capMeas
  else if n = 0x2B then some .capFrames
  else if n = 0x2C then some .capWd
  else if n = 0x30 then some .genXctrl
  else if n = 0x31 then some .genXstat
  else if n = 0x32 then some .genMeas
  else if n = 0x33 then some .genFrames
  else if n = 0x34 then some .genXcfg
  else none

/-- An offset inside the block of an engine (R64, R65). -/
def decodeEngineOffset (e : EngineId) (off : Nat) : Option BusTarget :=
  if off < 0x20 then some (.prog e (BitVec.ofNat 5 off))
  else if off = 0x20 then some (.ctrl e)
  else if off = 0x21 then some (.status e)
  else if off = 0x22 then some (.config e)
  else if off = 0x23 then some (.fifo e)
  else if off = 0x24 then some (.regX e)
  else if off = 0x25 then some (.regY e)
  else if off = 0x26 then some (.regSr e)
  else if off = 0x27 then some (.regRem e)
  else none

/-- An offset inside the block of a loop table (R67). -/
def decodeTableOffset (g : SyncGen) (off : Nat) : Option BusTarget :=
  if off < 0x10 then some (.ltEntry g (BitVec.ofNat 4 off))
  else if off = 0x10 then some (.ltCtrl g)
  else none

/-- The complete address map (R72); `none` is unmapped (R73). -/
def decodeAddr (p : Params) (a : Addr) : Option BusTarget :=
  let n := a.toNat
  if n < 0x100 then decodeGlobal n
  else if n < 0x200 then decodeEngineOffset (engineOfIndex ((n - 0x100) / 0x40)) ((n - 0x100) % 0x40)
  else if n < 0x220 then decodeTableOffset .h (n - 0x200)
  else if n < 0x240 then decodeTableOffset .v (n - 0x220)
  else if 0x2000 ≤ n ∧ n < 0x2000 + p.bankWords then some (.capWindow (n - 0x2000))
  else if 0x4000 ≤ n ∧ n < 0x4000 + p.bankWords then some (.genWindow (n - 0x4000))
  else none

/-! ### Register words -/

/-- One bit as a register field. -/
def fieldBit (b : Bool) : BitVec 1 := BitVec.ofBool b

/-- The code of a handshake state (R36, R106). -/
def XState.code : XState → BitVec 2
  | .idle => 0
  | .transferring => 1
  | .settled => 2

/-- The `CONFIG` word (R104). -/
def EngineConfig.word (c : EngineConfig) : Word :=
  let sel : BitVec 2 := match c.sideSel with
    | .none => 0
    | .hsync => 1
    | .vsync => 2
  0#27 ++ fieldBit c.pixDrv ++ sel ++ fieldBit (decide (c.bank = .gen)) ++
    fieldBit (decide (c.dir = .tx))

/-- `CONFIG` from a written word (R104): `side_sel = 3` is not legal. -/
def EngineConfig.ofWord (d : Word) : Option EngineConfig :=
  let mk (sel : SideSel) : EngineConfig :=
    { dir := if d.getLsbD 0 then .tx else .rx, bank := if d.getLsbD 1 then .gen else .cap,
      sideSel := sel, pixDrv := d.getLsbD 4 }
  let sel := d.extractLsb' 2 2
  if sel = 0 then some (mk .none) else if sel = 1 then some (mk .hsync)
  else if sel = 2 then some (mk .vsync) else none

/-- The `STATUS` word (R105). -/
def statusWord (en : Engine) : Word :=
  0#1 ++ en.dly ++ BitVec.ofNat 4 en.fifo.length ++ 0#2 ++ en.cnt ++ 0#3 ++ en.pc ++ 0#1 ++
    faultCode en.fault ++ 0#1 ++ fieldBit en.txStall ++ fieldBit en.rxStall ++ fieldBit en.run

/-- The `GSTAT` word (R106). -/
def gstatWord (s : State) : Word :=
  0#29 ++ fieldBit s.genEvt ++ fieldBit s.capEvt ++ fieldBit s.busErr

/-- The `PINS` word (R106): input pins of this cycle, output registers before it. -/
def pinsWord (s : State) : Word :=
  let i := s.input
  0#21 ++ fieldBit s.out.vsync ++ fieldBit s.out.hsync ++ fieldBit s.out.pix ++ 0#2 ++
    fieldBit i.genVsync ++ fieldBit i.genHsync ++ 0#1 ++ fieldBit i.capVsync ++
    fieldBit i.capHsync ++ fieldBit i.capPix

/-- The `CAP_XSTAT` word (R106). -/
def capXstatWord (c : CaptureSide) : Word :=
  c.ptr ++ 0#11 ++ fieldBit c.wdOn ++ fieldBit c.buf ++ fieldBit c.sel ++ c.x.code

/-- The `GEN_XSTAT` word (R106). -/
def genXstatWord (g : GenSide) : Word :=
  g.ptr ++ 0#12 ++ fieldBit g.buf ++ fieldBit g.sel ++ g.x.code

/-- The `GEN_XCFG` word (R106). -/
def genXcfgWord (g : GenSide) : Word := 0#30 ++ fieldBit g.single ++ fieldBit g.feedEn

/-- The `LT_CTRL` word (R106). -/
def ltCtrlWord (p : Player) : Word :=
  0#16 ++ p.idx ++ 0#3 ++ fieldBit p.armed ++ 0#3 ++ p.len

/-! ### Ownership and recovery conditions -/

/-- A fixed-function agent owns the FIFO of an engine (R65). -/
def State.fifoOwned (s : State) : EngineId → Bool
  | .cap => decide (s.cap.x = .transferring)
  | .gen => s.gen.feedEn
  | .hs => s.playerH.armed
  | .vs => s.playerV.armed

/-- The condition of a capture recovery (R245). -/
def State.capRecovery (s : State) : Bool := (s.engine .cap).rxStall

/-- The condition of a generation recovery (R246). -/
def State.genRecovery (s : State) : Bool := (s.engine .gen).txStall

/-- The host may pop the FIFO of an engine (R65). -/
def State.hostMayPop (s : State) (e : EngineId) : Bool :=
  decide ((s.engine e).config.dir = .rx) && decide (0 < (s.engine e).fifo.length) && !s.fifoOwned e

/-- The host may push to the FIFO of an engine (R65). -/
def State.hostMayPush (s : State) (e : EngineId) : Bool :=
  decide ((s.engine e).config.dir = .tx) &&
    decide ((s.engine e).fifo.length < s.params.fifoDepth) && !s.fifoOwned e

/-- The generation bank the host's window reaches (R69): the settled one, or in single-buffer mode the
one being transmitted. -/
def GenSide.windowBank (g : GenSide) : Bool := if g.single then g.sel else !g.sel

/-- The generation window may be accessed (R69). -/
def GenSide.windowOpen (g : GenSide) : Bool := g.single || decide (g.x ≠ .transferring)

/-! ### Reads -/

/-- The value a read of a target returns; `none` is refused (R61 to R71). -/
def State.readTarget (s : State) : BusTarget → Option Word
  | .lut k => some (s.lutAt k)
  | .errLo => some (s.err.extractLsb' 0 32)
  | .errHi => some (s.err.extractLsb' 32 32)
  | .gstat => some (gstatWord s)
  | .flags => some (s.flags.setWidth 32)
  | .pins => some (pinsWord s)
  | .capXctrl => none
  | .capXstat => some (capXstatWord s.cap)
  | .capMeas => some s.cap.meas
  | .capFrames => some s.cap.frames
  | .capWd => some s.cap.wdCtr
  | .genXctrl => none
  | .genXstat => some (genXstatWord s.gen)
  | .genMeas => some s.gen.meas
  | .genFrames => some s.gen.frames
  | .genXcfg => some (genXcfgWord s.gen)
  | .prog e slot => some (((s.engine e).prog[slot.toNat]'slot.isLt).setWidth 32)
  | .ctrl _ => none
  | .status e => some (statusWord (s.engine e))
  | .config e => some (s.engine e).config.word
  | .fifo e => if s.hostMayPop e then (s.engine e).fifo.head? else none
  | .regX e => some (s.engine e).x
  | .regY e => some (s.engine e).y
  | .regSr e => some (s.engine e).sr
  | .regRem e => some (s.engine e).rem
  | .ltEntry g i => some (s.ltWord g i.toNat)
  | .ltCtrl g => some (ltCtrlWord (s.player g))
  | .capWindow i => some (s.cbankWord (!s.cap.sel) i)
  | .genWindow i => if s.gen.windowOpen then some (s.gbankWord s.gen.windowBank i) else none

/-! ### Writes -/

/-- What an accepted access asks of the machine. -/
inductive BusCmd
  /-- No access, or an accepted access with no effect. -/
  | none
  /-- R66. -/
  | refused
  | lut (k : BitVec 5) (d : Word)
  /-- Write 1 to clear `bus_err`, `cap_evt`, `gen_evt` (R63). -/
  | clearEvents (busErr capEvt genEvt : Bool)
  | prog (e : EngineId) (slot : Slot) (w : OpWord)
  | config (e : EngineId) (c : EngineConfig)
  /-- The bits of `CTRL` (R103). -/
  | ctrl (e : EngineId) (start restart clrRx clrTx flush : Bool)
  | push (e : EngineId) (d : Word)
  | pop (e : EngineId)
  | ltEntry (g : SyncGen) (i : BitVec 4) (d : Word)
  | ltCtrl (g : SyncGen) (len : BitVec 5) (armed : Bool)
  | genWindow (i : Nat) (d : Word)
  | arm
  | capTake
  | commitFrame
  | genTake
  | genXcfg (feedEn single : Bool)
deriving DecidableEq, Repr

/-- A write of `CAP_XCTRL` (R106, R219, R223, R245): a command is refused in a capture recovery, with
both bits, or in the wrong state; a write with neither bit does nothing, in a recovery too (log 9). -/
def State.capXctrl (s : State) (d : Word) : BusCmd :=
  match d.getLsbD 0, d.getLsbD 1 with
  | true, true => .refused
  | true, false => if s.cap.x = .idle ∧ s.capRecovery = false then .arm else .refused
  | false, true => if s.cap.x = .settled ∧ s.capRecovery = false then .capTake else .refused
  | false, false => .none

/-- A write of `GEN_XCTRL` (R106, R227, R231, R246); a write with neither bit does nothing, in a recovery
too (log 9). `TAKE` is accepted in single-buffer mode as well, since R231 has no such condition
(log 20). -/
def State.genXctrl (s : State) (d : Word) : BusCmd :=
  match d.getLsbD 0, d.getLsbD 1 with
  | true, true => .refused
  | true, false =>
    if s.gen.x = .idle ∧ s.gen.single = false ∧ s.genRecovery = false then .commitFrame else .refused
  | false, true => if s.gen.x = .settled ∧ s.genRecovery = false then .genTake else .refused
  | false, false => .none

/-- What a write to a target asks (R62 to R71). -/
def State.writeTarget (s : State) (d : Word) : BusTarget → BusCmd
  | .lut k => .lut k d
  | .errLo => .refused
  | .errHi => .refused
  | .gstat => .clearEvents (d.getLsbD 0) (d.getLsbD 1) (d.getLsbD 2)
  | .flags => .refused
  | .pins => .refused
  | .capXctrl => s.capXctrl d
  | .capXstat => .refused
  | .capMeas => .refused
  | .capFrames => .refused
  | .capWd => .refused
  | .genXctrl => s.genXctrl d
  | .genXstat => .refused
  | .genMeas => .refused
  | .genFrames => .refused
  | .genXcfg => .genXcfg (d.getLsbD 0) (d.getLsbD 1)
  | .prog e slot => if (s.engine e).run then .refused else .prog e slot (d.extractLsb' 0 16)
  | .ctrl e => .ctrl e (d.getLsbD 0) (d.getLsbD 1) (d.getLsbD 2) (d.getLsbD 3) (d.getLsbD 4)
  | .status _ => .refused
  | .config e =>
    if (s.engine e).run then .refused
    else match EngineConfig.ofWord d with
      | some c => .config e c
      | none => .refused
  | .fifo e => if s.hostMayPush e then .push e d else .refused
  | .regX _ => .refused
  | .regY _ => .refused
  | .regSr _ => .refused
  | .regRem _ => .refused
  | .ltEntry g i => .ltEntry g i d
  | .ltCtrl g =>
    let len := d.extractLsb' 0 5
    let armed := d.getLsbD 8
    if armed ∧ (len = 0 ∨ 16 < len.toNat) then .refused else .ltCtrl g len armed
  | .capWindow _ => .refused
  | .genWindow i => if s.gen.windowOpen then .genWindow i d else .refused

/-- What an accepted read asks: a read of `FIFO` pops (R65, R76), no other has an effect. -/
def readEffect : BusTarget → BusCmd
  | .fifo e => .pop e
  | .lut _ => .none
  | .errLo => .none
  | .errHi => .none
  | .gstat => .none
  | .flags => .none
  | .pins => .none
  | .capXctrl => .none
  | .capXstat => .none
  | .capMeas => .none
  | .capFrames => .none
  | .capWd => .none
  | .genXctrl => .none
  | .genXstat => .none
  | .genMeas => .none
  | .genFrames => .none
  | .genXcfg => .none
  | .prog _ _ => .none
  | .ctrl _ => .none
  | .status _ => .none
  | .config _ => .none
  | .regX _ => .none
  | .regY _ => .none
  | .regSr _ => .none
  | .regRem _ => .none
  | .ltEntry _ _ => .none
  | .ltCtrl _ => .none
  | .capWindow _ => .none
  | .genWindow _ => .none

/-- What the host's access of this cycle asks of the machine (R61, R66). -/
def State.busCmd (s : State) : BusCmd :=
  match s.input.host with
  | .idle => .none
  | .read a =>
    match decodeAddr s.params a with
    | none => .refused
    | some t =>
      match s.readTarget t with
      | none => .refused
      | some _ => readEffect t
  | .write a d =>
    match decodeAddr s.params a with
    | none => .refused
    | some t => s.writeTarget d t

/-- The data the bus returns in this cycle: a refused read returns 0 (R66). -/
def State.busReadData (s : State) : Option Word :=
  match s.input.host with
  | .idle => none
  | .write _ _ => none
  | .read a =>
    match decodeAddr s.params a with
    | none => some 0
    | some t => some ((s.readTarget t).getD 0)

/-! ### The command of the cycle, as each agent sees it -/

/-- The host flushes the FIFO of an engine (R103). -/
def BusCmd.flushes (c : BusCmd) (e : EngineId) : Bool :=
  match c with
  | .ctrl e' _ _ _ _ flush => decide (e' = e) && flush
  | _ => false

/-- The host writes `START` to an engine (R103). -/
def BusCmd.starts (c : BusCmd) (e : EngineId) : Bool :=
  match c with
  | .ctrl e' start _ _ _ _ => decide (e' = e) && start
  | _ => false

/-- The host writes `RESTART` to an engine (R103). -/
def BusCmd.restarts (c : BusCmd) (e : EngineId) : Bool :=
  match c with
  | .ctrl e' _ restart _ _ _ => decide (e' = e) && restart
  | _ => false

/-- The host writes `CLR_RX_STALL` to an engine (R103). -/
def BusCmd.clearsRx (c : BusCmd) (e : EngineId) : Bool :=
  match c with
  | .ctrl e' _ _ clrRx _ _ => decide (e' = e) && clrRx
  | _ => false

/-- The host writes `CLR_TX_STALL` to an engine (R103). -/
def BusCmd.clearsTx (c : BusCmd) (e : EngineId) : Bool :=
  match c with
  | .ctrl e' _ _ _ clrTx _ => decide (e' = e) && clrTx
  | _ => false

/-- The host pops the FIFO of an engine. -/
def BusCmd.pops (c : BusCmd) (e : EngineId) : Bool :=
  match c with
  | .pop e' => decide (e' = e)
  | _ => false

/-- The word the host pushes to the FIFO of an engine. -/
def BusCmd.pushes (c : BusCmd) (e : EngineId) : Option Word :=
  match c with
  | .push e' d => if e' = e then some d else Option.none
  | _ => Option.none

/-- `PROG` of an engine after the cycle (R64). -/
def BusCmd.nextProg (c : BusCmd) (e : EngineId) (p : Vector OpWord 32) : Vector OpWord 32 :=
  match c with
  | .prog e' slot w => if e' = e then p.set slot.toNat w slot.isLt else p
  | _ => p

/-- `CONFIG` of an engine after the cycle (R65). -/
def BusCmd.nextConfig (c : BusCmd) (e : EngineId) (g : EngineConfig) : EngineConfig :=
  match c with
  | .config e' g' => if e' = e then g' else g
  | _ => g

/-- The LUT after the cycle (R62). -/
def BusCmd.nextLut (c : BusCmd) (l : Vector Word 32) : Vector Word 32 :=
  match c with
  | .lut k d => l.set k.toNat d k.isLt
  | _ => l

end Sys2Proof.Machine
end

