-- ==== Sys2Proof/Machine/Exchange.lean ====
section
/-!
DEFINITION. The agents beside the engines and the host, each as a function of the pre-cycle state and
the command of the cycle: capture mover and feeder (45 R220, R228), frame boundaries (R222, R230), the
handshakes (R219 to R232), watchdog (60 R244), recoveries (R245, R246), period meters (45 R233),
loop-table players (44 R198, R199).
-/

namespace Sys2Proof.Machine

/-- `FW = min(max(LUT[25], 1), BANK_WORDS)` (R220). -/
def State.frameWords (s : State) : Nat :=
  min (max (s.lutAt idxFrameWords).toNat 1) s.params.bankWords

/-- The FIFO of an engine is flushed in this cycle: by the host or by a recovery (R138, R245, R246). -/
def State.flushed (s : State) (e : EngineId) : Bool :=
  s.busCmd.flushes e ||
  match e with
  | .cap => s.capRecovery
  | .gen => s.genRecovery
  | .hs => false
  | .vs => false

/-! ### Capture mover and watchdog -/

/-- The word the capture mover moves in this cycle (R220). -/
def State.moverWord (s : State) : Option Word :=
  let en := s.engine .cap
  if !s.capRecovery && decide (s.cap.x = .transferring) && decide (en.config.dir = .rx) &&
      !s.flushed .cap
  then en.fifo.head? else none

/-- The mover moves a word in this cycle. -/
def State.moverActs (s : State) : Bool := s.moverWord.isSome

/-- The word is the last of its frame: a capture frame boundary (R220, R222). -/
def State.capBoundary (s : State) : Bool :=
  s.moverActs && decide (s.frameWords ≤ s.cap.ptr.toNat + 1)

/-- `ARM` takes effect in this cycle (R219). -/
def State.armed (s : State) : Bool := decide (s.busCmd = .arm)

/-- The value loaded into the watchdog in this cycle, if any (R244). -/
def State.watchdogLoad (s : State) : Option Word :=
  if s.armed then some (s.lutAt idxArmWindow)
  else if s.moverActs && !s.capBoundary && decide (s.cap.ptr = 0) then
    some (s.lutAt idxFrameWindow)
  else none

/-- The watchdog counts in this cycle (R244). -/
def State.watchdogCounts (s : State) : Bool :=
  decide (s.cap.x = .transferring) && s.cap.wdOn && s.watchdogLoad.isNone && !s.capBoundary &&
    !s.capRecovery

/-- The watchdog times out: it sets `rx_stall` of engine 0 (R244). -/
def State.watchdogTimeout (s : State) : Bool := s.watchdogCounts && decide (s.cap.wdCtr = 0)

/-- A meter's counter plus one, saturating at 2^32 - 1 (R233). -/
def meterTick (c : Word) : Word := if c = BitVec.allOnes 32 then c else c + 1

/-- `cx` after the cycle (R219, R222, R223, R245). -/
def State.nextCx (s : State) : XState :=
  if s.capRecovery then (if s.cap.x = .transferring then .idle else s.cap.x)
  else if s.armed then .transferring
  else if s.busCmd = .capTake then .idle
  else if s.capBoundary then .settled
  else s.cap.x

/-- `wptr` after the cycle (R219, R220, R222, R245). -/
def State.nextWptr (s : State) : BitVec 16 :=
  if s.capRecovery then 0
  else if s.armed then 0
  else if s.moverActs && !s.capBoundary then s.cap.ptr + 1
  else s.cap.ptr

/-- `wd_on` after the cycle (R244, R245). -/
def State.nextWdOn (s : State) : Bool :=
  if s.capRecovery || s.capBoundary then false
  else match s.watchdogLoad with
    | some w => decide (w ≠ 0)
    | none => s.cap.wdOn

/-- `wd_ctr` after the cycle (R244): loaded, counted down, or held. -/
def State.nextWdCtr (s : State) : Word :=
  match s.watchdogLoad with
  | some w => if w = 0 then s.cap.wdCtr else w
  | none =>
    if s.watchdogCounts && !s.watchdogTimeout then s.cap.wdCtr - 1 else s.cap.wdCtr

/-- The capture banks after the mover's write to the bank in flight (R220). -/
def State.moverWrites (s : State) : CaptureSide :=
  match s.moverWord with
  | some w => s.cap.writeWord s.cap.sel s.cap.ptr.toNat w
  | none => s.cap

/-- The capture side after the cycle. -/
def State.nextCapture (s : State) : CaptureSide :=
  { s.moverWrites with
    sel := if s.capBoundary then !s.cap.sel else s.cap.sel
    x := s.nextCx
    buf := if s.armed then s.cap.sel else s.cap.buf
    ptr := s.nextWptr
    wdOn := s.nextWdOn
    wdCtr := s.nextWdCtr
    frames := if s.capBoundary then s.cap.frames + 1 else s.cap.frames
    meas := if s.capBoundary then meterTick s.cap.measCtr else s.cap.meas
    measCtr := if s.capBoundary then 0 else meterTick s.cap.measCtr }

/-! ### Generation feeder -/

/-- The word the feeder pushes in this cycle (R228). -/
def State.feederWord (s : State) : Option Word :=
  let en := s.engine .gen
  if !s.genRecovery && s.gen.feedEn && decide (en.config.dir = .tx) &&
      decide (en.fifo.length < s.params.fifoDepth) && !s.flushed .gen
  then some (s.gbankWord s.gen.sel s.gen.ptr.toNat) else none

/-- The feeder pushes a word in this cycle. -/
def State.feederActs (s : State) : Bool := s.feederWord.isSome

/-- The word is the last of its frame: a generation frame boundary (R228, R230). -/
def State.genBoundary (s : State) : Bool :=
  s.feederActs && decide (s.frameWords ≤ s.gen.ptr.toNat + 1)

/-- A committed frame is swapped in at this boundary (R230). DEDUCED (log 20): in single-buffer mode
too, when the frame was committed before `single` was set (R229). -/
def State.genSwap (s : State) : Bool := s.genBoundary && decide (s.gen.x = .transferring)

/-- The host's `GEN_XCFG` write of this cycle enables the feeder (R232). -/
def State.enablesFeeder (s : State) : Bool :=
  match s.busCmd with
  | .genXcfg feedEn _ => feedEn && !s.gen.feedEn
  | _ => false

/-- `gx` after the cycle (R227, R230, R231). -/
def State.nextGx (s : State) : XState :=
  if s.busCmd = .commitFrame then .transferring
  else if s.busCmd = .genTake then .idle
  else if s.genSwap then .settled
  else s.gen.x

/-- `rptr` after the cycle (R228, R232, R246). -/
def State.nextRptr (s : State) : BitVec 16 :=
  if s.genRecovery then 0
  else if s.enablesFeeder then 0
  else if s.genBoundary then 0
  else if s.feederActs then s.gen.ptr + 1
  else s.gen.ptr

/-- The generation banks after the host's write through its window (R69). -/
def State.windowWrites (s : State) : GenSide :=
  match s.busCmd with
  | .genWindow i d => s.gen.writeWord s.gen.windowBank i d
  | _ => s.gen

/-- `feed_en` after the cycle (R232). -/
def State.nextFeedEn (s : State) : Bool :=
  match s.busCmd with
  | .genXcfg feedEn _ => feedEn
  | _ => s.gen.feedEn

/-- `single` after the cycle (R232). -/
def State.nextSingle (s : State) : Bool :=
  match s.busCmd with
  | .genXcfg _ single => single
  | _ => s.gen.single

/-- The generation side after the cycle. -/
def State.nextGeneration (s : State) : GenSide :=
  { s.windowWrites with
    sel := if s.genSwap then !s.gen.sel else s.gen.sel
    x := s.nextGx
    buf := if s.busCmd = .commitFrame then !s.gen.sel else s.gen.buf
    ptr := s.nextRptr
    feedEn := s.nextFeedEn
    single := s.nextSingle
    frames := if s.genBoundary then s.gen.frames + 1 else s.gen.frames
    meas := if s.genBoundary then meterTick s.gen.measCtr else s.gen.meas
    measCtr := if s.genBoundary then 0 else meterTick s.gen.measCtr }

/-! ### Loop-table players -/

/-- The engine a player feeds (R198). -/
def playerEngine : SyncGen → EngineId
  | .h => .hs
  | .v => .vs

/-- The host writes `LT_CTRL[g]` in this cycle and the write is accepted (R199; log 8). -/
def BusCmd.controls (c : BusCmd) (g : SyncGen) : Bool :=
  match c with
  | .ltCtrl g' _ _ => decide (g' = g)
  | _ => false

/-- The entry a player pushes in this cycle (R198). -/
def State.playerWord (s : State) (g : SyncGen) : Option Word :=
  let en := s.engine (playerEngine g)
  let p := s.player g
  if p.armed && decide (en.config.dir = .tx) && decide (en.fifo.length < s.params.fifoDepth) &&
      !s.busCmd.controls g && !s.flushed (playerEngine g)
  then some (s.ltWord g p.idx.toNat) else none

/-- A player after its push, if it makes one: at the next entry, cyclically (R198). -/
def State.advancedPlayer (s : State) (g : SyncGen) : Player :=
  let p := s.player g
  match s.playerWord g with
  | some _ => { p with idx := BitVec.ofNat 4 ((p.idx.toNat + 1) % p.len.toNat) }
  | none => p

/-- A loop table and its player after the cycle (R67, R198, R199). -/
def State.nextPlayer (s : State) (g : SyncGen) : Player :=
  let p := s.player g
  let q := s.advancedPlayer g
  match s.busCmd with
  | .ltEntry g' i d =>
    if g' = g then { q with mem := Memory.writeWord p.mem i.toNat d } else q
  | .ltCtrl g' len armed => if g' = g then { p with len := len, armed := armed, idx := 0 } else q
  | _ => q

end Sys2Proof.Machine
end

