-- ==== Sys2Proof/Machine/Cycle.lean ====
section
/-!
DEFINITION. One clock cycle (00_scope R8): every agent reads the pre-cycle state and the inputs of the
cycle, and all writes are merged by 60 R262. The cycle takes the meaning of a word as an argument, so
that Step.lean only ties it to `exec`.
-/

namespace Sys2Proof.Machine

/-- The meaning of a word. -/
abbrev Meaning := Instr → State → Host.Outcome State Fault Refusal

/-! ### The turn of one engine (R120) -/

/-- What an engine's turn leaves: its own registers, and its requests of shared state. -/
structure Turn where
  eng : Engine
  req : Requests
deriving DecidableEq, Repr

/-- `START` takes effect on an engine in this cycle: only on a stopped one (R136). -/
def State.startsEngine (s : State) (e : EngineId) : Bool := s.busCmd.starts e && !(s.engine e).run

/-- A restart applies to an engine in this cycle (R120 b). -/
def State.restartsEngine (s : State) (e : EngineId) : Bool :=
  s.busCmd.restarts e || s.startsEngine e ||
  match e with
  | .cap => s.capRecovery
  | .gen => s.genRecovery
  | .hs => false
  | .vs => false

/-- What an engine does in a cycle without reset (R120 b to e). -/
inductive Activity
  | restarted
  | stopped
  | delaying
  | evaluating
deriving DecidableEq, Repr

/-- R120, tested in its order. -/
def State.activity (s : State) (e : EngineId) : Activity :=
  let en := s.engine e
  if s.restartsEngine e then .restarted
  else if en.run = false ∨ en.fault ≠ none then .stopped
  else if en.dly ≠ 0 then .delaying
  else .evaluating

/-- The word an engine evaluates next (R120 e). -/
def fetch (en : Engine) : OpWord := en.prog[en.pc.toNat]'en.pc.isLt

/-- The evaluation of the fetched word: an illegal word is a fault of the engine (R122 check 1). -/
def evaluateFetched (ex : Meaning) (s : State) (e : EngineId) :
    Host.Outcome State Fault Refusal :=
  match decode (fetch (s.engine e)) with
  | .illegal _ => .next (raiseFault .illegalEncoding ((s.focus e).setReq Requests.none))
  | .legal i => ex i (s.focus e)

/-- The turn of an engine. -/
def State.turn (ex : Meaning) (s : State) (e : EngineId) : Host.Outcome Turn Fault Refusal :=
  let en := s.engine e
  match s.activity e with
  | .restarted => .next { eng := restartEngine en, req := Requests.none }
  | .stopped => .next { eng := en, req := Requests.none }
  | .delaying => .next { eng := { en with dly := en.dly - 1 }, req := Requests.none }
  | .evaluating =>
    match evaluateFetched ex s e with
    | .next t => .next { eng := t.engine e, req := t.req }
    | .fault r => .fault r
    | .refused r => .refused r

/-- The four turns of a cycle. -/
structure Turns where
  cap : Turn
  gen : Turn
  hs : Turn
  vs : Turn
deriving DecidableEq, Repr

/-- The turn of an engine. -/
def Turns.get (t : Turns) : EngineId → Turn
  | .cap => t.cap
  | .gen => t.gen
  | .hs => t.hs
  | .vs => t.vs

/-- The four turns, stopping at the first stop. -/
def State.turns (ex : Meaning) (s : State) : Host.Outcome Turns Fault Refusal :=
  match s.turn ex .cap with
  | .fault r => .fault r
  | .refused r => .refused r
  | .next a =>
    match s.turn ex .gen with
    | .fault r => .fault r
    | .refused r => .refused r
    | .next b =>
      match s.turn ex .hs with
      | .fault r => .fault r
      | .refused r => .refused r
      | .next c =>
        match s.turn ex .vs with
        | .fault r => .fault r
        | .refused r => .refused r
        | .next d => .next { cap := a, gen := b, hs := c, vs := d }

/-! ### The merge (R262) -/

/-- A fixed-function agent pops the FIFO of an engine: the mover, engine 0 (R220). -/
def State.agentPops (s : State) : EngineId → Bool
  | .cap => s.moverActs
  | .gen => false
  | .hs => false
  | .vs => false

/-- The word a fixed-function agent pushes to the FIFO of an engine (R198, R228). -/
def State.agentPush (s : State) : EngineId → Option Word
  | .cap => none
  | .gen => s.feederWord
  | .hs => s.playerWord .h
  | .vs => s.playerWord .v

/-- `rx_stall` is cleared by the host or by the recovery it causes (R30, R138, R245). -/
def State.clearsRx (s : State) (e : EngineId) : Bool :=
  s.busCmd.clearsRx e || (decide (e = .cap) && s.capRecovery)

/-- `tx_stall` is cleared by the host or by the recovery it causes (R30, R138, R246). -/
def State.clearsTx (s : State) (e : EngineId) : Bool :=
  s.busCmd.clearsTx e || (decide (e = .gen) && s.genRecovery)

/-- Engine `e` after the cycle: its own registers from its turn, the rest merged (R262). -/
def State.nextEngine (s : State) (e : EngineId) (t : Turn) : Engine :=
  let en := s.engine e
  { t.eng with
    prog := s.busCmd.nextProg e en.prog
    config := s.busCmd.nextConfig e en.config
    run := en.run || s.startsEngine e
    rxStall := resolveSticky en.rxStall
      (t.req.rxStall || (decide (e = .cap) && s.watchdogTimeout)) (s.clearsRx e)
    txStall := resolveSticky en.txStall t.req.txStall (s.clearsTx e)
    fifo := nextFifo (s.flushed e) (t.req.pop || s.agentPops e || s.busCmd.pops e)
      (t.req.push <|> s.agentPush e <|> s.busCmd.pushes e) en.fifo }

/-- The output registers after the cycle: the highest engine index wins (R21, R262). -/
def Turns.drive (t : Turns) (o : OutPins) : OutPins :=
  t.vs.req.drive (t.hs.req.drive (t.gen.req.drive (t.cap.req.drive o)))

/-- The flags after the cycle (R23, R262). -/
def Turns.flags (t : Turns) (f : BitVec 4) : BitVec 4 :=
  resolveFlags f
    (t.cap.req.flagSet ||| t.gen.req.flagSet ||| t.hs.req.flagSet ||| t.vs.req.flagSet)
    (t.cap.req.flagClr ||| t.gen.req.flagClr ||| t.hs.req.flagClr ||| t.vs.req.flagClr)

/-- One increment of `err`, saturating (R248). -/
def errTick (b : Bool) (e : BitVec 64) : BitVec 64 :=
  if b && decide (e ≠ BitVec.allOnes 64) then e + 1 else e

/-- `err` after the cycle: one increment per recovery (R245, R246, R248). -/
def State.nextErr (s : State) : BitVec 64 := errTick s.genRecovery (errTick s.capRecovery s.err)

/-- The host clears `bus_err`, `cap_evt`, `gen_evt` in this cycle (R63). -/
def BusCmd.eventClears (c : BusCmd) : Bool × Bool × Bool :=
  match c with
  | .clearEvents a b d => (a, b, d)
  | _ => (false, false, false)

/-- The state at the start of the next cycle, from the pre-cycle state and the four turns. -/
def State.merge (s : State) (t : Turns) : State :=
  let c := s.busCmd
  { s with
    stim := s.stim.tail
    cycle := s.cycle + 1
    req := Requests.none
    busData := s.busReadData
    out := t.drive s.out
    edgeCap := s.edgeNext .cap
    edgeGen := s.edgeNext .gen
    flags := t.flags s.flags
    lut := c.nextLut s.lut
    eng :=
      { cap := s.nextEngine .cap t.cap, gen := s.nextEngine .gen t.gen
        hs := s.nextEngine .hs t.hs, vs := s.nextEngine .vs t.vs }
    cap := s.nextCapture
    gen := s.nextGeneration
    playerH := s.nextPlayer .h
    playerV := s.nextPlayer .v
    err := s.nextErr
    busErr := resolveSticky s.busErr (decide (c = .refused)) c.eventClears.1
    capEvt := resolveSticky s.capEvt s.capRecovery c.eventClears.2.1
    genEvt := resolveSticky s.genEvt s.genRecovery c.eventClears.2.2 }

/-- The state after a cycle with `rst = 1` (R58, R59): the reset state, whatever else happened; the
memories are not changed (log 10), and the model's own fields go on. -/
def State.resetCycle (s : State) : State :=
  { State.reset with
    params := s.params
    stim := s.stim.tail
    cycle := s.cycle + 1
    cur := s.cur
    busData := s.busReadData
    cap := resetCapture s.cap.bank0 s.cap.bank1
    gen := resetGeneration s.gen.bank0 s.gen.bank1
    playerH := resetPlayer s.playerH.mem
    playerV := resetPlayer s.playerV.mem }

/-- An agent would reach outside its bank in this cycle (log 12). -/
def State.bankFault (s : State) : Option Fault :=
  if s.moverActs ∧ s.params.bankWords ≤ s.cap.ptr.toNat then some .captureBankIndex
  else if s.feederActs ∧ s.params.bankWords ≤ s.gen.ptr.toNat then some .generationBankIndex
  else none

/-- One clock cycle. -/
def cycleWith (ex : Meaning) (s : State) : Host.Outcome State Fault Refusal :=
  if s.input.rst then .next s.resetCycle
  else
    match s.turns ex with
    | .fault r => .fault r
    | .refused r => .refused r
    | .next t =>
      match s.bankFault with
      | some f => .fault f
      | none => .next (s.merge t)

/-! ### Placing a word where the next cycle runs it -/

/-- The engine whose reset `CONFIG` lets it run a word (R9, R122): `IN` needs the receiver, `OUT` and
`SETO PIX` the engine that drives the pixel pin, the others run on `E_HS`, which has a side pin. -/
def engineForWord (w : OpWord) : EngineId :=
  match decode w with
  | .illegal _ => .hs
  | .legal i =>
    match i with
    | .shiftIn _ _ _ => .cap
    | .shiftOut _ _ _ => .gen
    | .seto _ _ .pix _ => .gen
    | .seto _ _ .pin _ => .hs
    | .seto _ _ (.flag _) _ => .hs
    | .jmp _ _ _ _ => .hs
    | .wait _ _ _ _ _ => .hs
    | .getX _ _ _ => .hs
    | .getY _ _ _ => .hs
    | .getExec _ _ => .hs
    | .load _ _ _ _ => .hs
    | .nop _ _ => .hs

/-- An engine that evaluates a word in the next cycle: the word stands in the slot of its `pc`, it runs,
and nothing makes it fault, idle or recover (R120). -/
def armEngine (w : OpWord) (en : Engine) : Engine :=
  { en with
    prog := en.prog.set en.pc.toNat w en.pc.isLt
    run := true
    fault := none
    dly := 0
    rxStall := false
    txStall := false }

/-- A word placed so that the next cycle evaluates it: a quiet input is put before the stimulus, so
that the cycle has no reset and no host access. -/
def State.placeWord (s : State) (w : OpWord) : State :=
  let e := engineForWord w
  { s.setEngine e (armEngine w (s.engine e)) with stim := Input.quiet :: s.stim }

end Sys2Proof.Machine
end

