-- ==== Sys2Proof/Machine/Packer.lean ====
section
/-!
DEFINITION. The serial_parallel_pixel_packer: how `IN`, `OUT` and `GET` move bits through `SR` and
`cnt` (41 R127 to R131, R140).
-/

namespace Sys2Proof.Machine

/-- `{SR[30:0], bit}` (R28). -/
def shiftInto (sr : Word) (bit : Bool) : Word := (sr <<< 1) ||| (BitVec.ofBool bit).setWidth 32

/-- Auto-delivery (R128): pushed if the pre-cycle level leaves room, else dropped with `rx_stall`. -/
def deliver (w : Word) (s : State) : State :=
  if s.me.fifo.length < s.params.fifoDepth then requestPush w s else requestRxStall s

/-- One sample of `IN` (R127). -/
def sampleBit (bit : Bool) (s : State) : State :=
  let w := shiftInto s.me.sr bit
  if s.me.cnt + 1 = 32 then deliver w (s.mapMe fun en => { en with sr := 0, cnt := 0 })
  else s.mapMe fun en => { en with sr := w, cnt := en.cnt + 1 }

/-- The end of a transfer's evaluation cycle (R127, R129): `rem <- r - 1`, complete when it is 0. -/
def advanceTransfer (r : Word) (dly : BitVec 3) (s : State) : State :=
  let t := s.mapMe fun en => { en with rem := r - 1 }
  if r - 1 = 0 then complete dly t else t

/-- The bits a TX engine can take in this cycle: the word they are at the top of, how many there are,
and whether they are the head of the FIFO. -/
structure Supply where
  word : Word
  cnt : BitVec 6
  refill : Bool
deriving DecidableEq, Repr

/-- R130: the shift register, or the head of the FIFO when it is empty; none when both are. -/
def supply (en : Engine) : Option Supply :=
  if en.cnt = 0 then
    match en.fifo with
    | [] => none
    | w :: _ => some { word := w, cnt := 32, refill := true }
  else some { word := en.sr, cnt := en.cnt, refill := false }

/-- The `n` most significant bits, `1 ≤ n ≤ 32`, zero-extended (R131). -/
def topBits (w : Word) (n : Nat) : Word := w >>> (32 - n)

/-- `n` bits taken from a supply (R129, R131): a refill pops the FIFO. -/
def takeBits (u : Supply) (n : Nat) (s : State) : State :=
  let t := s.mapMe fun en =>
    { en with sr := u.word <<< n, cnt := u.cnt - BitVec.ofNat 6 n }
  if u.refill then requestPop t else t

/-- R131: `n > c` with a supply there: a field never spans two FIFO words. -/
def fieldUnderflow (en : Engine) (n : Nat) : Bool :=
  match supply en with
  | some u => decide (u.cnt.toNat < n)
  | none => false

end Sys2Proof.Machine
end

