-- ==== Sys2Proof/Machine/Control.lean ====
section
/-!
DEFINITION. The meanings of `JMP`, `WAIT` and `NOP` (41 R125, R126, R135).
-/

namespace Sys2Proof.Machine

/-- `JMP cond, target` (R125). -/
def execJmp (side : Side) (dly : BitVec 3) (cond : Cond) (target : Slot) (s : State) :
    Host.Outcome State Fault Refusal :=
  evaluate (checkWord side none false s.me.config)
    (fun t =>
      completeAt (if jumpTaken t cond then target else t.me.pc + 1) dly
        (decrementFor cond (sideAction side t)))
    s

/-- The checks of a `WAIT`: a `consume` that R95 does not allow is an illegal word (R101). -/
def checkWait (side : Side) (dly : BitVec 3) (level : Bool) (src : WaitSrc) (consume : Bool)
    (c : EngineConfig) : Option EngineFault :=
  if (Instr.wait side dly level src consume).wellFormed then checkWord side none false c
  else some .illegalEncoding

/-- The clear that a consuming `WAIT` requests when it completes (R126). -/
def consumeFlag (src : WaitSrc) (consume : Bool) (s : State) : State :=
  match consume, src with
  | true, .flag k => requestFlag k false s
  | true, .pix => s
  | true, .hs => s
  | true, .vs => s
  | true, .hsFall => s
  | true, .hsRise => s
  | true, .vsFall => s
  | true, .vsRise => s
  | false, _ => s

/-- `WAIT level, src [, consume]` (R126). -/
def execWait (side : Side) (dly : BitVec 3) (level : Bool) (src : WaitSrc) (consume : Bool)
    (s : State) : Host.Outcome State Fault Refusal :=
  evaluate (checkWait side dly level src consume s.me.config)
    (fun t =>
      if waitValue t src = level then complete dly (consumeFlag src consume (sideAction side t))
      else sideAction side t)
    s

/-- `NOP` (R135). -/
def execNop (side : Side) (dly : BitVec 3) (s : State) : Host.Outcome State Fault Refusal :=
  evaluate (checkWord side none false s.me.config)
    (fun t => complete dly (sideAction side t))
    s

end Sys2Proof.Machine
end

