-- ==== Sys2Proof/Machine/Get.lean ====
section
/-!
DEFINITION. The meanings of `GET X`, `GET Y` and `GET EXEC` (41 R130 to R132).
-/

namespace Sys2Proof.Machine

/-- The checks of `GET` of `n` bits (R122, R131): direction, pins, then the field's underflow. -/
def checkGet (side : Side) (n : Nat) (en : Engine) : Option EngineFault :=
  match checkWord side (some .tx) false en.config with
  | some f => some f
  | none => if fieldUnderflow en n then some .fieldUnderflow else none

/-- `GET` of `n` bits into a counter (R131): held with `tx_stall` when there is no word. -/
def getField (side : Side) (dly : BitVec 3) (n : Nat) (store : Word → Engine → Engine)
    (s : State) : Host.Outcome State Fault Refusal :=
  evaluate (checkGet side n s.me)
    (fun t =>
      match supply t.me with
      | none => requestTxStall (sideAction side t)
      | some u =>
        complete dly
          ((takeBits u n (sideAction side t)).mapMe (store (topBits u.word n))))
    s

/-- `GET X, n` with `n = m + 1` (R97, R131). -/
def execGetX (side : Side) (dly : BitVec 3) (m : BitVec 5) (s : State) :
    Host.Outcome State Fault Refusal :=
  getField side dly (m.toNat + 1) (fun v en => { en with x := v }) s

/-- `GET Y, n` with `n = m + 1` (R97, R131). -/
def execGetY (side : Side) (dly : BitVec 3) (m : BitVec 5) (s : State) :
    Host.Outcome State Fault Refusal :=
  getField side dly (m.toNat + 1) (fun v en => { en with y := v }) s

/-- A word that `GET EXEC` may execute (R132): a `SETO`, or a `NOP`, which sets nothing. -/
structure Executable where
  side : Side
  dly : BitVec 3
  set : Option (SetTarget × Bool)
deriving DecidableEq, Repr

/-- R132: only `SETO` and `NOP` may be executed. -/
def executable : Instr → Option Executable
  | .seto side dly target v => some { side := side, dly := dly, set := some (target, v) }
  | .nop side dly => some { side := side, dly := dly, set := none }
  | .jmp _ _ _ _ => none
  | .wait _ _ _ _ _ => none
  | .shiftIn _ _ _ => none
  | .shiftOut _ _ _ => none
  | .getX _ _ _ => none
  | .getY _ _ _ => none
  | .getExec _ _ => none
  | .load _ _ _ _ => none

/-- The executed word, or the fault of R132's checks in their order. -/
def readExecutable (c : EngineConfig) (field : OpWord) : Except EngineFault Executable :=
  match decode field with
  | .illegal _ => .error .illegalEncoding
  | .legal i =>
    match executable i with
    | none => .error .execNotAllowed
    | some x =>
      match checkWord x.side none (x.set.any fun p => targetPinMissing c p.1) c with
      | some f => .error f
      | none => .ok x

/-- The 16-bit field of `GET EXEC` in a supply. -/
def execField (u : Supply) : OpWord := (topBits u.word 16).setWidth 16

/-- The checks of `GET EXEC` (R122, R131, R132). -/
def checkExec (side : Side) (en : Engine) : Option EngineFault :=
  match checkGet side 16 en with
  | some f => some f
  | none =>
    match supply en with
    | none => none
    | some u =>
      match readExecutable en.config (execField u) with
      | .error f => some f
      | .ok _ => none

/-- What the executed word does (R132, R133): its side action, then its `SETO`, then the completion of
the `GET` with the executed word's delay. -/
def runExecutable (x : Executable) (s : State) : State :=
  let t := sideAction x.side s
  complete x.dly
    (match x.set with
     | some (target, v) => setTarget target v t
     | none => t)

/-- `GET EXEC, 16` (R132); the word's own `dly` field is ignored once the field is executed. -/
def execGetExec (side : Side) (_dly : BitVec 3) (s : State) : Host.Outcome State Fault Refusal :=
  evaluate (checkExec side s.me)
    (fun t =>
      match supply t.me with
      | none => requestTxStall (sideAction side t)
      | some u =>
        match readExecutable t.me.config (execField u) with
        | .error f => raiseFault f t
        | .ok x => runExecutable x (sideAction side (takeBits u 16 t)))
    s

end Sys2Proof.Machine
end

