-- ==== Sys2Proof/Machine/Output.lean ====
section
/-!
DEFINITION. The meanings of `SETO` (41 R133) and `LOAD` (R134).
-/

namespace Sys2Proof.Machine

/-- `SETO target, value` (R133): it overrides the word's own side action on the same pin (R123). -/
def execSeto (side : Side) (dly : BitVec 3) (target : SetTarget) (value : Bool) (s : State) :
    Host.Outcome State Fault Refusal :=
  evaluate (checkWord side none (targetPinMissing s.me.config target) s.me.config)
    (fun t => complete dly (setTarget target value (sideAction side t)))
    s

/-- The counter of a `LOAD` written. -/
def storeCounter (dest : Dest) (v : Word) (en : Engine) : Engine :=
  match dest with
  | .x => { en with x := v }
  | .y => { en with y := v }

/-- `LOAD X|Y, LUT[k]` / `LOAD X|Y, #v` (R134). -/
def execLoad (side : Side) (dly : BitVec 3) (dest : Dest) (src : LoadSrc) (s : State) :
    Host.Outcome State Fault Refusal :=
  evaluate (checkWord side none false s.me.config)
    (fun t => complete dly ((sideAction side t).mapMe (storeCounter dest (loadValue t src))))
    s

end Sys2Proof.Machine
end

