-- ==== Sys2Proof/Machine/Shift.lean ====
section
/-!
DEFINITION. The meanings of `IN` and `OUT` (41 R127 to R130). One call is one evaluation cycle of the
word; `rem` carries a transfer from cycle to cycle.
-/

namespace Sys2Proof.Machine

/-- `IN n` / `IN LUT[k]` (R127, R128). -/
def execShiftIn (side : Side) (dly : BitVec 3) (count : Count) (s : State) :
    Host.Outcome State Fault Refusal :=
  evaluate (checkWord side (some .rx) false s.me.config)
    (fun t =>
      let r := bitsLeft t count
      if r = 0 then complete dly (sideAction side t)
      else
        advanceTransfer r dly
          (sampleBit (Input.pix t.input t.me.config.bank) (sideAction side t)))
    s

/-- `OUT n` / `OUT LUT[k]` (R129, R130). -/
def execShiftOut (side : Side) (dly : BitVec 3) (count : Count) (s : State) :
    Host.Outcome State Fault Refusal :=
  evaluate (checkWord side (some .tx) (!s.me.config.pixDrv) s.me.config)
    (fun t =>
      let r := bitsLeft t count
      if r = 0 then complete dly (sideAction side t)
      else
        match supply t.me with
        | none => requestTxStall (sideAction side t)
        | some u =>
          advanceTransfer r dly (writePix u.word.msb (takeBits u 1 (sideAction side t))))
    s

end Sys2Proof.Machine
end

