-- ==== Sys2Proof/Machine/Dispatch.lean ====
section
/-!
DEFINITION. The dispatch of an instruction to its meaning. `exec i s` is one evaluation cycle of word
`i` by engine `s.cur` (log 7).
-/

namespace Sys2Proof.Machine

def exec (i : Instr) (s : State) : Host.Outcome State Fault Refusal :=
  match i with
  | .jmp side dly cond target => Sys2Proof.Machine.execJmp side dly cond target s
  | .wait side dly level src consume => Sys2Proof.Machine.execWait side dly level src consume s
  | .shiftIn side dly count => Sys2Proof.Machine.execShiftIn side dly count s
  | .shiftOut side dly count => Sys2Proof.Machine.execShiftOut side dly count s
  | .getX side dly m => Sys2Proof.Machine.execGetX side dly m s
  | .getY side dly m => Sys2Proof.Machine.execGetY side dly m s
  | .getExec side dly => Sys2Proof.Machine.execGetExec side dly s
  | .seto side dly target value => Sys2Proof.Machine.execSeto side dly target value s
  | .load side dly dest src => Sys2Proof.Machine.execLoad side dly dest src s
  | .nop side dly => Sys2Proof.Machine.execNop side dly s

end Sys2Proof.Machine
end

