-- ==== Sys2Proof/Machine/Step.lean ====
section
/-!
DEFINITION. The step: one clock cycle of the whole machine (00_scope R8), with `exec` as the meaning of
the words its engines evaluate.
-/

namespace Sys2Proof.Machine

/-- One clock cycle. -/
def step (s : State) : Host.Outcome State Fault Refusal := cycleWith exec s

/-- The instruction of `nbits` bits `w` placed where `step` evaluates its next word (log 6). -/
def State.withFetchWord (s : State) (nbits w : Nat) : State :=
  s.placeWord (BitVec.ofNat 16 (w % 2 ^ nbits))

end Sys2Proof.Machine
end

