-- ==== Sys2Proof/Machine/FrameFormat.lean ====
section
/-!
DEFINITION. The frame-buffer format (20 R70), what a bank shows of its ownership (45 R235) and the
SyncState of the capture and generation engines (43 R167, 44 R187): functions of the state, not state
(R43).
-/

namespace Sys2Proof.Machine

/-! ### Frame format (R70) -/

/-- The linear index of pixel (x, y). -/
def pixelIndex (activeW x y : Nat) : Nat := y * activeW + x

/-- The word that holds a linear index. -/
def pixelWord (p : Nat) : Nat := p / 32

/-- The bit of that word, most significant first. -/
def pixelBit (p : Nat) : Nat := 31 - p % 32

/-- Pixel (x, y) of a frame given as its words. -/
def pixelOf (words : Nat → Word) (activeW x y : Nat) : Bool :=
  (words (pixelWord (pixelIndex activeW x y))).getLsbD (pixelBit (pixelIndex activeW x y))

/-- Words per frame (R10, R11). -/
def formatWords (activeW activeH : Nat) : Nat := activeW * activeH / 32

/-- Bytes per frame (R70). -/
def formatBytes (activeW activeH : Nat) : Nat := activeW * activeH / 8

/-- 32 pixels packed into a word, the first in bit 31 (R70). -/
def packPixels (bits : List Bool) : Word := bits.foldl (fun w b => (w <<< 1) ||| (BitVec.ofBool b).setWidth 32) 0

/-- The pixels of a word in time order, bit 31 first (R70). -/
def unpackPixels (w : Word) : List Bool := (List.range 32).map fun i => w.getLsbD (31 - i)

/-! ### Ownership of a bank (R235) -/

/-- The per-buffer status of R235. -/
inductive BankStatus
  | idle
  | transferring
  | settled
deriving DecidableEq, Repr

/-- The status of a capture bank (R235). -/
def State.captureBankStatus (s : State) (b : Bool) : BankStatus :=
  if b = s.cap.sel then (if s.cap.x = .transferring then .transferring else .idle) else .settled

/-- The status of a generation bank (R235). -/
def State.generationBankStatus (s : State) (b : Bool) : BankStatus :=
  if b = s.gen.sel then (if s.gen.feedEn then .transferring else .idle) else .settled

/-! ### SyncState -/

/-- Where a jump back leads (R167). -/
inductive LoopTarget
  /-- `JMP Y--`: to the wait for the next line. -/
  | hSyncWait
  /-- `JMP 0`: to the wait for the next frame. -/
  | awaitingVSync
deriving DecidableEq, Repr

/-- The source's SyncState (R16, R167, R187). The counts are what is still to pass. -/
inductive SyncState
  | awaitingVSync
  | vBackPorch (count : Nat)
  /-- R167 gives the lines still to capture, R187 gives no count. -/
  | hSyncWait (lines : Option Nat)
  | hBackPorch (count : Nat)
  | activeLine (pixels : Nat)
  /-- Slot 12 of GEN and GEN_IRQ. -/
  | blanking
  /-- A jump back. -/
  | loopBack (target : LoopTarget)
deriving DecidableEq, Repr

/-- The count `c + 1` of R167 and R187. DESIGN CHOICE (log 19): a natural number, which does not wrap
at 2^32. -/
def stillToPass (c : Word) : Nat := c.toNat + 1

/-- Bits still to sample in slot 11 of CAP: `rem`, or `LUT[15]` before the first sample (R167). -/
def State.samplesLeft (s : State) : Nat :=
  let r := (s.engine .cap).rem
  if r = 0 then (s.lutAt idxActiveWBits).toNat else r.toNat

/-- SyncState of `E_CAP` while it runs CAP (R167); slots 14 to 31 are not part of CAP. -/
def State.captureSyncState (s : State) : Option SyncState :=
  let en := s.engine .cap
  let p := en.pc.toNat
  if p ≤ 3 then some .awaitingVSync
  else if p = 4 then some (.vBackPorch (stillToPass (s.lutAt idxCapVbpCnt)))
  else if p ≤ 6 then some (.vBackPorch (stillToPass en.x))
  else if p = 7 then some (.hSyncWait (some (stillToPass (s.lutAt idxCapLinesCnt))))
  else if p = 8 then some (.hSyncWait (some (stillToPass en.y)))
  else if p ≤ 10 then some (.hBackPorch (stillToPass en.x))
  else if p = 11 then some (.activeLine s.samplesLeft)
  else if p = 12 then some (.loopBack .hSyncWait)
  else if p = 13 then some (.loopBack .awaitingVSync)
  else none

/-- SyncState of `E_GEN` while it runs GEN (R187): the counts are X + 1 and `rem` in every slot of their
range. -/
def State.generationSyncState (s : State) : Option SyncState :=
  let en := s.engine .gen
  let p := en.pc.toNat
  if p ≤ 3 then some .awaitingVSync
  else if p ≤ 6 then some (.vBackPorch (stillToPass en.x))
  else if p ≤ 8 then some (.hSyncWait none)
  else if p ≤ 10 then some (.hBackPorch (stillToPass en.x))
  else if p = 11 then some (.activeLine en.rem.toNat)
  else if p = 12 then some .blanking
  else if p = 13 then some (.loopBack .hSyncWait)
  else if p = 14 then some (.loopBack .awaitingVSync)
  else none

/-- SyncState of `E_GEN` while it runs GEN_IRQ (R187). -/
def State.generationIrqSyncState (s : State) : Option SyncState :=
  let en := s.engine .gen
  let p := en.pc.toNat
  if p ≤ 1 then some .awaitingVSync
  else if p ≤ 5 then some (.vBackPorch (stillToPass en.x))
  else if p ≤ 8 then some (.hSyncWait none)
  else if p ≤ 10 then some (.hBackPorch (stillToPass en.x))
  else if p = 11 then some (.activeLine en.rem.toNat)
  else if p = 12 then some .blanking
  else if p = 13 then some (.loopBack .hSyncWait)
  else if p = 14 then some (.loopBack .awaitingVSync)
  else none

end Sys2Proof.Machine
end

