-- ==== Sys2Proof/Machine/Timing.lean ====
section
/-!
DEFINITION. The Timing Calculator (42_timing_calculator): the pure function `compute` over exact
rationals (R150 to R155), the derived constants (R158, R159), and the words of the LUT it fills, with
the inputs it rejects (93 U13). No step calls it (R43).
-/

namespace Sys2Proof.Machine

/-- The counts of one axis: pixels for H, lines for V (R151). -/
structure Axis where
  front : Nat
  sync : Nat
  back : Nat
  active : Nat
deriving DecidableEq, Repr

/-- R151. -/
def Axis.total (a : Axis) : Nat := a.front + a.sync + a.back + a.active

/-- A `VideoMode` (R151). -/
structure VideoMode where
  /-- `pixel_clock_hz`, an exact positive rational. -/
  pixelClock : Rat
  h : Axis
  v : Axis
deriving DecidableEq, Repr

/-- The inputs R151 admits. -/
def VideoMode.valid (m : VideoMode) (engineClock : Rat) : Prop :=
  0 < m.pixelClock ∧ 0 < engineClock ∧ 0 < m.h.active ∧ 0 < m.v.active

/-- `rhe(n / d)`: the nearest integer, ties to the even one (R152). -/
def rheNat (n d : Nat) : Nat :=
  if 2 * (n % d) < d then n / d
  else if d < 2 * (n % d) then n / d + 1
  else if (n / d) % 2 = 0 then n / d else n / d + 1

/-- `rhe` of a non-negative rational (R152). -/
def rhe (q : Rat) : Nat := rheNat q.num.toNat q.den

/-- The result of `compute`: cycles for the H phases, lines and cycles for the V phases, and the
nanosecond values, which are returned and not stored (R153 to R155). -/
structure ResolvedTiming where
  hFront : Nat
  hSync : Nat
  hBack : Nat
  hActive : Nat
  hTotal : Nat
  vFrontLines : Nat
  vSyncLines : Nat
  vBackLines : Nat
  vActiveLines : Nat
  vTotalLines : Nat
  vFront : Nat
  vSync : Nat
  vBack : Nat
  vActive : Nat
  vTotal : Nat
  pixelPeriodNs : Rat
  hFrontNs : Rat
  hSyncNs : Rat
  hBackNs : Rat
  hActiveNs : Rat
deriving DecidableEq, Repr

/-- Engine cycles per pixel, `r` (R152). -/
def VideoMode.ratio (m : VideoMode) (engineClock : Rat) : Rat := engineClock / m.pixelClock

/-- `compute(mode, engine_clock_hz)` (R150). -/
def compute (m : VideoMode) (engineClock : Rat) : ResolvedTiming :=
  let r := m.ratio engineClock
  let line := rhe (m.h.total * r)
  let period := 1000000000 / m.pixelClock
  { hFront := rhe (m.h.front * r), hSync := rhe (m.h.sync * r), hBack := rhe (m.h.back * r),
    hActive := rhe (m.h.active * r), hTotal := line,
    vFrontLines := m.v.front, vSyncLines := m.v.sync, vBackLines := m.v.back,
    vActiveLines := m.v.active, vTotalLines := m.v.total,
    vFront := line * m.v.front, vSync := line * m.v.sync, vBack := line * m.v.back,
    vActive := line * m.v.active, vTotal := line * m.v.total,
    pixelPeriodNs := period, hFrontNs := m.h.front * period, hSyncNs := m.h.sync * period,
    hBackNs := m.h.back * period, hActiveNs := m.h.active * period }

/-- `CAP_HBP_ADJ` (R158). -/
def capHbpAdj : Nat := 3
/-- `GEN_HBP_ADJ` (R158). -/
def genHbpAdj : Nat := 4
/-- `AUX_H_ADJ` (R158, R201). -/
def auxHAdj : Nat := 4

/-- `D`: cycles from the hsync fall to the first active pixel (R158). -/
def ResolvedTiming.delay (t : ResolvedTiming) : Nat := t.hSync + t.hBack

/-- `FRAME_WINDOW_CYC` as recommended (R159). -/
def ResolvedTiming.frameWindow (t : ResolvedTiming) : Nat := t.vActiveLines * t.hTotal
/-- `ARM_WINDOW_CYC` as recommended (R159). -/
def ResolvedTiming.armWindow (t : ResolvedTiming) : Nat := 2 * t.vTotal

/-- A difference that must not be negative. -/
def subOrReject (a b : Nat) : Option Nat := if b ≤ a then some (a - b) else none

/-- The 32 constants as naturals (R157, R158), with the two watchdog windows given; none when a
counter would be negative (R160, 93 U13) or a frame is not a whole number of words (R11). -/
def lutNats (m : VideoMode) (engineClock : Rat) (vsLeads : Bool) (frameWindow armWindow : Nat) :
    Option (List Nat) := do
  let t := compute m engineClock
  let vbp ← subOrReject m.v.back (if vsLeads then 1 else 2)
  let lines ← subOrReject m.v.active 1
  let capHbp ← subOrReject t.delay capHbpAdj
  let genHbp ← subOrReject t.delay genHbpAdj
  if (m.h.active * m.v.active) % 32 ≠ 0 ∨ m.h.active * m.v.active = 0 then none
  else
    some [t.hFront, t.hSync, t.hBack, t.hActive, t.hTotal,
      t.vFrontLines, t.vSyncLines, t.vBackLines, t.vActiveLines, t.vTotalLines,
      t.vFront, t.vSync, t.vBack, t.vActive, t.vTotal,
      m.h.active, vbp, lines, capHbp, vbp, lines, genHbp, 0, frameWindow, armWindow,
      m.h.active * m.v.active / 32, 0, 0, 0, 0, 0, 0]

/-- The words to load, none when one does not fit 32 bits (R156, 93 U13). -/
def lutWords (m : VideoMode) (engineClock : Rat) (vsLeads : Bool) (frameWindow armWindow : Nat) :
    Option (List Word) :=
  match lutNats m engineClock vsLeads frameWindow armWindow with
  | none => none
  | some l => if l.all (fun n => decide (n < 2 ^ 32)) then some (l.map (BitVec.ofNat 32)) else none

/-- The reference mode of R157 at a pixel clock (which the spec leaves open, R10). -/
def referenceMode (pixelClock : Rat) : VideoMode :=
  { pixelClock := pixelClock, h := { front := 0, sync := 178, back := 0, active := 512 },
    v := { front := 0, sync := 4, back := 24, active := 342 } }

/-- The refresh rate the results imply (R161). DESIGN CHOICE (log 18): the spec states no value for a
frame of 0 cycles, so it is free there. -/
def impliedRefresh (m : VideoMode) (engineClock : Rat) : Rat :=
  let n := (compute m engineClock).vTotal
  if n = 0 then Config.refreshOfEmptyFrame engineClock else engineClock / (n : Rat)

/-- The nominal refresh rate (R161). -/
def nominalRefresh (m : VideoMode) : Rat := m.pixelClock / ((m.h.total * m.v.total : Nat) : Rat)

/-- `measured_frequency_hz()` as the host obtains it from a period meter (R164). DESIGN CHOICE (log 18):
the spec states no value for a meter of 0, which it is before the first boundary, so it is free there. -/
def measuredFrequency (engineClock : Rat) (meas : Word) : Rat :=
  if meas = 0 then Config.frequencyWithoutPeriod engineClock else engineClock / (meas.toNat : Rat)

end Sys2Proof.Machine
end

