-- ==== Sys2Proof/Safety.lean ====
section
/-!
DEFINITION. What counts as a good state and a safe step, and the terms statements use: the invariant of
the machine between cycles, the frames of an instruction, and the conditions under which a word runs.
-/

namespace Sys2Proof.Machine

/-! ### The invariant between cycles -/

/-- What every engine keeps: the FIFO within `FIFO_DEPTH` (R31) and fewer than 32 bits in `SR` (R28). -/
structure EngineInv (p : Params) (en : Engine) : Prop where
  level : en.fifo.length ≤ p.fifoDepth
  bits : en.cnt.toNat < 32

/-- What a loop-table player keeps: an armed table has 1 to 16 entries and its index is one of them
(R38, R199); its memory is in canonical form. -/
structure PlayerInv (p : Player) : Prop where
  memory : Memory.wf p.mem
  length : p.armed = true → 1 ≤ p.len.toNat ∧ p.len.toNat ≤ 16
  index : p.armed = true → p.idx.toNat < p.len.toNat

/-- What the capture side keeps (R36, R218, R220, R244). -/
structure CaptureInv (p : Params) (c : CaptureSide) : Prop where
  memory0 : Memory.wf c.bank0
  memory1 : Memory.wf c.bank1
  pointer : c.ptr.toNat < p.bankWords
  transferring : c.x = .transferring → c.buf = c.sel
  settled : c.x = .settled → c.buf = !c.sel
  watchdog : c.wdOn = true → c.x = .transferring

/-- What the generation side keeps (R37, R226, R228). -/
structure GenInv (p : Params) (g : GenSide) : Prop where
  memory0 : Memory.wf g.bank0
  memory1 : Memory.wf g.bank1
  pointer : g.ptr.toNat < p.bankWords
  transferring : g.x = .transferring → g.buf = !g.sel
  settled : g.x = .settled → g.buf = g.sel

/-- The invariant of the machine between cycles. -/
structure MachineInv (s : State) : Prop where
  params : s.params.wf = true
  engines : ∀ e, EngineInv s.params (s.engine e)
  capture : CaptureInv s.params s.cap
  generation : GenInv s.params s.gen
  players : ∀ g, PlayerInv (s.player g)
  requests : s.req = Requests.none

/-- A step that goes on. -/
def Steps (s t : State) : Prop := step s = .next t

/-- A safe state: its next step neither faults nor refuses. -/
def Safe (s : State) : Prop := ∃ t, Steps s t

/-! ### Terms for the meanings of words -/

/-- The side action of a word has the pin it needs (R122 check 3). -/
def SideReady (side : Side) (s : State) : Prop := side = .none ∨ s.me.config.sideSel ≠ .none

/-- The output registers after a value is written to the side-channel pin (R92). -/
def pinWritten (sel : SideSel) (v : Bool) (o : OutPins) : OutPins :=
  match sel with
  | .none => o
  | .hsync => { o with hsync := v }
  | .vsync => { o with vsync := v }

/-- The output registers after a side action (R92, R123). -/
def sideWritten (sel : SideSel) (side : Side) (o : OutPins) : OutPins :=
  match side with
  | .none => o
  | .low => pinWritten sel false o
  | .high => pinWritten sel true o

/-- The output registers after a `SETO` (R133). -/
def outAfterSet (sel : SideSel) (target : SetTarget) (v : Bool) (o : OutPins) : OutPins :=
  match target with
  | .pin => pinWritten sel v o
  | .pix => { o with pix := v }
  | .flag _ => o

/-- The flags after a `SETO` that no other engine's request meets (R133). -/
def flagsAfterSet (target : SetTarget) (v : Bool) (f : BitVec 4) : BitVec 4 :=
  match target with
  | .pin => f
  | .pix => f
  | .flag k => if v then f ||| flagBit k else f &&& ~~~(flagBit k)

/-- The frame of an evaluated word. Between `s` and `t`:
every other engine, the memories, the LUT, both sides of the frame exchange, the players, the edge
detectors, the counters and the event bits are as before, and of the evaluated engine the program, the
configuration and `run`. (The equation says so of every field it does not name.) -/
structure WordFrame (s t : State) : Prop where
  state : t = { s with eng := t.eng, req := t.req, out := t.out, flags := t.flags }
  memory : ∀ sp a, t.byteAt sp a = s.byteAt sp a
  others : ∀ e, e ≠ s.cur → t.engine e = s.engine e
  prog : t.me.prog = s.me.prog
  config : t.me.config = s.me.config
  run : t.me.run = s.me.run

/-- The side action is all that the word did to the pins (R123). -/
def PinsBySide (side : Side) (s t : State) : Prop :=
  t.out = sideWritten s.me.config.sideSel side s.out

/-- The word left the shift register, its count, the running transfer and the FIFO. -/
structure PackerKept (s t : State) : Prop where
  sr : t.me.sr = s.me.sr
  cnt : t.me.cnt = s.me.cnt
  rem : t.me.rem = s.me.rem
  fifo : t.me.fifo = s.me.fifo

/-- The word left the stall flags. -/
def StallsKept (s t : State) : Prop := t.me.rxStall = s.me.rxStall ∧ t.me.txStall = s.me.txStall

/-- The word left both counters. -/
def CountersKept (s t : State) : Prop := t.me.x = s.me.x ∧ t.me.y = s.me.y

/-- The word completed at a slot with a delay (R124); it raised no fault. -/
def CompletedAt (slot : Slot) (dly : BitVec 3) (s t : State) : Prop :=
  t.me.pc = slot ∧ t.me.dly = dly ∧ t.me.fault = s.me.fault

/-- The word completed and goes on to the next slot (R124). -/
def Completed (dly : BitVec 3) (s t : State) : Prop := CompletedAt (s.me.pc + 1) dly s t

/-- The word is held, or its transfer goes on: `pc` and `dly` hold (R124). -/
def Held (s t : State) : Prop :=
  t.me.pc = s.me.pc ∧ t.me.dly = s.me.dly ∧ t.me.fault = s.me.fault

/-- The state in which the evaluated engine has a fault and nothing else changed (R122, R241). -/
def faultedBy (f : EngineFault) (s : State) : State :=
  { s with req := Requests.none, eng := s.eng.set s.cur { s.me with fault := some f } }

/-- The bits a TX engine has at hand (R130): a word, how many of its bits, and the FIFO left behind. -/
def Supplies (en : Engine) (w : Word) (c : BitVec 6) (rest : List Word) : Prop :=
  (en.cnt ≠ 0 ∧ w = en.sr ∧ c = en.cnt ∧ rest = en.fifo) ∨ (en.cnt = 0 ∧ c = 32 ∧ en.fifo = w :: rest)

/-- The transfer of a word moved one bit of the `r` that were left, and ended if it was the last (R127,
R129). -/
def TransferMoved (r : Word) (dly : BitVec 3) (s t : State) : Prop :=
  t.me.rem = r - 1 ∧ (r = 1 → Completed dly s t) ∧ (r ≠ 1 → Held s t)

/-- A word evaluated `n` times in a row by one engine, with nothing else happening. -/
def repeatExec (i : Instr) : Nat → State → Host.Outcome State Fault Refusal
  | 0, s => .next s
  | n + 1, s =>
    match exec i s with
    | .next t => repeatExec i n t
    | .fault r => .fault r
    | .refused r => .refused r

/-- The direction a word needs is the engine's (R122 check 2). -/
def DirectionReady (i : Instr) (c : EngineConfig) : Prop :=
  match i.op with
  | .shiftIn => c.dir = .rx
  | .shiftOut => c.dir = .tx
  | .get => c.dir = .tx
  | .jmp => True
  | .wait => True
  | .seto => True
  | .load => True
  | .nop => True

/-- The lines of R101, written on the bits of the word. -/
def reservedWord (w : OpWord) : Prop :=
  let op := w.toNat / 8192
  let arg := w.toNat % 256
  w.toNat / 2048 % 4 = 1 ∨
  (op = 0 ∧ arg / 32 = 7) ∨
  (op = 1 ∧ (arg % 4 ≠ 0 ∨ arg / 8 % 16 = 3 ∨ 12 ≤ arg / 8 % 16)) ∨
  (op = 1 ∧ arg / 4 % 2 = 1 ∧ ¬ (8 ≤ arg / 8 % 16 ∧ arg / 8 % 16 ≤ 11 ∧ arg / 128 = 1)) ∨
  ((op = 2 ∨ op = 3) ∧ arg / 128 = 1 ∧ arg / 32 % 4 ≠ 0) ∨
  (op = 4 ∧ (arg / 64 = 3 ∨ 32 ≤ arg % 64)) ∨
  (op = 4 ∧ arg / 64 = 2 ∧ arg % 64 ≠ 15) ∨
  (op = 5 ∧ (arg / 2 % 16 ≠ 0 ∨ arg / 32 = 2 ∨ arg / 32 = 3)) ∨
  (op = 6 ∧ arg / 64 % 2 = 0 ∧ arg / 32 % 2 = 1) ∨
  (op = 7 ∧ arg ≠ 0)

/-! ### Terms for the cycle -/

/-- What one engine's word can read (R8, R20, R24, R25): two states that agree on it. -/
structure SameView (e : EngineId) (s t : State) : Prop where
  engine : t.engine e = s.engine e
  params : t.params = s.params
  pins : ∀ b, Input.pix t.input b = Input.pix s.input b ∧ Input.hs t.input b = Input.hs s.input b ∧
    Input.vs t.input b = Input.vs s.input b
  edges : ∀ b, t.edge b = s.edge b
  flags : t.flags = s.flags
  lut : t.lut = s.lut

/-- Exactly one engine is active, with no host access, no running fixed-function agent and no
recovery. -/
structure SoleEngine (s : State) (e : EngineId) : Prop where
  noReset : s.input.rst = false
  noHost : s.input.host = .idle
  evaluates : s.activity e = .evaluating
  others : ∀ e', e' ≠ e → s.activity e' = .stopped
  capture : s.cap.x ≠ .transferring
  feeder : s.gen.feedEn = false
  players : ∀ g, (s.player g).armed = false
  noCapRecovery : s.capRecovery = false
  noGenRecovery : s.genRecovery = false

/-- What a cycle does to a state besides the words of its engines, when nothing else is active: the
inputs go on, the edge detectors follow the pins, and the meters count. -/
def passTime (s : State) (u : State) : State :=
  { u with
    cur := s.cur, req := Requests.none, stim := s.stim.tail, cycle := s.cycle + 1, busData := none
    edgeCap := { hsQ := s.input.capHsync, vsQ := s.input.capVsync }
    edgeGen := { hsQ := s.input.genHsync, vsQ := s.input.genVsync }
    cap := { s.cap with measCtr := meterTick s.cap.measCtr }
    gen := { s.gen with measCtr := meterTick s.gen.measCtr } }

/-- The addresses of the map of R72. -/
def mapped (p : Params) (a : Nat) : Prop :=
  a ≤ 0x24 ∨ (0x28 ≤ a ∧ a ≤ 0x2C) ∨ (0x30 ≤ a ∧ a ≤ 0x34) ∨
  (0x100 ≤ a ∧ a ≤ 0x127) ∨ (0x140 ≤ a ∧ a ≤ 0x167) ∨ (0x180 ≤ a ∧ a ≤ 0x1A7) ∨
  (0x1C0 ≤ a ∧ a ≤ 0x1E7) ∨ (0x200 ≤ a ∧ a ≤ 0x210) ∨ (0x220 ≤ a ∧ a ≤ 0x230) ∨
  (0x2000 ≤ a ∧ a < 0x2000 + p.bankWords) ∨ (0x4000 ≤ a ∧ a < 0x4000 + p.bankWords)

/-- The same state with the host's access of this cycle taken away (the stimulus begins with `i`). -/
def State.withoutHost (s : State) (i : Input) (rest : List Input) : State :=
  { s with stim := { i with host := .idle } :: rest }

/-- The number of recoveries of a cycle (R248). -/
def recoveries (s : State) : Nat := s.capRecovery.toNat + s.genRecovery.toNat

/-! ### Terms for the bus and the frame exchange -/

/-- The index of an engine (R9). -/
def EngineId.index : EngineId → Nat
  | .cap => 0
  | .gen => 1
  | .hs => 2
  | .vs => 3

/-- An address in the block of an engine (R64, R65). -/
def engineAddr (e : EngineId) (off : Nat) : Addr := BitVec.ofNat 16 (0x100 + 0x40 * e.index + off)

/-- The index of a loop table (R38). -/
def tableIndex : SyncGen → Nat
  | .h => 0
  | .v => 1

/-- An address in the block of a loop table (R67). -/
def tableAddr (g : SyncGen) (off : Nat) : Addr := BitVec.ofNat 16 (0x200 + 0x20 * tableIndex g + off)

/-- The four byte addresses of word `i` (R74; log 4). -/
def inWord (i a : Nat) : Prop := 4 * i ≤ a ∧ a < 4 * i + 4

/-- The addresses that can only be read (R63, R65, R68, R71). -/
def readOnlyAddr (p : Params) (a : Nat) : Prop :=
  a = 0x20 ∨ a = 0x21 ∨ a = 0x23 ∨ a = 0x24 ∨ (0x29 ≤ a ∧ a ≤ 0x2C) ∨ (0x31 ≤ a ∧ a ≤ 0x33) ∨
  (∃ e : EngineId, let block := 0x100 + 0x40 * e.index
    a = block + 0x21 ∨ (block + 0x24 ≤ a ∧ a ≤ block + 0x27)) ∨
  (0x2000 ≤ a ∧ a < 0x2000 + p.bankWords)

/-- The addresses that can only be written (R65, R71). -/
def writeOnlyAddr (a : Nat) : Prop :=
  a = 0x28 ∨ a = 0x30 ∨ ∃ e : EngineId, a = 0x100 + 0x40 * e.index + 0x20

/-- If the host reads address `a` in this cycle, the read is accepted, it returns a word of which `P`
holds, and it asks nothing of the machine (R61, R76). -/
def Reads (s t : State) (a : Addr) (P : Word → Prop) : Prop :=
  s.input.host = .read a →
    s.busCmd = .none ∧ t.busErr = s.busErr ∧ ∃ w, t.busData = some w ∧ P w

/-- The fields of `CONFIG` (R104). -/
structure ConfigFields (c : EngineConfig) (w : Word) : Prop where
  dir : w.getLsbD 0 = true ↔ c.dir = .tx
  bank : w.getLsbD 1 = true ↔ c.bank = .gen
  sideNone : c.sideSel = .none → w.extractLsb' 2 2 = 0
  sideHsync : c.sideSel = .hsync → w.extractLsb' 2 2 = 1
  sideVsync : c.sideSel = .vsync → w.extractLsb' 2 2 = 2
  pixDrv : w.getLsbD 4 = c.pixDrv
  zero : w.extractLsb' 5 27 = 0

/-- The fields of `STATUS` (R105). -/
structure StatusFields (en : Engine) (w : Word) : Prop where
  run : w.getLsbD 0 = en.run
  rxStall : w.getLsbD 1 = en.rxStall
  txStall : w.getLsbD 2 = en.txStall
  fault : w.extractLsb' 4 3 = faultCode en.fault
  pc : w.extractLsb' 8 5 = en.pc
  cnt : w.extractLsb' 16 6 = en.cnt
  level : (w.extractLsb' 24 4).toNat = en.fifo.length
  dly : w.extractLsb' 28 3 = en.dly
  zero3 : w.getLsbD 3 = false
  zero7 : w.getLsbD 7 = false
  zero13 : w.extractLsb' 13 3 = 0
  zero22 : w.extractLsb' 22 2 = 0
  zero31 : w.getLsbD 31 = false

/-- The fields of `GSTAT` (R106). -/
structure GstatFields (s : State) (w : Word) : Prop where
  busErr : w.getLsbD 0 = s.busErr
  capEvt : w.getLsbD 1 = s.capEvt
  genEvt : w.getLsbD 2 = s.genEvt
  zero : w.extractLsb' 3 29 = 0

/-- The fields of `PINS` (R106): the input pins of the cycle and the output pin registers. -/
structure PinsFields (s : State) (w : Word) : Prop where
  capPix : w.getLsbD 0 = s.input.capPix
  capHsync : w.getLsbD 1 = s.input.capHsync
  capVsync : w.getLsbD 2 = s.input.capVsync
  genHsync : w.getLsbD 4 = s.input.genHsync
  genVsync : w.getLsbD 5 = s.input.genVsync
  pix : w.getLsbD 8 = s.out.pix
  hsync : w.getLsbD 9 = s.out.hsync
  vsync : w.getLsbD 10 = s.out.vsync
  zero3 : w.getLsbD 3 = false
  zero6 : w.extractLsb' 6 2 = 0
  zero11 : w.extractLsb' 11 21 = 0

/-- The code of a handshake state (R36, R37): 0 `Idle`, 1 `Transferring`, 2 `Settled`. -/
structure HandshakeCode (x : XState) (c : BitVec 2) : Prop where
  idle : x = .idle → c = 0
  transferring : x = .transferring → c = 1
  settled : x = .settled → c = 2

/-- The fields of `CAP_XSTAT` (R106). -/
structure CapXstatFields (c : CaptureSide) (w : Word) : Prop where
  x : HandshakeCode c.x (w.extractLsb' 0 2)
  sel : w.getLsbD 2 = c.sel
  buf : w.getLsbD 3 = c.buf
  wdOn : w.getLsbD 4 = c.wdOn
  zero : w.extractLsb' 5 11 = 0
  ptr : w.extractLsb' 16 16 = c.ptr

/-- The fields of `GEN_XSTAT` (R106). -/
structure GenXstatFields (g : GenSide) (w : Word) : Prop where
  x : HandshakeCode g.x (w.extractLsb' 0 2)
  sel : w.getLsbD 2 = g.sel
  buf : w.getLsbD 3 = g.buf
  zero : w.extractLsb' 4 12 = 0
  ptr : w.extractLsb' 16 16 = g.ptr

/-- The fields of `GEN_XCFG` (R106). -/
structure GenXcfgFields (g : GenSide) (w : Word) : Prop where
  feedEn : w.getLsbD 0 = g.feedEn
  single : w.getLsbD 1 = g.single
  zero : w.extractLsb' 2 30 = 0

/-- The fields of `LT_CTRL` (R106). -/
structure LtCtrlFields (p : Player) (w : Word) : Prop where
  len : w.extractLsb' 0 5 = p.len
  armed : w.getLsbD 8 = p.armed
  idx : w.extractLsb' 12 4 = p.idx
  zero5 : w.extractLsb' 5 3 = 0
  zero9 : w.extractLsb' 9 3 = 0
  zero16 : w.extractLsb' 16 16 = 0

/-- The same state with another content of the capture bank in flight. -/
def State.withInFlight (s : State) (m : Memory) : State :=
  { s with cap :=
      { s.cap with
        bank0 := if s.cap.sel then s.cap.bank0 else m
        bank1 := if s.cap.sel then m else s.cap.bank1 } }

/-- Two capture sides that differ at most in the content of bank `b`. -/
def SameButBank (b : Bool) (c d : CaptureSide) : Prop :=
  d = { c with
    bank0 := if b then c.bank0 else d.bank0
    bank1 := if b then d.bank1 else c.bank1 }

/-- An engine evaluates a given legal word in this cycle (R120 e). -/
def Evaluates (s : State) (e : EngineId) (i : Instr) : Prop :=
  s.activity e = .evaluating ∧ decode (fetch (s.engine e)) = .legal i

/-- An output pin register (R21). -/
inductive OutPin
  | pix
  | hsync
  | vsync
deriving DecidableEq, Repr

/-- The value of an output pin register. -/
def OutPins.level (o : OutPins) : OutPin → Bool
  | .pix => o.pix
  | .hsync => o.hsync
  | .vsync => o.vsync

/-- A watchdog load with window `w` (R244). -/
def WatchdogLoaded (w : Word) (c : CaptureSide) : Prop :=
  if w = 0 then c.wdOn = false else c.wdOn = true ∧ c.wdCtr = w

/-! ### The meanings of operand forms, written from the tables of the spec -/

/-- The condition of a jump (R94, R125). -/
def ConditionHolds (s : State) (cond : Cond) : Prop :=
  let b := s.me.config.bank
  match cond with
  | .always => True
  | .xDec => s.me.x ≠ 0
  | .yDec => s.me.y ≠ 0
  | .vsHigh => Input.vs s.input b = true
  | .vsLow => Input.vs s.input b = false
  | .hsHigh => Input.hs s.input b = true
  | .hsLow => Input.hs s.input b = false

/-- The value of the source of a `WAIT` is 1 (R95, R111). -/
def SourceHigh (s : State) (src : WaitSrc) : Prop :=
  let b := s.me.config.bank
  match src with
  | .pix => Input.pix s.input b = true
  | .hs => Input.hs s.input b = true
  | .vs => Input.vs s.input b = true
  | .hsFall => (s.edge b).hsQ = true ∧ Input.hs s.input b = false
  | .hsRise => (s.edge b).hsQ = false ∧ Input.hs s.input b = true
  | .vsFall => (s.edge b).vsQ = true ∧ Input.vs s.input b = false
  | .vsRise => (s.edge b).vsQ = false ∧ Input.vs s.input b = true
  | .flag k => s.flags.getLsbD k.toNat = true

/-- The level a `WAIT` waits for is there (R126). -/
def WaitOver (s : State) (level : Bool) (src : WaitSrc) : Prop := level = true ↔ SourceHigh s src

/-- The flags after a `WAIT` that completes (R95, R126). -/
def flagsAfterWait (src : WaitSrc) (consume : Bool) (f : BitVec 4) : BitVec 4 :=
  match consume, src with
  | true, .flag k => f &&& ~~~(flagBit k)
  | true, .pix => f
  | true, .hs => f
  | true, .vs => f
  | true, .hsFall => f
  | true, .hsRise => f
  | true, .vsFall => f
  | true, .vsRise => f
  | false, _ => f

/-- The bit count of `IN` and `OUT` (R96). -/
def bitCount (s : State) : Count → Nat
  | .imm m => m.toNat + 1
  | .lut k => (s.lut[k.toNat]'k.isLt).toNat

/-- `r` bits of the transfer of a word are left before this cycle (R127, R129). -/
def TransferLeft (s : State) (count : Count) (r : Word) : Prop :=
  r ≠ 0 ∧ r.toNat = if s.me.rem = 0 then bitCount s count else s.me.rem.toNat

/-- The value of a `LOAD` (R99). -/
def loadOperand (s : State) : LoadSrc → Word
  | .lut k => s.lut[k.toNat]'k.isLt
  | .imm v => BitVec.ofNat 32 v.toNat

/-- `n` bits of the supply (`w`, `c` of its bits, FIFO `rest`) were taken (R129, R131). -/
structure FieldTaken (n : Nat) (w : Word) (c : BitVec 6) (rest : List Word) (s t : State) :
    Prop where
  sr : t.me.sr = w <<< n
  cnt : t.me.cnt.toNat = c.toNat - n
  rem : t.me.rem = s.me.rem
  fifo : t.me.fifo = rest

/-- Check 3 of R122: a pin that the word needs is not there. -/
def PinMissing (i : Instr) (c : EngineConfig) : Prop :=
  (i.side ≠ .none ∧ c.sideSel = .none) ∨
  match i with
  | .shiftOut _ _ _ => c.pixDrv = false
  | .seto _ _ .pin _ => c.sideSel = .none
  | .seto _ _ .pix _ => c.pixDrv = false
  | .seto _ _ (.flag _) _ => False
  | .jmp _ _ _ _ => False
  | .wait _ _ _ _ _ => False
  | .shiftIn _ _ _ => False
  | .getX _ _ _ => False
  | .getY _ _ _ => False
  | .getExec _ _ => False
  | .load _ _ _ _ => False
  | .nop _ _ => False

/-- The word is a `SETO` or a `NOP` (R132). -/
def MayBeExecuted (i : Instr) : Prop := i.op = .seto ∨ i.op = .nop

/-! ### What a word asks of state with several writers, written from the rules (R123, R126 to R133) -/

/-- `CONFIG.side_sel` names the pin (R33, R92). -/
def SideSel.names (sel : SideSel) (p : OutPin) : Bool :=
  match sel with
  | .none => false
  | .hsync => decide (p = .hsync)
  | .vsync => decide (p = .vsync)

/-- The value a side action writes to a pin, if it does (R92). -/
def sideWrite (c : EngineConfig) (side : Side) (p : OutPin) : Option Bool :=
  match side with
  | .none => none
  | .low => if c.sideSel.names p then some false else none
  | .high => if c.sideSel.names p then some true else none

/-- The value a `SETO` writes to a pin, if it does (R133). -/
def setWrite (c : EngineConfig) (target : SetTarget) (v : Bool) (p : OutPin) : Option Bool :=
  match target with
  | .pin => if c.sideSel.names p then some v else none
  | .pix => if p = .pix then some v else none
  | .flag _ => none

/-- The value a `SETO` gives a flag, if it does (R133). -/
def flagWrite (target : SetTarget) (v : Bool) (k : BitVec 2) : Option Bool :=
  match target with
  | .pin => none
  | .pix => none
  | .flag j => if j = k then some v else none

/-- The word whose most significant bits a TX engine takes next (R130). -/
def headWord (en : Engine) : Option Word := if en.cnt = 0 then en.fifo.head? else some en.sr

/-- The word that `GET EXEC` executes: the 16 most significant bits of the supply (R132). -/
def executedWord (en : Engine) : Option Instr :=
  match headWord en with
  | none => none
  | some w =>
    match decode (w.extractLsb' 16 16) with
    | .illegal _ => none
    | .legal j => some j

/-- What the `SETO` of a word does to a pin, over the word's own side action (R123, R133). -/
def setAndSide (c : EngineConfig) (i : Instr) (p : OutPin) : Option Bool :=
  match i with
  | .seto side _ target v => (setWrite c target v p).or (sideWrite c side p)
  | .jmp side _ _ _ => sideWrite c side p
  | .wait side _ _ _ _ => sideWrite c side p
  | .shiftIn side _ _ => sideWrite c side p
  | .shiftOut side _ _ => sideWrite c side p
  | .getX side _ _ => sideWrite c side p
  | .getY side _ _ => sideWrite c side p
  | .getExec side _ => sideWrite c side p
  | .load side _ _ _ => sideWrite c side p
  | .nop side _ => sideWrite c side p

/-- What the `SETO` of a word does to a flag (R133). -/
def setFlagOf (i : Instr) (k : BitVec 2) : Option Bool :=
  match i with
  | .seto _ _ target v => flagWrite target v k
  | .jmp _ _ _ _ => none
  | .wait _ _ _ _ _ => none
  | .shiftIn _ _ _ => none
  | .shiftOut _ _ _ => none
  | .getX _ _ _ => none
  | .getY _ _ _ => none
  | .getExec _ _ => none
  | .load _ _ _ _ => none
  | .nop _ _ => none

/-- A transfer has a bit to move in this cycle (R127, R129). -/
def bitDue (s : State) (count : Count) : Bool :=
  decide ((if s.me.rem = 0 then bitCount s count else s.me.rem.toNat) ≠ 0)

/-- The value a word that raises no fault writes to a pin in one evaluation, if it does (R123): the last
of its side action, the side action of the word it executes, and its operation. -/
def pinWrite (s : State) (i : Instr) (p : OutPin) : Option Bool :=
  let c := s.me.config
  match i with
  | .shiftOut side _ count =>
    (if p = .pix ∧ bitDue s count = true then (headWord s.me).map BitVec.msb else none).or
      (sideWrite c side p)
  | .getExec side _ =>
    ((executedWord s.me).bind fun j => setAndSide c j p).or (sideWrite c side p)
  | .seto _ _ _ _ => setAndSide c i p
  | .jmp _ _ _ _ => setAndSide c i p
  | .wait _ _ _ _ _ => setAndSide c i p
  | .shiftIn _ _ _ => setAndSide c i p
  | .getX _ _ _ => setAndSide c i p
  | .getY _ _ _ => setAndSide c i p
  | .load _ _ _ _ => setAndSide c i p
  | .nop _ _ => setAndSide c i p

/-- The value a word that raises no fault gives a flag in one evaluation, if it does (R126, R132,
R133). -/
def flagValue (s : State) (i : Instr) (k : BitVec 2) : Option Bool :=
  match i with
  | .wait _ _ level src consume =>
    if consume = true ∧ src = .flag k ∧ s.flags.getLsbD k.toNat = level then some false else none
  | .getExec _ _ => (executedWord s.me).bind fun j => setFlagOf j k
  | .seto _ _ _ _ => setFlagOf i k
  | .jmp _ _ _ _ => none
  | .shiftIn _ _ _ => none
  | .shiftOut _ _ _ => none
  | .getX _ _ _ => none
  | .getY _ _ _ => none
  | .load _ _ _ _ => none
  | .nop _ _ => none

/-- Engine `e` evaluates `i` in this cycle, and the word raises no fault (R122). -/
def EvaluatesFaultless (s : State) (e : EngineId) (i : Instr) : Prop :=
  Evaluates s e i ∧ ∃ u, exec i (s.focus e) = .next u ∧ (u.engine e).fault = none

/-- Engine `e` writes `v` to an output pin in this cycle. -/
def WritesPin (s : State) (e : EngineId) (p : OutPin) (v : Bool) : Prop :=
  ∃ i, EvaluatesFaultless s e i ∧ pinWrite (s.focus e) i p = some v

/-- Engine `e` writes `v` to `F[k]` in this cycle: a set or a clear. -/
def WritesFlag (s : State) (e : EngineId) (k : BitVec 2) (v : Bool) : Prop :=
  ∃ i, EvaluatesFaultless s e i ∧ flagValue (s.focus e) i k = some v

/-- Engine `e` completes a word of samples while its FIFO is full (R128, R242). -/
def Overruns (s : State) (e : EngineId) : Prop :=
  ∃ side dly count r, Evaluates s e (.shiftIn side dly count) ∧ SideReady side (s.focus e) ∧
    (s.engine e).config.dir = .rx ∧ TransferLeft (s.focus e) count r ∧
    (s.engine e).cnt + 1 = 32 ∧ ¬ (s.engine e).fifo.length < s.params.fifoDepth

/-- Engine `e` evaluates `OUT` or `GET` with an empty shift register and an empty FIFO (R130, R243). -/
def RunsDry (s : State) (e : EngineId) : Prop :=
  (s.engine e).config.dir = .tx ∧ (s.engine e).cnt = 0 ∧ (s.engine e).fifo = [] ∧
  ∃ i, Evaluates s e i ∧ SideReady i.side (s.focus e) ∧
    (i.op = .get ∨ ∃ side dly count r, i = .shiftOut side dly count ∧
      (s.engine e).config.pixDrv = true ∧ TransferLeft (s.focus e) count r)

end Sys2Proof.Machine
end

