-- ==== Sys2Proof/Certificates/Slice0/Obligations.lean ====
section
/-!
DEFINITION. The statements for the provers. Each docstring names the rule of spec/ it formalises.
-/

open Sys2Proof Sys2Proof.Machine

/-! ### Encoding -/

/-- R109: words of its table of encoding examples decode to the instructions they stand for. -/
def Obligations.ReferenceWordsDecode : Prop :=
  decode 0x0083 = .legal (.jmp .none 0 .vsLow 3) ∧
  decode 0x20C4 = .legal (.wait .none 0 true (.flag 0) true) ∧
  decode 0x408F = .legal (.shiftIn .none 0 (.lut 15)) ∧
  decode 0x601F = .legal (.shiftOut .none 0 (.imm 31)) ∧
  decode 0x800F = .legal (.getX .none 0 15) ∧
  decode 0x808F = .legal (.getExec .none 0) ∧
  decode 0xB081 = .legal (.seto .low 0 (.flag 0) true) ∧
  decode 0xC091 = .legal (.load .none 0 .y (.lut 17)) ∧
  decode 0xE700 = .legal (.nop .none 7)

/-- R90 to R101, R109: decoding the encoding of a well-formed instruction gives it back. -/
def Obligations.DecodeEncodeRoundTrip : Prop :=
  ∀ i : Instr, i.wellFormed = true → decode (encode i) = .legal i

/-- R90 to R101, R109: a legal word has one meaning, and no bit of it is dropped. -/
def Obligations.EncodeDecodeRoundTrip : Prop :=
  ∀ (w : OpWord) (i : Instr), decode w = .legal i → i.wellFormed = true ∧ encode i = w

/-- R101: exactly the words that match a line of the list are illegal; an engine that evaluates one
raises fault 1 and performs none of its effects. -/
def Obligations.ReservedWordsAreIllegal : Prop :=
  (∀ w : OpWord, (∃ e, decode w = .illegal e) ↔ reservedWord w) ∧
  decode 0x0000 = .legal (.jmp .none 0 .always 0) ∧
  (∃ e, decode 0xFFFF = .illegal e) ∧
  faultCode (some .illegalEncoding) = 1 ∧
  ∀ (s : State) (e : EngineId), s.activity e = .evaluating → reservedWord (fetch (s.engine e)) →
    s.turn exec e =
      .next { eng := { s.engine e with fault := some .illegalEncoding }, req := Requests.none }

/-! ### The engine step -/

/-- R8, R120 e: when an engine evaluates a legal word, the step runs `exec` of that word on that
engine, takes the engine's own registers and its requests from it, and merges them with the turns of
the other engines. -/
def Obligations.StepRunsDecodedInstruction : Prop :=
  ∀ (s : State) (e : EngineId) (i : Instr), MachineInv s → s.input.rst = false → Evaluates s e i →
    ∃ (u : State) (ts : Turns), exec i (s.focus e) = .next u ∧ s.turns exec = .next ts ∧
      ts.get e = { eng := u.engine e, req := u.req } ∧
      Steps s (s.merge ts) ∧ (s.merge ts).engine e = s.nextEngine e (ts.get e)

/-- R8, R112, R233: when one engine evaluates a word and nothing else is active, the step is `exec` of
that word and the passing of a cycle. -/
def Obligations.SoleEngineStepIsExec : Prop :=
  ∀ (s : State) (e : EngineId) (i : Instr), SoleEngine s e →
    decode (fetch (s.engine e)) = .legal i →
    ∃ u : State, exec i (s.focus e) = .next u ∧ Steps s (passTime s u)

/-- R120: exactly one thing happens to an engine in a cycle, tested in the order of the rule: reset,
restart, nothing, a cycle of delay, the evaluation of one word. -/
def Obligations.EngineTurn : Prop :=
  ∀ (s : State) (e : EngineId),
    (s.input.rst = true → ∃ t, Steps s t ∧ t.engine e = resetEngine e) ∧
    (s.restartsEngine e = true ↔
      (∃ d, s.input.host = .write (engineAddr e 0x20) d ∧
        (d.getLsbD 1 = true ∨ d.getLsbD 0 = true ∧ (s.engine e).run = false)) ∨
      (e = .cap ∧ (s.engine e).rxStall = true) ∨ (e = .gen ∧ (s.engine e).txStall = true)) ∧
    (s.restartsEngine e = true →
      s.turn exec e = .next { eng := restartEngine (s.engine e), req := Requests.none }) ∧
    (s.restartsEngine e = false →
      ((s.engine e).run = false ∨ (s.engine e).fault ≠ none →
        s.turn exec e = .next { eng := s.engine e, req := Requests.none }) ∧
      ((s.engine e).run = true → (s.engine e).fault = none →
        ((s.engine e).dly ≠ 0 →
          s.turn exec e =
            .next { eng := { s.engine e with dly := (s.engine e).dly - 1 },
                    req := Requests.none }) ∧
        ((s.engine e).dly = 0 →
          (∀ r, decode (fetch (s.engine e)) = .illegal r →
            s.turn exec e =
              .next { eng := { s.engine e with fault := some .illegalEncoding },
                      req := Requests.none }) ∧
          (∀ i, decode (fetch (s.engine e)) = .legal i →
            ∃ u, exec i (s.focus e) = .next u ∧
              s.turn exec e = .next { eng := u.engine e, req := u.req }))))

/-- R8, R44, R263: what a word does to its engine and asks of shared state depends on that engine, the
pins of the cycle, the edge registers, the flags and the LUT alone. -/
def Obligations.ExecDependsOnlyOnItsView : Prop :=
  ∀ (i : Instr) (s t : State) (e : EngineId), SameView e s t →
    ∃ u v : State, exec i (s.focus e) = .next u ∧ exec i (t.focus e) = .next v ∧
      v.engine e = u.engine e ∧ v.req = u.req

/-- R122: the checks of an evaluation in their order; a word that raises a fault has no other effect
at all. The last clauses are the faults of `GET` (R131, R132). -/
def Obligations.FaultChecksInOrder : Prop :=
  (∀ (s : State) (e : EngineId) (r : DecodeError), s.activity e = .evaluating →
    decode (fetch (s.engine e)) = .illegal r →
    s.turn exec e =
      .next { eng := { s.engine e with fault := some .illegalEncoding }, req := Requests.none }) ∧
  ∀ (i : Instr) (s : State), i.wellFormed = true →
    (¬ DirectionReady i s.me.config → exec i s = .next (faultedBy .wrongDirection s)) ∧
    (DirectionReady i s.me.config →
      (PinMissing i s.me.config → exec i s = .next (faultedBy .noPin s)) ∧
      (¬ PinMissing i s.me.config →
        (∀ side dly m, i = .getX side dly m ∨ i = .getY side dly m →
          s.me.cnt ≠ 0 → s.me.cnt.toNat < m.toNat + 1 →
          exec i s = .next (faultedBy .fieldUnderflow s)) ∧
        (∀ side dly, i = .getExec side dly →
          (s.me.cnt ≠ 0 → s.me.cnt.toNat < 16 →
            exec i s = .next (faultedBy .fieldUnderflow s)) ∧
          (∀ w c rest, Supplies s.me w c rest → 16 ≤ c.toNat →
            (∀ r, decode (w.extractLsb' 16 16) = .illegal r →
              exec i s = .next (faultedBy .illegalEncoding s)) ∧
            (∀ j, decode (w.extractLsb' 16 16) = .legal j →
              (¬ MayBeExecuted j → exec i s = .next (faultedBy .execNotAllowed s)) ∧
              (MayBeExecuted j → PinMissing j s.me.config →
                exec i s = .next (faultedBy .noPin s)))))))

/-! ### Results of the words, with their frames -/

/-- R125, R94: a jump completes in one cycle, at the target or the next slot; `X--` and `Y--` decrement
always. -/
def Obligations.JmpResult : Prop :=
  ∀ (side : Side) (dly : BitVec 3) (cond : Cond) (target : Slot) (s : State), SideReady side s →
    ∃ t, exec (.jmp side dly cond target) s = .next t ∧
      WordFrame s t ∧ PackerKept s t ∧ StallsKept s t ∧ PinsBySide side s t ∧ t.flags = s.flags ∧
      t.me.x = (if cond = .xDec then s.me.x - 1 else s.me.x) ∧
      t.me.y = (if cond = .yDec then s.me.y - 1 else s.me.y) ∧
      (ConditionHolds s cond → CompletedAt target dly s t) ∧
      (¬ ConditionHolds s cond → Completed dly s t)

/-- R126: a `WAIT` whose source has the level completes in this cycle; a consuming one clears its
flag. -/
def Obligations.WaitCompletes : Prop :=
  ∀ (side : Side) (dly : BitVec 3) (level : Bool) (src : WaitSrc) (consume : Bool) (s : State),
    (Instr.wait side dly level src consume).wellFormed = true → SideReady side s →
    WaitOver s level src →
    ∃ t, exec (.wait side dly level src consume) s = .next t ∧
      WordFrame s t ∧ PackerKept s t ∧ StallsKept s t ∧ CountersKept s t ∧ PinsBySide side s t ∧
      t.flags = flagsAfterWait src consume s.flags ∧ Completed dly s t

/-- R126: a `WAIT` whose source has not the level is held; only its side action is performed. -/
def Obligations.WaitHolds : Prop :=
  ∀ (side : Side) (dly : BitVec 3) (level : Bool) (src : WaitSrc) (consume : Bool) (s : State),
    (Instr.wait side dly level src consume).wellFormed = true → SideReady side s →
    ¬ WaitOver s level src →
    ∃ t, exec (.wait side dly level src consume) s = .next t ∧
      WordFrame s t ∧ PackerKept s t ∧ StallsKept s t ∧ CountersKept s t ∧ PinsBySide side s t ∧
      t.flags = s.flags ∧ Held s t

/-- R127, R128: one sample of `IN`: the pixel pin enters `SR` at the least significant end; the 32nd
bit delivers the word to the FIFO, or drops it with `rx_stall`. -/
def Obligations.InSamplesOneBit : Prop :=
  ∀ (side : Side) (dly : BitVec 3) (count : Count) (s : State) (r : Word), SideReady side s →
    s.me.config.dir = .rx → TransferLeft s count r →
    let w : Word := s.me.sr.extractLsb' 0 31 ++ BitVec.ofBool (Input.pix s.input s.me.config.bank)
    ∃ t, exec (.shiftIn side dly count) s = .next t ∧
      WordFrame s t ∧ CountersKept s t ∧ PinsBySide side s t ∧ t.flags = s.flags ∧
      t.me.txStall = s.me.txStall ∧ TransferMoved r dly s t ∧
      (s.me.cnt + 1 ≠ 32 →
        t.me.sr = w ∧ t.me.cnt = s.me.cnt + 1 ∧ t.me.fifo = s.me.fifo ∧
        t.me.rxStall = s.me.rxStall) ∧
      (s.me.cnt + 1 = 32 →
        t.me.sr = 0 ∧ t.me.cnt = 0 ∧
        (s.me.fifo.length < s.params.fifoDepth →
          t.me.fifo = s.me.fifo ++ [w] ∧ t.me.rxStall = s.me.rxStall) ∧
        (¬ s.me.fifo.length < s.params.fifoDepth →
          t.me.fifo = s.me.fifo ∧ t.me.rxStall = true))

/-- R129, R130: one bit of `OUT`: the most significant bit of the supply goes to `pix_out`, whatever
the side action wrote to the other pins. -/
def Obligations.OutDrivesOneBit : Prop :=
  ∀ (side : Side) (dly : BitVec 3) (count : Count) (s : State) (r w : Word) (c : BitVec 6)
    (rest : List Word), SideReady side s → s.me.config.dir = .tx → s.me.config.pixDrv = true →
    TransferLeft s count r → Supplies s.me w c rest →
    ∃ t, exec (.shiftOut side dly count) s = .next t ∧
      WordFrame s t ∧ CountersKept s t ∧ StallsKept s t ∧ t.flags = s.flags ∧
      t.out = { sideWritten s.me.config.sideSel side s.out with pix := w.msb } ∧
      t.me.sr = w <<< 1 ∧ t.me.cnt = c - 1 ∧ t.me.fifo = rest ∧ TransferMoved r dly s t

/-- R127, R129: a count of 0, which only the LUT can give, completes in one cycle without moving a
bit. -/
def Obligations.EmptyTransferCompletes : Prop :=
  ∀ (side : Side) (dly : BitVec 3) (k : BitVec 5) (s : State) (i : Instr), SideReady side s →
    (i = .shiftIn side dly (.lut k) ∧ s.me.config.dir = .rx ∨
      i = .shiftOut side dly (.lut k) ∧ s.me.config.dir = .tx ∧ s.me.config.pixDrv = true) →
    s.me.rem = 0 → s.lutAt k = 0 →
    ∃ t, exec i s = .next t ∧ WordFrame s t ∧ PackerKept s t ∧ StallsKept s t ∧
      CountersKept s t ∧ PinsBySide side s t ∧ t.flags = s.flags ∧ Completed dly s t

/-- R130: `OUT` and `GET` with an empty shift register and an empty FIFO are held with `tx_stall`; only
the side action is performed. -/
def Obligations.EmptyFifoHolds : Prop :=
  ∀ (side : Side) (dly : BitVec 3) (m : BitVec 5) (count : Count) (r : Word) (s : State) (i : Instr),
    SideReady side s → s.me.config.dir = .tx → s.me.cnt = 0 → s.me.fifo = [] →
    (i = .getX side dly m ∨ i = .getY side dly m ∨ i = .getExec side dly ∨
      i = .shiftOut side dly count ∧ s.me.config.pixDrv = true ∧ TransferLeft s count r) →
    ∃ t, exec i s = .next t ∧ WordFrame s t ∧ PackerKept s t ∧ CountersKept s t ∧
      PinsBySide side s t ∧ t.flags = s.flags ∧ t.me.rxStall = s.me.rxStall ∧
      t.me.txStall = true ∧ Held s t

/-- R131: `GET X` takes the `n` most significant bits of the supply into X, `GET Y` into Y. -/
def Obligations.GetCounterResult : Prop :=
  ∀ (side : Side) (dly : BitVec 3) (m : BitVec 5) (s : State) (w : Word) (c : BitVec 6)
    (rest : List Word), SideReady side s → s.me.config.dir = .tx → Supplies s.me w c rest →
    m.toNat + 1 ≤ c.toNat →
    (∃ t, exec (.getX side dly m) s = .next t ∧
      WordFrame s t ∧ StallsKept s t ∧ PinsBySide side s t ∧ t.flags = s.flags ∧
      t.me.x = (w.extractLsb' (31 - m.toNat) (m.toNat + 1)).setWidth 32 ∧ t.me.y = s.me.y ∧
      FieldTaken (m.toNat + 1) w c rest s t ∧ Completed dly s t) ∧
    (∃ t, exec (.getY side dly m) s = .next t ∧
      WordFrame s t ∧ StallsKept s t ∧ PinsBySide side s t ∧ t.flags = s.flags ∧
      t.me.y = (w.extractLsb' (31 - m.toNat) (m.toNat + 1)).setWidth 32 ∧ t.me.x = s.me.x ∧
      FieldTaken (m.toNat + 1) w c rest s t ∧ Completed dly s t)

/-- R132: `GET EXEC` takes 16 bits and executes them: first its own side action, then that of the
executed word, then its `SETO`; the delay is the executed word's. -/
def Obligations.GetExecResult : Prop :=
  ∀ (side : Side) (dly : BitVec 3) (s : State) (w : Word) (c : BitVec 6) (rest : List Word),
    SideReady side s → s.me.config.dir = .tx → Supplies s.me w c rest → 16 ≤ c.toNat →
    (∀ side' dly' target v,
      decode (w.extractLsb' 16 16) = .legal (.seto side' dly' target v) →
      ¬ PinMissing (.seto side' dly' target v) s.me.config →
      ∃ t, exec (.getExec side dly) s = .next t ∧
        WordFrame s t ∧ StallsKept s t ∧ CountersKept s t ∧ FieldTaken 16 w c rest s t ∧
        t.out = outAfterSet s.me.config.sideSel target v
          (sideWritten s.me.config.sideSel side' (sideWritten s.me.config.sideSel side s.out)) ∧
        t.flags = flagsAfterSet target v s.flags ∧ Completed dly' s t) ∧
    (∀ side' dly', decode (w.extractLsb' 16 16) = .legal (.nop side' dly') →
      ¬ PinMissing (.nop side' dly') s.me.config →
      ∃ t, exec (.getExec side dly) s = .next t ∧
        WordFrame s t ∧ StallsKept s t ∧ CountersKept s t ∧ FieldTaken 16 w c rest s t ∧
        t.out = sideWritten s.me.config.sideSel side'
          (sideWritten s.me.config.sideSel side s.out) ∧
        t.flags = s.flags ∧ Completed dly' s t)

/-- R133, R123: `SETO` writes its target, over the word's own side action on the same pin. -/
def Obligations.SetoResult : Prop :=
  ∀ (side : Side) (dly : BitVec 3) (target : SetTarget) (v : Bool) (s : State),
    ¬ PinMissing (.seto side dly target v) s.me.config →
    ∃ t, exec (.seto side dly target v) s = .next t ∧
      WordFrame s t ∧ PackerKept s t ∧ StallsKept s t ∧ CountersKept s t ∧
      t.out = outAfterSet s.me.config.sideSel target v
        (sideWritten s.me.config.sideSel side s.out) ∧
      t.flags = flagsAfterSet target v s.flags ∧ Completed dly s t

/-- R134: `LOAD` writes one counter with a LUT entry or a zero-extended immediate. -/
def Obligations.LoadResult : Prop :=
  ∀ (side : Side) (dly : BitVec 3) (dest : Dest) (src : LoadSrc) (s : State), SideReady side s →
    ∃ t, exec (.load side dly dest src) s = .next t ∧
      WordFrame s t ∧ PackerKept s t ∧ StallsKept s t ∧ PinsBySide side s t ∧ t.flags = s.flags ∧
      t.me.x = (if dest = .x then loadOperand s src else s.me.x) ∧
      t.me.y = (if dest = .y then loadOperand s src else s.me.y) ∧ Completed dly s t

/-- R135: `NOP` completes in one cycle with its side action and delay alone. -/
def Obligations.NopResult : Prop :=
  ∀ (side : Side) (dly : BitVec 3) (s : State), SideReady side s →
    ∃ t, exec (.nop side dly) s = .next t ∧
      WordFrame s t ∧ PackerKept s t ∧ StallsKept s t ∧ CountersKept s t ∧ PinsBySide side s t ∧
      t.flags = s.flags ∧ Completed dly s t

/-- R125, R139: a jump `X--` to its own slot with X = C stays in its slot for C evaluations and leaves
it at the next one, with X = 0xFFFFFFFF. -/
def Obligations.BusyWaitTakesCountPlusOne : Prop :=
  ∀ s : State,
    (∀ n : Nat, n ≤ s.me.x.toNat →
      ∃ t, repeatExec (.jmp .none 0 .xDec s.me.pc) n s = .next t ∧ t.me.pc = s.me.pc ∧
        t.me.x = s.me.x - BitVec.ofNat 32 n) ∧
    ∃ t, repeatExec (.jmp .none 0 .xDec s.me.pc) (s.me.x.toNat + 1) s = .next t ∧
      t.me.pc = s.me.pc + 1 ∧ t.me.x = 0xFFFFFFFF

/-! ### Reset, restart, start -/

/-- R58, R59: after a cycle with `rst = 1`, whatever else happened, every register has the value of
the table; reset does not change the memories (which is said here of a cycle in which nobody else
would write one). -/
def Obligations.ResetState : Prop :=
  ∀ s : State, s.input.rst = true → ∃ t, Steps s t ∧
    t.out = { pix := false, hsync := true, vsync := true } ∧
    (∀ b, t.edge b = { hsQ := true, vsQ := true }) ∧ t.flags = 0 ∧
    t.lut = #v[0, 178, 0, 512, 690, 0, 4, 24, 342, 370, 0, 2760, 16560, 235980, 255300, 512,
      23, 341, 175, 23, 341, 174, 0, 0, 0, 5472, 0, 0, 0, 0, 0, 0] ∧
    (∀ e, (t.engine e).pc = 0 ∧ (t.engine e).x = 0 ∧ (t.engine e).y = 0 ∧ (t.engine e).sr = 0 ∧
      (t.engine e).cnt = 0 ∧ (t.engine e).dly = 0 ∧ (t.engine e).rem = 0 ∧
      (t.engine e).run = false ∧ (t.engine e).fault = none ∧ (t.engine e).rxStall = false ∧
      (t.engine e).txStall = false ∧ (t.engine e).fifo = []) ∧
    (t.engine .cap).prog = programCap ∧ (t.engine .gen).prog = programGen ∧
    (t.engine .hs).prog = programAuxH ∧ (t.engine .vs).prog = programAuxV ∧
    (t.engine .cap).config.word = 0 ∧ (t.engine .gen).config.word = 0x13 ∧
    (t.engine .hs).config.word = 7 ∧ (t.engine .vs).config.word = 0xB ∧
    (s.input.host = .idle → s.moverActs = false → ∀ sp a, t.byteAt sp a = s.byteAt sp a) ∧
    t.cap.sel = false ∧ t.gen.sel = false ∧ t.cap.x = .idle ∧ t.cap.buf = false ∧ t.cap.ptr = 0 ∧
    t.gen.x = .idle ∧ t.gen.buf = false ∧ t.gen.ptr = 0 ∧ t.gen.feedEn = false ∧
    t.gen.single = false ∧
    (∀ g, (t.player g).len = 0 ∧ (t.player g).armed = false ∧ (t.player g).idx = 0) ∧
    t.cap.wdOn = false ∧ t.cap.wdCtr = 0 ∧ t.err = 0 ∧
    t.capEvt = false ∧ t.genEvt = false ∧ t.busErr = false ∧
    t.cap.frames = 0 ∧ t.gen.frames = 0 ∧ t.cap.meas = 0 ∧ t.gen.meas = 0 ∧
    t.cap.measCtr = 0 ∧ t.gen.measCtr = 0

/-- R112: the edge registers take the pins of the cycle in every cycle; only `rst` overrides it. -/
def Obligations.EdgeRegistersFollowPins : Prop :=
  ∀ s t : State, Steps s t →
    (s.input.rst = false → ∀ b,
      (t.edge b).hsQ = Input.hs s.input b ∧ (t.edge b).vsQ = Input.vs s.input b) ∧
    (s.input.rst = true → ∀ b, (t.edge b).hsQ = true ∧ (t.edge b).vsQ = true)

/-- R137: a host `RESTART` clears the fault and puts the engine at slot 0; it writes no pin, flag or
FIFO, and the engine evaluates slot 0 in the next cycle if it runs and nothing restarts it then. -/
def Obligations.RestartByHost : Prop :=
  ∀ (s t : State) (e : EngineId) (d : Word), s.input.rst = false →
    s.input.host = .write (engineAddr e 0x20) d → d.getLsbD 1 = true → Steps s t →
    s.turn exec e =
      .next { eng := { s.engine e with pc := 0, sr := 0, cnt := 0, dly := 0, rem := 0, fault := none },
              req := Requests.none } ∧
    (t.engine e).pc = 0 ∧ (t.engine e).sr = 0 ∧ (t.engine e).cnt = 0 ∧ (t.engine e).dly = 0 ∧
    (t.engine e).rem = 0 ∧ (t.engine e).fault = none ∧ (t.engine e).x = (s.engine e).x ∧
    (t.engine e).y = (s.engine e).y ∧ (t.engine e).prog = (s.engine e).prog ∧
    (t.engine e).config = (s.engine e).config ∧
    (d.getLsbD 0 = false → (t.engine e).run = (s.engine e).run) ∧
    ((t.engine e).run = true → t.restartsEngine e = false → t.activity e = .evaluating)

/-- R136: `START` of a stopped engine sets `run` and restarts it, and it evaluates slot 0 in the next
cycle if nothing restarts it then; `START` of a running engine does nothing and is not refused. -/
def Obligations.StartByHost : Prop :=
  ∀ (s t : State) (e : EngineId) (d : Word), s.input.rst = false →
    s.input.host = .write (engineAddr e 0x20) d → d.getLsbD 0 = true → Steps s t →
    ((s.engine e).run = false →
      (t.engine e).run = true ∧ (t.engine e).pc = 0 ∧ (t.engine e).sr = 0 ∧
      (t.engine e).cnt = 0 ∧ (t.engine e).dly = 0 ∧ (t.engine e).rem = 0 ∧
      (t.engine e).fault = none ∧
      (t.restartsEngine e = false → t.activity e = .evaluating)) ∧
    ((s.engine e).run = true → s.startsEngine e = false ∧ s.busCmd ≠ .refused ∧
      (d = 1 → ∀ i rest, s.stim = i :: rest → Steps (s.withoutHost i rest) t))

/-! ### FIFOs, flags and pins with several writers -/

/-- R31, R32: in one cycle a FIFO is emptied, or loses at most its head and gains at most one word at
its tail, so its words keep their order. -/
def Obligations.FifoKeepsOrder : Prop :=
  ∀ (s t : State) (e : EngineId), Steps s t →
    (t.engine e).fifo = [] ∨
    ∃ (k : Nat) (new : List Word), k ≤ 1 ∧ new.length ≤ 1 ∧
      (t.engine e).fifo = (s.engine e).fifo.drop k ++ new

/-- R23, R262: a flag that some engine sets in a cycle is 1 after it, whatever else clears it; one that
some engine clears and none sets is 0; one that none writes holds. A word sets or clears a flag as a
`SETO`, as the `SETO` that a `GET EXEC` executes, or as a consuming `WAIT`. -/
def Obligations.FlagSetWins : Prop :=
  ∀ (s t : State) (k : BitVec 2), s.input.rst = false → Steps s t →
    ((∃ e, WritesFlag s e k true) → t.flags.getLsbD k.toNat = true) ∧
    ((∃ e, WritesFlag s e k false) → (∀ e, ¬ WritesFlag s e k true) →
      t.flags.getLsbD k.toNat = false) ∧
    ((∀ e v, ¬ WritesFlag s e k v) → t.flags.getLsbD k.toNat = s.flags.getLsbD k.toNat)

/-- R21, R123, R262: of the engines that write one output pin in a cycle, the one with the largest index
wins; a pin that none writes holds. -/
def Obligations.HighestEngineDrivesPin : Prop :=
  ∀ (s t : State) (p : OutPin), s.input.rst = false → Steps s t →
    (∀ e v, WritesPin s e p v → (∀ e' v', e.index < e'.index → ¬ WritesPin s e' p v') →
      t.out.level p = v) ∧
    ((∀ e v, ¬ WritesPin s e p v) → t.out.level p = s.out.level p)

/-- R63, R103, R138, R262: what the host clears. `CLR_RX_STALL` and `CLR_TX_STALL` clear a stall flag that
nothing sets in the same cycle; `FLUSH_FIFO` empties the FIFO, discards the push of the cycle and idles
the agent at it, while the engine keeps what it took; a 1 written to a bit of `GSTAT` clears the bit
unless the hardware sets it in the same cycle, and nothing else clears it. -/
def Obligations.HostClears : Prop :=
  ∀ s t : State, s.input.rst = false → Steps s t →
    (∀ (e : EngineId) (d : Word), s.input.host = .write (engineAddr e 0x20) d →
      s.busCmd ≠ .refused ∧
      ((t.engine e).rxStall = true ↔
        Overruns s e ∨ (e = .cap ∧ s.watchdogTimeout = true) ∨
          ((s.engine e).rxStall = true ∧ e ≠ .cap ∧ d.getLsbD 2 = false)) ∧
      ((t.engine e).txStall = true ↔
        RunsDry s e ∨ ((s.engine e).txStall = true ∧ e ≠ .gen ∧ d.getLsbD 3 = false)) ∧
      (d.getLsbD 4 = true →
        (t.engine e).fifo = [] ∧
        (e = .cap → s.moverActs = false) ∧ (e = .gen → s.feederActs = false) ∧
        (∀ g, playerEngine g = e → s.playerWord g = none) ∧
        (∀ i u, Evaluates s e i → exec i (s.focus e) = .next u →
          (t.engine e).sr = (u.engine e).sr ∧ (t.engine e).cnt = (u.engine e).cnt))) ∧
    (∀ d : Word, s.input.host = .write 0x0022 d →
      s.busCmd ≠ .refused ∧ t.busErr = (s.busErr && !d.getLsbD 0) ∧
      t.capEvt = ((s.engine .cap).rxStall || (s.capEvt && !d.getLsbD 1)) ∧
      t.genEvt = ((s.engine .gen).txStall || (s.genEvt && !d.getLsbD 2))) ∧
    ((∀ d : Word, s.input.host ≠ .write 0x0022 d) →
      t.busErr = (decide (s.busCmd = .refused) || s.busErr) ∧
      t.capEvt = ((s.engine .cap).rxStall || s.capEvt) ∧
      t.genEvt = ((s.engine .gen).txStall || s.genEvt))

/-! ### The host bus -/

/-- R72, R73: the complete address map: exactly its addresses are mapped, and each names what the map
says; an access to any other is refused; where the windows of the reference hardware end. R66: a write
of a read-only address and a read of a write-only one are refused too. -/
def Obligations.AddressMap : Prop :=
  ∀ p : Params, p.wf = true →
    (∀ a : Addr, (decodeAddr p a).isSome = true ↔ mapped p a.toNat) ∧
    (∀ k : BitVec 5, decodeAddr p (BitVec.ofNat 16 k.toNat) = some (.lut k)) ∧
    decodeAddr p 0x0020 = some .errLo ∧ decodeAddr p 0x0021 = some .errHi ∧
    decodeAddr p 0x0022 = some .gstat ∧ decodeAddr p 0x0023 = some .flags ∧
    decodeAddr p 0x0024 = some .pins ∧
    decodeAddr p 0x0028 = some .capXctrl ∧ decodeAddr p 0x0029 = some .capXstat ∧
    decodeAddr p 0x002A = some .capMeas ∧ decodeAddr p 0x002B = some .capFrames ∧
    decodeAddr p 0x002C = some .capWd ∧
    decodeAddr p 0x0030 = some .genXctrl ∧ decodeAddr p 0x0031 = some .genXstat ∧
    decodeAddr p 0x0032 = some .genMeas ∧ decodeAddr p 0x0033 = some .genFrames ∧
    decodeAddr p 0x0034 = some .genXcfg ∧
    (∀ e : EngineId,
      (∀ k : BitVec 5, decodeAddr p (engineAddr e k.toNat) = some (.prog e k)) ∧
      decodeAddr p (engineAddr e 0x20) = some (.ctrl e) ∧
      decodeAddr p (engineAddr e 0x21) = some (.status e) ∧
      decodeAddr p (engineAddr e 0x22) = some (.config e) ∧
      decodeAddr p (engineAddr e 0x23) = some (.fifo e) ∧
      decodeAddr p (engineAddr e 0x24) = some (.regX e) ∧
      decodeAddr p (engineAddr e 0x25) = some (.regY e) ∧
      decodeAddr p (engineAddr e 0x26) = some (.regSr e) ∧
      decodeAddr p (engineAddr e 0x27) = some (.regRem e)) ∧
    (∀ g : SyncGen,
      (∀ i : BitVec 4, decodeAddr p (tableAddr g i.toNat) = some (.ltEntry g i)) ∧
      decodeAddr p (tableAddr g 0x10) = some (.ltCtrl g)) ∧
    (∀ i, i < p.bankWords →
      decodeAddr p (BitVec.ofNat 16 (0x2000 + i)) = some (.capWindow i) ∧
      decodeAddr p (BitVec.ofNat 16 (0x4000 + i)) = some (.genWindow i)) ∧
    (∀ (s : State) (a : Addr), s.params = p → ¬ mapped p a.toNat →
      (s.input.host = .read a ∨ ∃ d, s.input.host = .write a d) → s.busCmd = .refused) ∧
    (∀ (s : State) (a : Addr), s.params = p →
      (readOnlyAddr p a.toNat → ∀ d, s.input.host = .write a d → s.busCmd = .refused) ∧
      (writeOnlyAddr a.toNat → s.input.host = .read a → s.busCmd = .refused)) ∧
    mapped Params.reference 0x355F ∧ ¬ mapped Params.reference 0x3560 ∧
    mapped Params.reference 0x555F ∧ ¬ mapped Params.reference 0x5560

/-- R66: a refused access does to the machine what no access does, but that it sets `bus_err`; a
refused read returns 0. That a loop-table player goes on in the cycle of a refused `LT_CTRL` write is
the model's reading of R66 and R198 (DEDUCED, log 8). -/
def Obligations.RefusedAccessOnlySetsBusErr : Prop :=
  ∀ (s t : State) (i : Input) (rest : List Input), s.stim = i :: rest → i.rst = false →
    s.busCmd = .refused → Steps (s.withoutHost i rest) t →
    (∀ a d, i.host = .write a d → Steps s { t with busErr := true }) ∧
    (∀ a, i.host = .read a → Steps s { t with busErr := true, busData := some 0 })

/-- R62: a host write of a LUT entry takes effect at the end of the cycle and changes no other entry;
no other access writes the LUT. -/
def Obligations.LutWrittenByHost : Prop :=
  ∀ s t : State, s.input.rst = false → Steps s t →
    (∀ (k : BitVec 5) (d : Word), s.input.host = .write (BitVec.ofNat 16 k.toNat) d →
      t.lutAt k = d ∧ ∀ j, j ≠ k → t.lutAt j = s.lutAt j) ∧
    ((∀ (k : BitVec 5) (d : Word), s.input.host ≠ .write (BitVec.ofNat 16 k.toNat) d) →
      t.lut = s.lut)

/-- R64, R262: a host write of a program slot is refused while the engine runs; of a stopped engine it
stores the low half of the data in that slot and nowhere else; nothing else writes the program. -/
def Obligations.ProgramWrittenByHost : Prop :=
  ∀ (s t : State) (e : EngineId), s.input.rst = false → Steps s t →
    (∀ (k : Slot) (d : Word), s.input.host = .write (engineAddr e k.toNat) d →
      ((s.engine e).run = true → s.busCmd = .refused ∧ (t.engine e).prog = (s.engine e).prog) ∧
      ((s.engine e).run = false →
        (t.engine e).prog = (s.engine e).prog.set k.toNat (d.extractLsb' 0 16) k.isLt ∧
        t.busErr = s.busErr)) ∧
    ((∀ (k : Slot) (d : Word), s.input.host ≠ .write (engineAddr e k.toNat) d) →
      (t.engine e).prog = (s.engine e).prog)

/-- R65, R104, R262: a host write of `CONFIG` is refused while the engine runs or with `side_sel` 3;
otherwise the register has the five low bits written; nothing else writes it. -/
def Obligations.ConfigWrittenByHost : Prop :=
  ∀ (s t : State) (e : EngineId), s.input.rst = false → Steps s t →
    (∀ d : Word, s.input.host = .write (engineAddr e 0x22) d →
      ((s.engine e).run = true ∨ d.extractLsb' 2 2 = 3 →
        s.busCmd = .refused ∧ (t.engine e).config = (s.engine e).config) ∧
      ((s.engine e).run = false → d.extractLsb' 2 2 ≠ 3 →
        ConfigFields (t.engine e).config (d &&& 0x1F) ∧ t.busErr = s.busErr)) ∧
    ((∀ d : Word, s.input.host ≠ .write (engineAddr e 0x22) d) →
      (t.engine e).config = (s.engine e).config)

/-- R61 to R65, R67 to R69, R71, R104 to R106: what a host read of each readable address returns, from
the pre-cycle state; such a read has no effect. The generation window is refused between `COMMIT` and
the swap. (A read of `FIFO`, which pops, is `HostFifoAccess`; the refused reads are in `AddressMap`.) -/
def Obligations.HostReads : Prop :=
  ∀ s t : State, s.params.wf = true → s.input.rst = false → Steps s t →
    (∀ k : BitVec 5, Reads s t (BitVec.ofNat 16 k.toNat) (· = s.lutAt k)) ∧
    Reads s t 0x0020 (· = s.err.extractLsb' 0 32) ∧ Reads s t 0x0021 (· = s.err.extractLsb' 32 32) ∧
    Reads s t 0x0022 (GstatFields s) ∧
    Reads s t 0x0023 (fun w => w.extractLsb' 0 4 = s.flags ∧ w.extractLsb' 4 28 = 0) ∧
    Reads s t 0x0024 (PinsFields s) ∧
    Reads s t 0x0029 (CapXstatFields s.cap) ∧ Reads s t 0x002A (· = s.cap.meas) ∧
    Reads s t 0x002B (· = s.cap.frames) ∧ Reads s t 0x002C (· = s.cap.wdCtr) ∧
    Reads s t 0x0031 (GenXstatFields s.gen) ∧ Reads s t 0x0032 (· = s.gen.meas) ∧
    Reads s t 0x0033 (· = s.gen.frames) ∧ Reads s t 0x0034 (GenXcfgFields s.gen) ∧
    (∀ e : EngineId,
      (∀ k : Slot, Reads s t (engineAddr e k.toNat) fun w =>
        w.extractLsb' 0 16 = (s.engine e).prog[k.toNat]'k.isLt ∧ w.extractLsb' 16 16 = 0) ∧
      ((s.engine e).fifo.length ≤ s.params.fifoDepth →
        Reads s t (engineAddr e 0x21) (StatusFields (s.engine e))) ∧
      Reads s t (engineAddr e 0x22) (ConfigFields (s.engine e).config) ∧
      Reads s t (engineAddr e 0x24) (· = (s.engine e).x) ∧
      Reads s t (engineAddr e 0x25) (· = (s.engine e).y) ∧
      Reads s t (engineAddr e 0x26) (· = (s.engine e).sr) ∧
      Reads s t (engineAddr e 0x27) (· = (s.engine e).rem)) ∧
    (∀ g : SyncGen,
      (∀ i : BitVec 4, Reads s t (tableAddr g i.toNat) (· = s.ltWord g i.toNat)) ∧
      Reads s t (tableAddr g 0x10) (LtCtrlFields (s.player g))) ∧
    (∀ i, i < s.params.bankWords →
      Reads s t (BitVec.ofNat 16 (0x2000 + i)) (· = s.cbankWord (!s.cap.sel) i) ∧
      (s.gen.single = false → s.gen.x ≠ .transferring →
        Reads s t (BitVec.ofNat 16 (0x4000 + i)) (· = s.gbankWord (!s.gen.sel) i)) ∧
      (s.gen.single = true →
        Reads s t (BitVec.ofNat 16 (0x4000 + i)) (· = s.gbankWord s.gen.sel i)) ∧
      (s.gen.single = false → s.gen.x = .transferring →
        s.input.host = .read (BitVec.ofNat 16 (0x4000 + i)) →
        s.busCmd = .refused ∧ t.busData = some 0))

/-- R65: the host pops an RX FIFO by reading it and pushes to a TX FIFO by writing it, when no
fixed-function agent owns it and there is a word or room; otherwise the access is refused. The read
returns the head and the FIFO loses it; the written word goes to the tail. -/
def Obligations.HostFifoAccess : Prop :=
  ∀ (s t : State) (e : EngineId), s.input.rst = false → Steps s t →
    (s.input.host = .read (engineAddr e 0x23) →
      (∀ w q, (s.engine e).fifo = w :: q → (s.engine e).config.dir = .rx →
        s.fifoOwned e = false →
        t.busData = some w ∧ s.busCmd = .pop e ∧
        (s.flushed e = false →
          (∃ new : List Word, new.length ≤ 1 ∧ (t.engine e).fifo = q ++ new) ∧
          (s.activity e ≠ .evaluating → (t.engine e).fifo = q))) ∧
      ((s.engine e).fifo = [] ∨ (s.engine e).config.dir = .tx ∨ s.fifoOwned e = true →
        t.busData = some 0 ∧ s.busCmd = .refused)) ∧
    (∀ d, s.input.host = .write (engineAddr e 0x23) d →
      ((s.engine e).config.dir = .tx → (s.engine e).fifo.length < s.params.fifoDepth →
        s.fifoOwned e = false →
        s.busCmd = .push e d ∧
        (s.flushed e = false →
          (∃ k : Nat, k ≤ 1 ∧ (t.engine e).fifo = (s.engine e).fifo.drop k ++ [d]) ∧
          (s.activity e ≠ .evaluating → (t.engine e).fifo = (s.engine e).fifo ++ [d]))) ∧
      ((s.engine e).config.dir = .rx ∨ ¬ (s.engine e).fifo.length < s.params.fifoDepth ∨
        s.fifoOwned e = true → s.busCmd = .refused))

/-- R69, R60: the generation window writes the settled bank, or in single-buffer mode the bank being
transmitted, one word and nothing else; it is refused between `COMMIT` and the swap. Nothing else
writes a generation bank. -/
def Obligations.GenerationWindowWrite : Prop :=
  ∀ s t : State, s.params.wf = true → s.input.rst = false → Steps s t →
    (∀ (i : Nat) (d : Word), i < s.params.bankWords →
      s.input.host = .write (BitVec.ofNat 16 (0x4000 + i)) d →
      (s.gen.single = false → s.gen.x = .transferring → s.busCmd = .refused) ∧
      (s.gen.single = false → s.gen.x ≠ .transferring →
        t.gbankWord (!s.gen.sel) i = d ∧
        ∀ b a, ¬ (b = !s.gen.sel ∧ inWord i a) → t.byteAt (.gbank b) a = s.byteAt (.gbank b) a) ∧
      (s.gen.single = true →
        t.gbankWord s.gen.sel i = d ∧
        ∀ b a, ¬ (b = s.gen.sel ∧ inWord i a) → t.byteAt (.gbank b) a = s.byteAt (.gbank b) a)) ∧
    ((∀ (i : Nat) (d : Word), i < s.params.bankWords →
        s.input.host ≠ .write (BitVec.ofNat 16 (0x4000 + i)) d) →
      ∀ b a, t.byteAt (.gbank b) a = s.byteAt (.gbank b) a)

/-! ### Frame exchange -/

/-- R219, R223: `ARM` in `Idle` starts a transfer into the bank in flight and loads the watchdog with
`LUT[24]`, and the mover starts in the next cycle; `TAKE` in `Settled` goes to `Idle` and leaves the
ownership. Otherwise, and in a capture recovery, they are refused. R106: a write with both bits is
refused; one with neither does nothing. (In a recovery the latter is the model's reading, log 9, and is
not stated.) -/
def Obligations.CaptureCommands : Prop :=
  ∀ (s t : State) (d : Word), s.input.rst = false → s.input.host = .write 0x0028 d → Steps s t →
    (d.getLsbD 0 = true → d.getLsbD 1 = false →
      (s.cap.x = .idle → (s.engine .cap).rxStall = false →
        t.cap.x = .transferring ∧ t.cap.buf = s.cap.sel ∧ t.cap.ptr = 0 ∧
        WatchdogLoaded (s.lutAt 24) t.cap ∧ s.moverActs = false ∧ t.busErr = s.busErr) ∧
      (¬ (s.cap.x = .idle ∧ (s.engine .cap).rxStall = false) → s.busCmd = .refused)) ∧
    (d.getLsbD 0 = false → d.getLsbD 1 = true →
      (s.cap.x = .settled → (s.engine .cap).rxStall = false →
        t.cap.x = .idle ∧ t.cap.sel = s.cap.sel ∧ t.busErr = s.busErr) ∧
      (¬ (s.cap.x = .settled ∧ (s.engine .cap).rxStall = false) → s.busCmd = .refused)) ∧
    (d.getLsbD 0 = true → d.getLsbD 1 = true → s.busCmd = .refused) ∧
    (d.getLsbD 0 = false → d.getLsbD 1 = false → (s.engine .cap).rxStall = false →
      s.busCmd = .none ∧ t.busErr = s.busErr)

/-- R227, R231: `COMMIT` in `Idle` and in double-buffer mode hands over the host's bank; `TAKE` in
`Settled` goes to `Idle`. Otherwise, and in a generation recovery, they are refused. That `TAKE` is
accepted in single-buffer mode too is the model's reading of R229 and R231 (DEDUCED, log 20). R106: a
write with both bits is refused; one with neither does nothing. (In a recovery the latter is the model's
reading, log 9, and is not stated.) -/
def Obligations.GenerationCommands : Prop :=
  ∀ (s t : State) (d : Word), s.input.rst = false → s.input.host = .write 0x0030 d → Steps s t →
    (d.getLsbD 0 = true → d.getLsbD 1 = false →
      (s.gen.x = .idle → s.gen.single = false → (s.engine .gen).txStall = false →
        t.gen.x = .transferring ∧ t.gen.buf = !s.gen.sel ∧ t.busErr = s.busErr) ∧
      (¬ (s.gen.x = .idle ∧ s.gen.single = false ∧ (s.engine .gen).txStall = false) →
        s.busCmd = .refused)) ∧
    (d.getLsbD 0 = false → d.getLsbD 1 = true →
      (s.gen.x = .settled → (s.engine .gen).txStall = false →
        t.gen.x = .idle ∧ t.busErr = s.busErr) ∧
      (¬ (s.gen.x = .settled ∧ (s.engine .gen).txStall = false) → s.busCmd = .refused)) ∧
    (d.getLsbD 0 = true → d.getLsbD 1 = true → s.busCmd = .refused) ∧
    (d.getLsbD 0 = false → d.getLsbD 1 = false → (s.engine .gen).txStall = false →
      s.busCmd = .none ∧ t.busErr = s.busErr)

/-- R217: the handshakes make no other transitions than those of the rules it lists. -/
def Obligations.HandshakeTransitions : Prop :=
  ∀ s t : State, s.input.rst = false → Steps s t →
    (t.cap.x ≠ s.cap.x →
      (s.cap.x = .idle ∧ t.cap.x = .transferring ∧ s.busCmd = .arm) ∨
      (s.cap.x = .transferring ∧ t.cap.x = .settled ∧ s.capBoundary = true) ∨
      (s.cap.x = .settled ∧ t.cap.x = .idle ∧ s.busCmd = .capTake) ∨
      (s.cap.x = .transferring ∧ t.cap.x = .idle ∧ s.capRecovery = true)) ∧
    (t.gen.x ≠ s.gen.x →
      (s.gen.x = .idle ∧ t.gen.x = .transferring ∧ s.busCmd = .commitFrame) ∨
      (s.gen.x = .transferring ∧ t.gen.x = .settled ∧ s.genBoundary = true) ∨
      (s.gen.x = .settled ∧ t.gen.x = .idle ∧ s.busCmd = .genTake))

/-- R220, R222: the capture mover moves the head of the FIFO of engine 0 to its place in the bank in
flight and nowhere else; the last word of a frame is the boundary, where the ownership changes. -/
def Obligations.CaptureMoverMovesWord : Prop :=
  ∀ (s t : State) (w : Word) (q : List Word), s.input.rst = false → Steps s t →
    s.capRecovery = false → s.cap.x = .transferring → (s.engine .cap).config.dir = .rx →
    (s.engine .cap).fifo = w :: q → s.busCmd.flushes .cap = false →
    let fw := min (max (s.lutAt 25).toNat 1) s.params.bankWords
    t.cbankWord s.cap.sel s.cap.ptr.toNat = w ∧
    (∀ b a, ¬ (b = s.cap.sel ∧ inWord s.cap.ptr.toNat a) →
      t.byteAt (.cbank b) a = s.byteAt (.cbank b) a) ∧
    (∃ new : List Word, new.length ≤ 1 ∧ (t.engine .cap).fifo = q ++ new) ∧
    (s.cap.ptr.toNat + 1 < fw →
      t.cap.ptr = s.cap.ptr + 1 ∧ t.cap.x = .transferring ∧ t.cap.sel = s.cap.sel ∧
      t.cap.frames = s.cap.frames ∧
      (s.cap.ptr = 0 → WatchdogLoaded (s.lutAt 23) t.cap)) ∧
    (fw ≤ s.cap.ptr.toNat + 1 →
      t.cap.sel = !s.cap.sel ∧ t.cap.x = .settled ∧ t.cap.buf = s.cap.buf ∧
      t.cap.wdOn = false ∧ t.cap.frames = s.cap.frames + 1 ∧ t.cap.ptr = s.cap.ptr)

/-- R228, R230: the feeder pushes the next word of the bank in flight; after the last word it starts
again, counts a frame, and swaps the banks if a frame was committed. That the swap is performed in
single-buffer mode too is the model's reading of R229 and R230 (DEDUCED, log 20). -/
def Obligations.FeederPushesWord : Prop :=
  ∀ s t : State, s.input.rst = false → Steps s t → s.genRecovery = false → s.gen.feedEn = true →
    (s.engine .gen).config.dir = .tx → (s.engine .gen).fifo.length < s.params.fifoDepth →
    s.busCmd.flushes .gen = false →
    let fw := min (max (s.lutAt 25).toNat 1) s.params.bankWords
    (∃ k : Nat, k ≤ 1 ∧ (t.engine .gen).fifo =
      (s.engine .gen).fifo.drop k ++ [s.gbankWord s.gen.sel s.gen.ptr.toNat]) ∧
    (s.gen.ptr.toNat + 1 < fw →
      t.gen.ptr = s.gen.ptr + 1 ∧ t.gen.frames = s.gen.frames ∧ t.gen.sel = s.gen.sel) ∧
    (fw ≤ s.gen.ptr.toNat + 1 →
      t.gen.ptr = 0 ∧ t.gen.frames = s.gen.frames + 1 ∧
      (s.gen.x = .transferring → t.gen.sel = (!s.gen.sel) ∧ t.gen.x = .settled) ∧
      (s.gen.x ≠ .transferring → t.gen.sel = s.gen.sel))

/-- R232, R262: a write of `GEN_XCFG` sets `feed_en` and `single`; enabling the feeder starts it at word
0. Nothing else writes the two bits. -/
def Obligations.GenXcfgWrite : Prop :=
  ∀ s t : State, s.input.rst = false → Steps s t →
    (∀ d : Word, s.input.host = .write 0x0034 d →
      t.gen.feedEn = d.getLsbD 0 ∧ t.gen.single = d.getLsbD 1 ∧ s.busCmd ≠ .refused ∧
      t.busErr = s.busErr ∧
      (s.gen.feedEn = false → d.getLsbD 0 = true → t.gen.ptr = 0) ∧
      (s.gen.feedEn = false → s.feederActs = false)) ∧
    ((∀ d : Word, s.input.host ≠ .write 0x0034 d) →
      t.gen.feedEn = s.gen.feedEn ∧ t.gen.single = s.gen.single)

/-- R216: the ownership bits change only at the frame boundary of their direction, by toggling, with
the frame counted in the same cycle; in the generation direction only when a frame was committed. -/
def Obligations.OwnershipOnlyAtBoundary : Prop :=
  ∀ s t : State, s.input.rst = false → Steps s t →
    (t.cap.sel ≠ s.cap.sel →
      s.capBoundary = true ∧ t.cap.frames = s.cap.frames + 1 ∧ t.cap.x = .settled) ∧
    (t.gen.sel ≠ s.gen.sel →
      s.genBoundary = true ∧ s.gen.x = .transferring ∧ t.gen.frames = s.gen.frames + 1 ∧
      t.gen.x = .settled)

/-- R215, R60, R262: no step writes a byte of the settled capture bank; no step without a host write
changes a byte of a generation bank or of a loop table. The last clause is the model's reading
(DEDUCED, log 10): a cycle with `rst` writes no memory at all. -/
def Obligations.BanksWrittenByOwnerOnly : Prop :=
  ∀ s t : State, Steps s t →
    (∀ a, t.byteAt (.cbank (!s.cap.sel)) a = s.byteAt (.cbank (!s.cap.sel)) a) ∧
    ((∀ a d, s.input.host ≠ .write a d) →
      (∀ b a, t.byteAt (.gbank b) a = s.byteAt (.gbank b) a) ∧
      (∀ g a, t.byteAt (.loopTable g) a = s.byteAt (.loopTable g) a)) ∧
    (s.input.rst = true → ∀ sp a, t.byteAt sp a = s.byteAt sp a)

/-- R68, R77, R225: nothing the host reads, and nothing else in the next state, depends on the content
of the capture bank in flight. -/
def Obligations.InFlightCaptureIsHidden : Prop :=
  ∀ (s t : State) (m : Memory), Steps s t →
    (s.withInFlight m).busReadData = s.busReadData ∧
    ∃ t' : State, Steps (s.withInFlight m) t' ∧ SameButBank s.cap.sel t.cap t'.cap ∧
      t' = { t with cap := t'.cap }

/-- R233: the period meters count every cycle, saturating, and are latched at the boundary of their
direction. -/
def Obligations.PeriodMeters : Prop :=
  ∀ s t : State, s.input.rst = false → Steps s t →
    (s.capBoundary = true →
      t.cap.meas.toNat = min (s.cap.measCtr.toNat + 1) (2 ^ 32 - 1) ∧ t.cap.measCtr = 0) ∧
    (s.capBoundary = false →
      t.cap.meas = s.cap.meas ∧
      t.cap.measCtr.toNat = min (s.cap.measCtr.toNat + 1) (2 ^ 32 - 1)) ∧
    (s.genBoundary = true →
      t.gen.meas.toNat = min (s.gen.measCtr.toNat + 1) (2 ^ 32 - 1) ∧ t.gen.measCtr = 0) ∧
    (s.genBoundary = false →
      t.gen.meas = s.gen.meas ∧
      t.gen.measCtr.toNat = min (s.gen.measCtr.toNat + 1) (2 ^ 32 - 1))

/-! ### Stalls and recovery -/

/-- R245: the capture recovery; the refused writes are the commands of `CAP_XCTRL` (R262). -/
def Obligations.CaptureRecovery : Prop :=
  ∀ s t : State, s.input.rst = false → (s.engine .cap).rxStall = true → Steps s t →
    (t.engine .cap).fifo = [] ∧
    (t.engine .cap).pc = 0 ∧ (t.engine .cap).sr = 0 ∧ (t.engine .cap).cnt = 0 ∧
    (t.engine .cap).dly = 0 ∧ (t.engine .cap).rem = 0 ∧ (t.engine .cap).fault = none ∧
    (t.engine .cap).rxStall = false ∧
    (s.cap.x = .transferring → t.cap.x = .idle) ∧ (s.cap.x ≠ .transferring → t.cap.x = s.cap.x) ∧
    t.cap.ptr = 0 ∧ t.cap.wdOn = false ∧ t.cap.wdCtr = s.cap.wdCtr ∧
    t.err.toNat = min (s.err.toNat + recoveries s) (2 ^ 64 - 1) ∧ t.capEvt = true ∧
    t.cap.sel = s.cap.sel ∧ t.cap.buf = s.cap.buf ∧
    (∀ b a, t.byteAt (.cbank b) a = s.byteAt (.cbank b) a) ∧ t.cap.frames = s.cap.frames ∧
    t.cap.meas = s.cap.meas ∧ (t.engine .cap).x = (s.engine .cap).x ∧
    (t.engine .cap).y = (s.engine .cap).y ∧
    (∀ d, s.input.host = .write 0x0028 d → d.getLsbD 0 = true ∨ d.getLsbD 1 = true →
      s.busCmd = .refused)

/-- R246: the generation recovery; the refused writes are the commands of `GEN_XCTRL` (R262). -/
def Obligations.GenerationRecovery : Prop :=
  ∀ s t : State, s.input.rst = false → (s.engine .gen).txStall = true → Steps s t →
    (t.engine .gen).fifo = [] ∧
    (t.engine .gen).pc = 0 ∧ (t.engine .gen).sr = 0 ∧ (t.engine .gen).cnt = 0 ∧
    (t.engine .gen).dly = 0 ∧ (t.engine .gen).rem = 0 ∧ (t.engine .gen).fault = none ∧
    (t.engine .gen).txStall = false ∧ t.gen.ptr = 0 ∧
    t.err.toNat = min (s.err.toNat + recoveries s) (2 ^ 64 - 1) ∧ t.genEvt = true ∧
    t.gen.x = s.gen.x ∧ t.gen.buf = s.gen.buf ∧ t.gen.sel = s.gen.sel ∧
    t.gen.frames = s.gen.frames ∧ t.gen.meas = s.gen.meas ∧
    ((∀ d, s.input.host ≠ .write 0x0034 d) →
      t.gen.feedEn = s.gen.feedEn ∧ t.gen.single = s.gen.single) ∧
    ((∀ e, e ≠ .gen → s.activity e ≠ .evaluating) → t.out.pix = s.out.pix) ∧
    (∀ d, s.input.host = .write 0x0030 d → d.getLsbD 0 = true ∨ d.getLsbD 1 = true →
      s.busCmd = .refused)

/-- R248: `err` counts the recoveries, saturating at 2^64 - 1; `rst` clears it. -/
def Obligations.ErrorCounter : Prop :=
  ∀ s t : State, Steps s t →
    (s.input.rst = false →
      t.err.toNat =
        min (s.err.toNat + ((if (s.engine .cap).rxStall then 1 else 0) +
          (if (s.engine .gen).txStall then 1 else 0))) (2 ^ 64 - 1)) ∧
    (s.input.rst = true → t.err = 0)

/-- R244: the watchdog counts down in a transfer, in every cycle that moves no word, or a word that is
neither the first nor the last of its frame; a watchdog at 0 sets `rx_stall` of engine 0 and holds. -/
def Obligations.WatchdogCounts : Prop :=
  ∀ s t : State, s.input.rst = false → Steps s t → s.cap.x = .transferring → s.cap.wdOn = true →
    (s.engine .cap).rxStall = false → (s.moverActs = true → s.cap.ptr ≠ 0) →
    s.capBoundary = false →
    t.cap.wdOn = true ∧
    (s.cap.wdCtr = 0 → (t.engine .cap).rxStall = true ∧ t.cap.wdCtr = 0) ∧
    (s.cap.wdCtr ≠ 0 → t.cap.wdCtr = s.cap.wdCtr - 1 ∧
      (s.activity .cap ≠ .evaluating → (t.engine .cap).rxStall = false))

/-! ### Loop tables -/

/-- R198: an armed player pushes its next entry and goes to the one after it, cyclically. -/
def Obligations.PlayerPushesEntry : Prop :=
  ∀ (s t : State) (g : SyncGen), s.input.rst = false → Steps s t → PlayerInv (s.player g) →
    (s.player g).armed = true → (s.engine (playerEngine g)).config.dir = .tx →
    (s.engine (playerEngine g)).fifo.length < s.params.fifoDepth →
    (∀ d, s.input.host ≠ .write (tableAddr g 0x10) d) →
    (∀ d, s.input.host ≠ .write (engineAddr (playerEngine g) 0x20) d) →
    (∃ k : Nat, k ≤ 1 ∧ (t.engine (playerEngine g)).fifo =
      (s.engine (playerEngine g)).fifo.drop k ++ [s.ltWord g (s.player g).idx.toNat]) ∧
    (t.player g).idx.toNat = ((s.player g).idx.toNat + 1) % (s.player g).len.toNat ∧
    (t.player g).len = (s.player g).len ∧ (t.player g).armed = true

/-- R199, R67, R262: a write of `LT_CTRL` arms or stops the player at entry 0, or is refused when it arms
a table of no or of more than 16 entries; a write of an entry stores it. Nothing else writes the length,
the armed bit or the entries. -/
def Obligations.LoopTableWrites : Prop :=
  ∀ (s t : State) (g : SyncGen), s.input.rst = false → Steps s t →
    (∀ d : Word, s.input.host = .write (tableAddr g 0x10) d →
      (d.getLsbD 8 = true → d.extractLsb' 0 5 = 0 ∨ 16 < (d.extractLsb' 0 5).toNat →
        s.busCmd = .refused) ∧
      (d.getLsbD 8 = false ∨ (d.extractLsb' 0 5 ≠ 0 ∧ (d.extractLsb' 0 5).toNat ≤ 16) →
        (t.player g).len = d.extractLsb' 0 5 ∧ (t.player g).armed = d.getLsbD 8 ∧
        (t.player g).idx = 0 ∧ t.busErr = s.busErr)) ∧
    ((∀ d : Word, s.input.host ≠ .write (tableAddr g 0x10) d) →
      (t.player g).len = (s.player g).len ∧ (t.player g).armed = (s.player g).armed) ∧
    (∀ (i : BitVec 4) (d : Word), s.input.host = .write (tableAddr g i.toNat) d →
      t.ltWord g i.toNat = d ∧
      ∀ a, ¬ inWord i.toNat a → t.byteAt (.loopTable g) a = s.byteAt (.loopTable g) a) ∧
    ((∀ (i : BitVec 4) (d : Word), s.input.host ≠ .write (tableAddr g i.toNat) d) →
      ∀ a, t.byteAt (.loopTable g) a = s.byteAt (.loopTable g) a)

/-! ### The Timing Calculator and the frame format -/

/-- R152: `rhe` gives the nearest integer, and the even one of two nearest. -/
def Obligations.RoundHalfToEven : Prop :=
  ∀ q : Rat, 0 ≤ q →
    |q - (rhe q : Rat)| ≤ 1 / 2 ∧ (|q - (rhe q : Rat)| = 1 / 2 → rhe q % 2 = 0)

/-- R153: the sum of the four rounded H phases differs from the rounded total by at most 2. -/
def Obligations.PhasesSumToTotal : Prop :=
  ∀ (m : VideoMode) (clock : Rat), m.valid clock →
    let t := compute m clock
    t.hFront + t.hSync + t.hBack + t.hActive ≤ t.hTotal + 2 ∧
    t.hTotal ≤ t.hFront + t.hSync + t.hBack + t.hActive + 2

/-- R161: the relative error of the refresh rate the results imply, and its bound below 0.1 %. -/
def Obligations.RefreshRateError : Prop :=
  ∀ (m : VideoMode) (clock : Rat), m.valid clock →
    let n := (m.h.total : Rat) * m.ratio clock
    (1 / 2 < n →
      |impliedRefresh m clock / nominalRefresh m - 1| ≤ 1 / (2 * n - 1)) ∧
    (1001 / 2 < n → |impliedRefresh m clock / nominalRefresh m - 1| < 1 / 1000)

/-- R70, R140: the word an RX engine packs from 32 samples is the packed form of the frame format, its
pixels are those samples in order, and a TX engine shifts them out in the same order. -/
def Obligations.PackerMatchesFrameFormat : Prop :=
  (∀ bits : List Bool, bits.length = 32 →
    bits.foldl shiftInto 0 = packPixels bits ∧ unpackPixels (packPixels bits) = bits) ∧
  (∀ w : Word, packPixels (unpackPixels w) = w ∧
    (List.range 32).map (fun k => (w <<< k).msb) = unpackPixels w)

/-! ### The invariant -/

/-- R59: the invariant holds right after reset. -/
def Obligations.InvariantAtReset : Prop := MachineInv State.reset

/-- R28, R31, R36, R38, R74, R218, R226: from every state with the invariant the step goes on, and
keeps it. -/
def Obligations.InvariantKeptByStep : Prop :=
  ∀ s : State, MachineInv s → ∃ t, Steps s t ∧ MachineInv t
end

