-- ==== Sys2Proof/Laws/Bus.lean ====
section
/-!
SUPPORT. What each command of the host bus tells of the state it was accepted in, and the addresses
that statements name.
-/

namespace Sys2Proof.Machine

/-! ### Addresses -/

/-- An address in the block of an engine (R64, R65). -/
theorem decodeAddr_engine (p : Params) (e : EngineId) (off : Nat) (h : off < 0x40) :
    decodeAddr p (engineAddr e off) = decodeEngineOffset e off := by
  have hi : e.index < 4 := by cases e <;> decide
  have hn : (engineAddr e off).toNat = 0x100 + 0x40 * e.index + off := by
    rw [engineAddr, BitVec.toNat_ofNat, Nat.mod_eq_of_lt (by omega)]
  simp only [decodeAddr, hn]
  rw [if_neg (by omega), if_pos (by omega),
    show (0x100 + 0x40 * e.index + off - 0x100) / 0x40 = e.index by omega,
    show (0x100 + 0x40 * e.index + off - 0x100) % 0x40 = off by omega]
  cases e <;> rfl

/-- An address in the block of a loop table (R67). -/
theorem decodeAddr_table (p : Params) (g : SyncGen) (off : Nat) (h : off < 0x20) :
    decodeAddr p (tableAddr g off) = decodeTableOffset g off := by
  have hn : (tableAddr g off).toNat = 0x200 + 0x20 * tableIndex g + off := by
    rw [tableAddr, BitVec.toNat_ofNat]
    cases g <;> simp only [tableIndex] <;> omega
  cases g
  · simp only [decodeAddr, hn, tableIndex]
    rw [if_neg (by omega), if_neg (by omega), if_pos (by omega),
      show 0x200 + 0x20 * 0 + off - 0x200 = off by omega]
  · simp only [decodeAddr, hn, tableIndex]
    rw [if_neg (by omega), if_neg (by omega), if_neg (by omega), if_pos (by omega),
      show 0x200 + 0x20 * 1 + off - 0x220 = off by omega]

theorem decodeAddr_ctrl (p : Params) (e : EngineId) :
    decodeAddr p (engineAddr e 0x20) = some (.ctrl e) := decodeAddr_engine p e 0x20 (by decide)
theorem decodeAddr_status (p : Params) (e : EngineId) :
    decodeAddr p (engineAddr e 0x21) = some (.status e) := decodeAddr_engine p e 0x21 (by decide)
theorem decodeAddr_config (p : Params) (e : EngineId) :
    decodeAddr p (engineAddr e 0x22) = some (.config e) := decodeAddr_engine p e 0x22 (by decide)
theorem decodeAddr_fifo (p : Params) (e : EngineId) :
    decodeAddr p (engineAddr e 0x23) = some (.fifo e) := decodeAddr_engine p e 0x23 (by decide)
theorem decodeAddr_ltCtrl (p : Params) (g : SyncGen) :
    decodeAddr p (tableAddr g 0x10) = some (.ltCtrl g) := decodeAddr_table p g 0x10 (by decide)
theorem decodeAddr_capXctrl (p : Params) : decodeAddr p 0x0028 = some .capXctrl := rfl
theorem decodeAddr_genXctrl (p : Params) : decodeAddr p 0x0030 = some .genXctrl := rfl
theorem decodeAddr_genXcfg (p : Params) : decodeAddr p 0x0034 = some .genXcfg := rfl

theorem decodeAddr_prog (p : Params) (e : EngineId) (k : Slot) :
    decodeAddr p (engineAddr e k.toNat) = some (.prog e k) := by
  have hk := k.isLt
  rw [decodeAddr_engine p e _ (by omega), decodeEngineOffset, if_pos (by omega),
    BitVec.ofNat_toNat, BitVec.setWidth_eq]

theorem decodeAddr_ltEntry (p : Params) (g : SyncGen) (i : BitVec 4) :
    decodeAddr p (tableAddr g i.toNat) = some (.ltEntry g i) := by
  have hi := i.isLt
  rw [decodeAddr_table p g _ (by omega), decodeTableOffset, if_pos (by omega),
    BitVec.ofNat_toNat, BitVec.setWidth_eq]

theorem decodeAddr_lut (p : Params) (k : BitVec 5) :
    decodeAddr p (BitVec.ofNat 16 k.toNat) = some (.lut k) := by
  have hk := k.isLt
  have h : (BitVec.ofNat 16 k.toNat).toNat = k.toNat := by
    rw [BitVec.toNat_ofNat, Nat.mod_eq_of_lt (by omega)]
  simp only [decodeAddr, h, decodeGlobal]
  rw [if_pos (by omega), if_pos (by omega), BitVec.ofNat_toNat, BitVec.setWidth_eq]

theorem decodeAddr_genWindow (p : Params) (i : Nat) (hp : p.bankWords ≤ 8192) (h : i < p.bankWords) :
    decodeAddr p (BitVec.ofNat 16 (0x4000 + i)) = some (.genWindow i) := by
  have hn : (BitVec.ofNat 16 (0x4000 + i)).toNat = 0x4000 + i := by
    rw [BitVec.toNat_ofNat, Nat.mod_eq_of_lt (by omega)]
  simp only [decodeAddr, hn]
  rw [if_neg (by omega), if_neg (by omega), if_neg (by omega), if_neg (by omega),
    if_neg (by omega), if_pos (by omega)]
  simp

theorem decodeAddr_capWindow (p : Params) (i : Nat) (hp : p.bankWords ≤ 8192) (h : i < p.bankWords) :
    decodeAddr p (BitVec.ofNat 16 (0x2000 + i)) = some (.capWindow i) := by
  have hn : (BitVec.ofNat 16 (0x2000 + i)).toNat = 0x2000 + i := by
    rw [BitVec.toNat_ofNat, Nat.mod_eq_of_lt (by omega)]
  simp only [decodeAddr, hn]
  rw [if_neg (by omega), if_neg (by omega), if_neg (by omega), if_neg (by omega), if_pos (by omega)]
  simp

/-! ### The map is one to one -/

/-- The address of a target (R72). -/
def targetAddr : BusTarget → Nat
  | .lut k => k.toNat
  | .errLo => 0x20
  | .errHi => 0x21
  | .gstat => 0x22
  | .flags => 0x23
  | .pins => 0x24
  | .capXctrl => 0x28
  | .capXstat => 0x29
  | .capMeas => 0x2A
  | .capFrames => 0x2B
  | .capWd => 0x2C
  | .genXctrl => 0x30
  | .genXstat => 0x31
  | .genMeas => 0x32
  | .genFrames => 0x33
  | .genXcfg => 0x34
  | .prog e k => 0x100 + 0x40 * e.index + k.toNat
  | .ctrl e => 0x100 + 0x40 * e.index + 0x20
  | .status e => 0x100 + 0x40 * e.index + 0x21
  | .config e => 0x100 + 0x40 * e.index + 0x22
  | .fifo e => 0x100 + 0x40 * e.index + 0x23
  | .regX e => 0x100 + 0x40 * e.index + 0x24
  | .regY e => 0x100 + 0x40 * e.index + 0x25
  | .regSr e => 0x100 + 0x40 * e.index + 0x26
  | .regRem e => 0x100 + 0x40 * e.index + 0x27
  | .ltEntry g i => 0x200 + 0x20 * tableIndex g + i.toNat
  | .ltCtrl g => 0x200 + 0x20 * tableIndex g + 0x10
  | .capWindow i => 0x2000 + i
  | .genWindow i => 0x4000 + i

theorem engineOfIndex_index (n : Nat) (h : n < 4) : (engineOfIndex n).index = n := by
  interval_cases n <;> rfl

theorem decodeGlobal_inv {n : Nat} {t : BusTarget} (hn : n < 0x100) (h : decodeGlobal n = some t) :
    targetAddr t = n := by
  have all : ∀ n < 0x100, (decodeGlobal n).all (fun t => decide (targetAddr t = n)) = true := by
    decide +kernel
  simpa [h] using all n hn

theorem decodeEngineOffset_inv {e : EngineId} {off : Nat} {t : BusTarget}
    (h : decodeEngineOffset e off = some t) : targetAddr t = 0x100 + 0x40 * e.index + off := by
  simp only [decodeEngineOffset] at h
  split_ifs at h <;> obtain rfl := Option.some.inj h <;>
    simp only [targetAddr, BitVec.toNat_ofNat] <;> omega

theorem decodeTableOffset_inv {g : SyncGen} {off : Nat} {t : BusTarget}
    (h : decodeTableOffset g off = some t) :
    targetAddr t = 0x200 + 0x20 * tableIndex g + off := by
  simp only [decodeTableOffset] at h
  split_ifs at h <;> obtain rfl := Option.some.inj h <;>
    simp only [targetAddr, BitVec.toNat_ofNat] <;> omega

/-- R72: the map is one to one: an address that names a target is the address of that target. -/
theorem decodeAddr_inv {p : Params} {a : Addr} {t : BusTarget} (h : decodeAddr p a = some t) :
    a.toNat = targetAddr t := by
  simp only [decodeAddr] at h
  split_ifs at h with h1 h2 h3 h4 h5 h6
  · exact (decodeGlobal_inv h1 h).symm
  · rw [decodeEngineOffset_inv h, engineOfIndex_index _ (by omega)]
    omega
  · rw [decodeTableOffset_inv h, tableIndex]
    omega
  · rw [decodeTableOffset_inv h, tableIndex]
    omega
  · obtain rfl := Option.some.inj h
    rw [targetAddr]
    omega
  · obtain rfl := Option.some.inj h
    rw [targetAddr]
    omega

theorem decodeAddr_inv_lut {p : Params} {a : Addr} {k : BitVec 5}
    (h : decodeAddr p a = some (.lut k)) : a = BitVec.ofNat 16 k.toNat := by
  have := decodeAddr_inv h
  apply BitVec.eq_of_toNat_eq
  have hk := k.isLt
  rw [this, BitVec.toNat_ofNat]
  simp only [targetAddr]
  omega

theorem decodeAddr_inv_ctrl {p : Params} {a : Addr} {e : EngineId}
    (h : decodeAddr p a = some (.ctrl e)) : a = engineAddr e 0x20 := by
  have := decodeAddr_inv h
  apply BitVec.eq_of_toNat_eq
  rw [this]
  cases e <;> rfl

theorem decodeAddr_inv_ltCtrl {p : Params} {a : Addr} {g : SyncGen}
    (h : decodeAddr p a = some (.ltCtrl g)) : a = tableAddr g 0x10 := by
  have := decodeAddr_inv h
  apply BitVec.eq_of_toNat_eq
  rw [this]
  cases g <;> rfl

theorem decodeAddr_inv_genXcfg {p : Params} {a : Addr}
    (h : decodeAddr p a = some .genXcfg) : a = 0x0034 :=
  BitVec.eq_of_toNat_eq (decodeAddr_inv h)

/-! ### The command of a cycle -/

theorem busCmd_idle {s : State} (h : s.input.host = .idle) : s.busCmd = .none := by
  simp [State.busCmd, h]

theorem busCmd_write {s : State} {a : Addr} {d : Word} {t : BusTarget}
    (h : s.input.host = .write a d) (ht : decodeAddr s.params a = some t) :
    s.busCmd = s.writeTarget d t := by
  simp [State.busCmd, h, ht]

theorem busCmd_read {s : State} {a : Addr} {t : BusTarget} {w : Word}
    (h : s.input.host = .read a) (ht : decodeAddr s.params a = some t)
    (hr : s.readTarget t = some w) : s.busCmd = readEffect t := by
  simp [State.busCmd, h, ht, hr]

/-- Where a command comes from: nothing, a refusal, a read that pops, or an accepted write. -/
theorem busCmd_from (s : State) :
    s.busCmd = .none ∨ s.busCmd = .refused ∨
    (∃ a e w, s.input.host = .read a ∧ s.readTarget (.fifo e) = some w ∧ s.busCmd = .pop e) ∨
    ∃ a d t, s.input.host = .write a d ∧ decodeAddr s.params a = some t ∧
      s.busCmd = s.writeTarget d t := by
  cases hh : s.input.host with
  | idle => exact .inl (busCmd_idle hh)
  | read a =>
    cases ht : decodeAddr s.params a with
    | none => exact .inr (.inl (by simp [State.busCmd, hh, ht]))
    | some t =>
      cases hr : s.readTarget t with
      | none => exact .inr (.inl (by simp [State.busCmd, hh, ht, hr]))
      | some w =>
        have hc := busCmd_read hh ht hr
        cases t
        case fifo e => exact .inr (.inr (.inl ⟨a, e, w, rfl, hr, hc⟩))
        all_goals exact .inl hc
  | write a d =>
    cases ht : decodeAddr s.params a with
    | none => exact .inr (.inl (by simp [State.busCmd, hh, ht]))
    | some t => exact .inr (.inr (.inr ⟨a, d, t, rfl, ht, busCmd_write hh ht⟩))

/-- A command that is neither nothing, nor a refusal, nor a pop is that of a write. -/
theorem busCmd_of_write {s : State} {c : BusCmd} (hc : s.busCmd = c) (h1 : c ≠ .none)
    (h2 : c ≠ .refused) (h3 : ∀ e, c ≠ .pop e) :
    ∃ a d t, s.input.host = .write a d ∧ decodeAddr s.params a = some t ∧
      s.writeTarget d t = c := by
  rcases busCmd_from s with h | h | ⟨_, e, _, _, _, h⟩ | ⟨a, d, t, ha, ht, h⟩
  · exact absurd (hc.symm.trans h) h1
  · exact absurd (hc.symm.trans h) h2
  · exact absurd (hc.symm.trans h) (h3 e)
  · exact ⟨a, d, t, ha, ht, h.symm.trans hc⟩

/-! ### What an accepted command tells -/

theorem capXctrl_arm {s : State} {d : Word} (h : s.capXctrl d = .arm) :
    s.cap.x = .idle ∧ s.capRecovery = false := by
  unfold State.capXctrl at h
  repeat' split at h
  all_goals simp_all

theorem capXctrl_take {s : State} {d : Word} (h : s.capXctrl d = .capTake) :
    s.cap.x = .settled ∧ s.capRecovery = false := by
  unfold State.capXctrl at h
  repeat' split at h
  all_goals simp_all

theorem genXctrl_commit {s : State} {d : Word} (h : s.genXctrl d = .commitFrame) :
    s.gen.x = .idle ∧ s.gen.single = false ∧ s.genRecovery = false := by
  unfold State.genXctrl at h
  repeat' split at h
  all_goals simp_all

theorem genXctrl_take {s : State} {d : Word} (h : s.genXctrl d = .genTake) :
    s.gen.x = .settled ∧ s.genRecovery = false := by
  unfold State.genXctrl at h
  repeat' split at h
  all_goals simp_all

/-- A write of `CAP_XCTRL` is an exchange command of capture, or nothing. -/
theorem capXctrl_range (s : State) (d : Word) :
    s.capXctrl d = .refused ∨ s.capXctrl d = .none ∨ s.capXctrl d = .arm ∨
      s.capXctrl d = .capTake := by
  unfold State.capXctrl
  repeat' split
  all_goals simp

/-- A write of `GEN_XCTRL` is an exchange command of generation, or nothing. -/
theorem genXctrl_range (s : State) (d : Word) :
    s.genXctrl d = .refused ∨ s.genXctrl d = .none ∨ s.genXctrl d = .commitFrame ∨
      s.genXctrl d = .genTake := by
  unfold State.genXctrl
  repeat' split
  all_goals simp

/-- The commands of a write, one by one: each names its target and what made it acceptable. -/
structure AcceptedWrite (s : State) (d : Word) (t : BusTarget) (c : BusCmd) : Prop where
  lut : ∀ k v, c = .lut k v → t = .lut k ∧ v = d
  prog : ∀ e k w, c = .prog e k w →
    t = .prog e k ∧ w = d.extractLsb' 0 16 ∧ (s.engine e).run = false
  config : ∀ e g, c = .config e g →
    t = .config e ∧ EngineConfig.ofWord d = some g ∧ (s.engine e).run = false
  ctrl : ∀ e a b x y f, c = .ctrl e a b x y f →
    t = .ctrl e ∧ a = d.getLsbD 0 ∧ b = d.getLsbD 1 ∧ x = d.getLsbD 2 ∧ y = d.getLsbD 3 ∧
      f = d.getLsbD 4
  push : ∀ e v, c = .push e v → t = .fifo e ∧ v = d ∧ s.hostMayPush e = true
  pop : ∀ e, c ≠ .pop e
  ltEntry : ∀ g i v, c = .ltEntry g i v → t = .ltEntry g i ∧ v = d
  ltCtrl : ∀ g len armed, c = .ltCtrl g len armed →
    t = .ltCtrl g ∧ len = d.extractLsb' 0 5 ∧ armed = d.getLsbD 8 ∧
      (armed = true → len ≠ 0 ∧ len.toNat ≤ 16)
  genWindow : ∀ i v, c = .genWindow i v → t = .genWindow i ∧ v = d ∧ s.gen.windowOpen = true
  arm : c = .arm → t = .capXctrl ∧ s.cap.x = .idle ∧ s.capRecovery = false
  capTake : c = .capTake → t = .capXctrl ∧ s.cap.x = .settled ∧ s.capRecovery = false
  commitFrame : c = .commitFrame →
    t = .genXctrl ∧ s.gen.x = .idle ∧ s.gen.single = false ∧ s.genRecovery = false
  genTake : c = .genTake → t = .genXctrl ∧ s.gen.x = .settled ∧ s.genRecovery = false
  genXcfg : ∀ a b, c = .genXcfg a b → t = .genXcfg ∧ a = d.getLsbD 0 ∧ b = d.getLsbD 1
  clearEvents : ∀ a b x, c = .clearEvents a b x → t = .gstat

/-- A refusal, or an accepted write without effect, tells nothing. -/
theorem acceptedWrite_refused (s : State) (d : Word) (t : BusTarget) :
    AcceptedWrite s d t .refused := by constructor <;> simp

theorem acceptedWrite_none (s : State) (d : Word) (t : BusTarget) :
    AcceptedWrite s d t .none := by constructor <;> simp

theorem writeTarget_accepted (s : State) (d : Word) (t : BusTarget) :
    AcceptedWrite s d t (s.writeTarget d t) := by
  cases t
  case capXctrl =>
    show AcceptedWrite s d _ (s.capXctrl d)
    rcases capXctrl_range s d with h | h | h | h <;> rw [h]
    · exact acceptedWrite_refused _ _ _
    · exact acceptedWrite_none _ _ _
    · constructor <;> simp [capXctrl_arm h]
    · constructor <;> simp [capXctrl_take h]
  case genXctrl =>
    show AcceptedWrite s d _ (s.genXctrl d)
    rcases genXctrl_range s d with h | h | h | h <;> rw [h]
    · exact acceptedWrite_refused _ _ _
    · exact acceptedWrite_none _ _ _
    · constructor <;> simp [genXctrl_commit h]
    · constructor <;> simp [genXctrl_take h]
  case ltCtrl g =>
    simp only [State.writeTarget]
    split
    · exact acceptedWrite_refused _ _ _
    · rename_i h
      have ha : d.getLsbD 8 = true → d.extractLsb' 0 5 ≠ 0 ∧ (d.extractLsb' 0 5).toNat ≤ 16 :=
        fun ha => ⟨fun h0 => h ⟨ha, .inl h0⟩, Nat.le_of_not_lt fun h1 => h ⟨ha, .inr h1⟩⟩
      constructor
      case ltCtrl => intro g' len armed hc; cases hc; exact ⟨rfl, rfl, rfl, ha⟩
      all_goals simp
  all_goals simp only [State.writeTarget]
  all_goals repeat' split
  all_goals first
    | exact acceptedWrite_refused _ _ _
    | exact acceptedWrite_none _ _ _
    | (constructor <;> simp_all)

/-- An accepted command of a cycle, with the write it came from. -/
theorem busCmd_accepted {s : State} {c : BusCmd} (hc : s.busCmd = c) (h1 : c ≠ .none)
    (h2 : c ≠ .refused) (h3 : ∀ e, c ≠ .pop e) :
    ∃ a d t, s.input.host = .write a d ∧ decodeAddr s.params a = some t ∧ AcceptedWrite s d t c := by
  obtain ⟨a, d, t, ha, ht, hw⟩ := busCmd_of_write hc h1 h2 h3
  exact ⟨a, d, t, ha, ht, hw ▸ writeTarget_accepted s d t⟩

theorem busCmd_arm {s : State} (h : s.busCmd = .arm) : s.cap.x = .idle ∧ s.capRecovery = false := by
  obtain ⟨_, _, _, _, _, hw⟩ := busCmd_accepted h (by simp) (by simp) (by simp)
  exact (hw.arm rfl).2

theorem busCmd_capTake {s : State} (h : s.busCmd = .capTake) :
    s.cap.x = .settled ∧ s.capRecovery = false := by
  obtain ⟨_, _, _, _, _, hw⟩ := busCmd_accepted h (by simp) (by simp) (by simp)
  exact (hw.capTake rfl).2

theorem busCmd_commitFrame {s : State} (h : s.busCmd = .commitFrame) :
    s.gen.x = .idle ∧ s.gen.single = false ∧ s.genRecovery = false := by
  obtain ⟨_, _, _, _, _, hw⟩ := busCmd_accepted h (by simp) (by simp) (by simp)
  exact (hw.commitFrame rfl).2

theorem busCmd_genTake {s : State} (h : s.busCmd = .genTake) :
    s.gen.x = .settled ∧ s.genRecovery = false := by
  obtain ⟨_, _, _, _, _, hw⟩ := busCmd_accepted h (by simp) (by simp) (by simp)
  exact (hw.genTake rfl).2

theorem busCmd_push {s : State} {e : EngineId} {d : Word} (h : s.busCmd = .push e d) :
    s.hostMayPush e = true := by
  obtain ⟨_, _, _, _, _, hw⟩ := busCmd_accepted h (by simp) (by simp) (by simp)
  exact (hw.push _ _ rfl).2.2

theorem busCmd_pop {s : State} {e : EngineId} (h : s.busCmd = .pop e) : s.hostMayPop e = true := by
  rcases busCmd_from s with hc | hc | ⟨_, e', w, _, hr, hc⟩ | ⟨_, d, t, _, _, hc⟩ <;> rw [hc] at h
  · cases h
  · cases h
  · cases h
    by_contra hn
    simp [State.readTarget, hn] at hr
  · exact absurd h ((writeTarget_accepted s d t).pop e)

theorem busCmd_ltCtrl {s : State} {g : SyncGen} {len : BitVec 5} {armed : Bool}
    (h : s.busCmd = .ltCtrl g len armed) : armed = true → len ≠ 0 ∧ len.toNat ≤ 16 := by
  obtain ⟨_, _, _, _, _, hw⟩ := busCmd_accepted h (by simp) (by simp) (by simp)
  exact (hw.ltCtrl _ _ _ rfl).2.2.2

end Sys2Proof.Machine
end

