-- ==== Sys2Proof/Laws/State.lean ====
section
/-!
SUPPORT. The small lemmas of the state's updates: one per field and update, true by `rfl`, so that no
proof unfolds a record update.
-/

namespace Sys2Proof.Machine

/-! ### The four engines -/

@[simp] theorem engines_get_set_self (g : Engines) (e : EngineId) (v : Engine) :
    (g.set e v).get e = v := by cases e <;> rfl

@[simp] theorem engines_get_set_ne (g : Engines) (e e' : EngineId) (v : Engine) (h : e' ≠ e) :
    (g.set e v).get e' = g.get e' := by cases e <;> cases e' <;> first | rfl | exact absurd rfl h

@[simp] theorem engines_set_set (g : Engines) (e : EngineId) (v w : Engine) :
    (g.set e v).set e w = g.set e w := by cases e <;> rfl

@[simp] theorem engines_set_get (g : Engines) (e : EngineId) : g.set e (g.get e) = g := by
  cases e <;> rfl

/-- Engines are equal when each of the four is. -/
theorem engines_ext {g k : Engines} (h : ∀ e, g.get e = k.get e) : g = k := by
  cases g; cases k
  have a := h .cap; have b := h .gen; have c := h .hs; have d := h .vs
  simp only [Engines.get] at a b c d
  simp [a, b, c, d]

/-! ### The fields under `setEngine` -/

@[simp] theorem setEngine_params (s : State) (e : EngineId) (v : Engine) : (s.setEngine e v).params = s.params := rfl
@[simp] theorem setEngine_stim (s : State) (e : EngineId) (v : Engine) : (s.setEngine e v).stim = s.stim := rfl
@[simp] theorem setEngine_cycle (s : State) (e : EngineId) (v : Engine) : (s.setEngine e v).cycle = s.cycle := rfl
@[simp] theorem setEngine_cur (s : State) (e : EngineId) (v : Engine) : (s.setEngine e v).cur = s.cur := rfl
@[simp] theorem setEngine_req (s : State) (e : EngineId) (v : Engine) : (s.setEngine e v).req = s.req := rfl
@[simp] theorem setEngine_busData (s : State) (e : EngineId) (v : Engine) : (s.setEngine e v).busData = s.busData := rfl
@[simp] theorem setEngine_out (s : State) (e : EngineId) (v : Engine) : (s.setEngine e v).out = s.out := rfl
@[simp] theorem setEngine_edgeCap (s : State) (e : EngineId) (v : Engine) : (s.setEngine e v).edgeCap = s.edgeCap := rfl
@[simp] theorem setEngine_edgeGen (s : State) (e : EngineId) (v : Engine) : (s.setEngine e v).edgeGen = s.edgeGen := rfl
@[simp] theorem setEngine_flags (s : State) (e : EngineId) (v : Engine) : (s.setEngine e v).flags = s.flags := rfl
@[simp] theorem setEngine_lut (s : State) (e : EngineId) (v : Engine) : (s.setEngine e v).lut = s.lut := rfl
@[simp] theorem setEngine_cap (s : State) (e : EngineId) (v : Engine) : (s.setEngine e v).cap = s.cap := rfl
@[simp] theorem setEngine_gen (s : State) (e : EngineId) (v : Engine) : (s.setEngine e v).gen = s.gen := rfl
@[simp] theorem setEngine_playerH (s : State) (e : EngineId) (v : Engine) : (s.setEngine e v).playerH = s.playerH := rfl
@[simp] theorem setEngine_playerV (s : State) (e : EngineId) (v : Engine) : (s.setEngine e v).playerV = s.playerV := rfl
@[simp] theorem setEngine_err (s : State) (e : EngineId) (v : Engine) : (s.setEngine e v).err = s.err := rfl
@[simp] theorem setEngine_busErr (s : State) (e : EngineId) (v : Engine) : (s.setEngine e v).busErr = s.busErr := rfl
@[simp] theorem setEngine_capEvt (s : State) (e : EngineId) (v : Engine) : (s.setEngine e v).capEvt = s.capEvt := rfl
@[simp] theorem setEngine_genEvt (s : State) (e : EngineId) (v : Engine) : (s.setEngine e v).genEvt = s.genEvt := rfl

/-! ### The fields under `setMe` -/

@[simp] theorem setMe_params (s : State) (v : Engine) : (s.setMe v).params = s.params := rfl
@[simp] theorem setMe_stim (s : State) (v : Engine) : (s.setMe v).stim = s.stim := rfl
@[simp] theorem setMe_cycle (s : State) (v : Engine) : (s.setMe v).cycle = s.cycle := rfl
@[simp] theorem setMe_cur (s : State) (v : Engine) : (s.setMe v).cur = s.cur := rfl
@[simp] theorem setMe_req (s : State) (v : Engine) : (s.setMe v).req = s.req := rfl
@[simp] theorem setMe_busData (s : State) (v : Engine) : (s.setMe v).busData = s.busData := rfl
@[simp] theorem setMe_out (s : State) (v : Engine) : (s.setMe v).out = s.out := rfl
@[simp] theorem setMe_edgeCap (s : State) (v : Engine) : (s.setMe v).edgeCap = s.edgeCap := rfl
@[simp] theorem setMe_edgeGen (s : State) (v : Engine) : (s.setMe v).edgeGen = s.edgeGen := rfl
@[simp] theorem setMe_flags (s : State) (v : Engine) : (s.setMe v).flags = s.flags := rfl
@[simp] theorem setMe_lut (s : State) (v : Engine) : (s.setMe v).lut = s.lut := rfl
@[simp] theorem setMe_cap (s : State) (v : Engine) : (s.setMe v).cap = s.cap := rfl
@[simp] theorem setMe_gen (s : State) (v : Engine) : (s.setMe v).gen = s.gen := rfl
@[simp] theorem setMe_playerH (s : State) (v : Engine) : (s.setMe v).playerH = s.playerH := rfl
@[simp] theorem setMe_playerV (s : State) (v : Engine) : (s.setMe v).playerV = s.playerV := rfl
@[simp] theorem setMe_err (s : State) (v : Engine) : (s.setMe v).err = s.err := rfl
@[simp] theorem setMe_busErr (s : State) (v : Engine) : (s.setMe v).busErr = s.busErr := rfl
@[simp] theorem setMe_capEvt (s : State) (v : Engine) : (s.setMe v).capEvt = s.capEvt := rfl
@[simp] theorem setMe_genEvt (s : State) (v : Engine) : (s.setMe v).genEvt = s.genEvt := rfl

/-! ### The fields under `mapMe` -/

@[simp] theorem mapMe_params (s : State) (f : Engine → Engine) : (s.mapMe f).params = s.params := rfl
@[simp] theorem mapMe_stim (s : State) (f : Engine → Engine) : (s.mapMe f).stim = s.stim := rfl
@[simp] theorem mapMe_cycle (s : State) (f : Engine → Engine) : (s.mapMe f).cycle = s.cycle := rfl
@[simp] theorem mapMe_cur (s : State) (f : Engine → Engine) : (s.mapMe f).cur = s.cur := rfl
@[simp] theorem mapMe_req (s : State) (f : Engine → Engine) : (s.mapMe f).req = s.req := rfl
@[simp] theorem mapMe_busData (s : State) (f : Engine → Engine) : (s.mapMe f).busData = s.busData := rfl
@[simp] theorem mapMe_out (s : State) (f : Engine → Engine) : (s.mapMe f).out = s.out := rfl
@[simp] theorem mapMe_edgeCap (s : State) (f : Engine → Engine) : (s.mapMe f).edgeCap = s.edgeCap := rfl
@[simp] theorem mapMe_edgeGen (s : State) (f : Engine → Engine) : (s.mapMe f).edgeGen = s.edgeGen := rfl
@[simp] theorem mapMe_flags (s : State) (f : Engine → Engine) : (s.mapMe f).flags = s.flags := rfl
@[simp] theorem mapMe_lut (s : State) (f : Engine → Engine) : (s.mapMe f).lut = s.lut := rfl
@[simp] theorem mapMe_cap (s : State) (f : Engine → Engine) : (s.mapMe f).cap = s.cap := rfl
@[simp] theorem mapMe_gen (s : State) (f : Engine → Engine) : (s.mapMe f).gen = s.gen := rfl
@[simp] theorem mapMe_playerH (s : State) (f : Engine → Engine) : (s.mapMe f).playerH = s.playerH := rfl
@[simp] theorem mapMe_playerV (s : State) (f : Engine → Engine) : (s.mapMe f).playerV = s.playerV := rfl
@[simp] theorem mapMe_err (s : State) (f : Engine → Engine) : (s.mapMe f).err = s.err := rfl
@[simp] theorem mapMe_busErr (s : State) (f : Engine → Engine) : (s.mapMe f).busErr = s.busErr := rfl
@[simp] theorem mapMe_capEvt (s : State) (f : Engine → Engine) : (s.mapMe f).capEvt = s.capEvt := rfl
@[simp] theorem mapMe_genEvt (s : State) (f : Engine → Engine) : (s.mapMe f).genEvt = s.genEvt := rfl

/-! ### The fields under `setReq` -/

@[simp] theorem setReq_params (s : State) (r : Requests) : (s.setReq r).params = s.params := rfl
@[simp] theorem setReq_stim (s : State) (r : Requests) : (s.setReq r).stim = s.stim := rfl
@[simp] theorem setReq_cycle (s : State) (r : Requests) : (s.setReq r).cycle = s.cycle := rfl
@[simp] theorem setReq_cur (s : State) (r : Requests) : (s.setReq r).cur = s.cur := rfl
@[simp] theorem setReq_busData (s : State) (r : Requests) : (s.setReq r).busData = s.busData := rfl
@[simp] theorem setReq_out (s : State) (r : Requests) : (s.setReq r).out = s.out := rfl
@[simp] theorem setReq_edgeCap (s : State) (r : Requests) : (s.setReq r).edgeCap = s.edgeCap := rfl
@[simp] theorem setReq_edgeGen (s : State) (r : Requests) : (s.setReq r).edgeGen = s.edgeGen := rfl
@[simp] theorem setReq_flags (s : State) (r : Requests) : (s.setReq r).flags = s.flags := rfl
@[simp] theorem setReq_lut (s : State) (r : Requests) : (s.setReq r).lut = s.lut := rfl
@[simp] theorem setReq_eng (s : State) (r : Requests) : (s.setReq r).eng = s.eng := rfl
@[simp] theorem setReq_cap (s : State) (r : Requests) : (s.setReq r).cap = s.cap := rfl
@[simp] theorem setReq_gen (s : State) (r : Requests) : (s.setReq r).gen = s.gen := rfl
@[simp] theorem setReq_playerH (s : State) (r : Requests) : (s.setReq r).playerH = s.playerH := rfl
@[simp] theorem setReq_playerV (s : State) (r : Requests) : (s.setReq r).playerV = s.playerV := rfl
@[simp] theorem setReq_err (s : State) (r : Requests) : (s.setReq r).err = s.err := rfl
@[simp] theorem setReq_busErr (s : State) (r : Requests) : (s.setReq r).busErr = s.busErr := rfl
@[simp] theorem setReq_capEvt (s : State) (r : Requests) : (s.setReq r).capEvt = s.capEvt := rfl
@[simp] theorem setReq_genEvt (s : State) (r : Requests) : (s.setReq r).genEvt = s.genEvt := rfl

/-! ### The fields under `mapReq` -/

@[simp] theorem mapReq_params (s : State) (f : Requests → Requests) : (s.mapReq f).params = s.params := rfl
@[simp] theorem mapReq_stim (s : State) (f : Requests → Requests) : (s.mapReq f).stim = s.stim := rfl
@[simp] theorem mapReq_cycle (s : State) (f : Requests → Requests) : (s.mapReq f).cycle = s.cycle := rfl
@[simp] theorem mapReq_cur (s : State) (f : Requests → Requests) : (s.mapReq f).cur = s.cur := rfl
@[simp] theorem mapReq_busData (s : State) (f : Requests → Requests) : (s.mapReq f).busData = s.busData := rfl
@[simp] theorem mapReq_out (s : State) (f : Requests → Requests) : (s.mapReq f).out = s.out := rfl
@[simp] theorem mapReq_edgeCap (s : State) (f : Requests → Requests) : (s.mapReq f).edgeCap = s.edgeCap := rfl
@[simp] theorem mapReq_edgeGen (s : State) (f : Requests → Requests) : (s.mapReq f).edgeGen = s.edgeGen := rfl
@[simp] theorem mapReq_flags (s : State) (f : Requests → Requests) : (s.mapReq f).flags = s.flags := rfl
@[simp] theorem mapReq_lut (s : State) (f : Requests → Requests) : (s.mapReq f).lut = s.lut := rfl
@[simp] theorem mapReq_eng (s : State) (f : Requests → Requests) : (s.mapReq f).eng = s.eng := rfl
@[simp] theorem mapReq_cap (s : State) (f : Requests → Requests) : (s.mapReq f).cap = s.cap := rfl
@[simp] theorem mapReq_gen (s : State) (f : Requests → Requests) : (s.mapReq f).gen = s.gen := rfl
@[simp] theorem mapReq_playerH (s : State) (f : Requests → Requests) : (s.mapReq f).playerH = s.playerH := rfl
@[simp] theorem mapReq_playerV (s : State) (f : Requests → Requests) : (s.mapReq f).playerV = s.playerV := rfl
@[simp] theorem mapReq_err (s : State) (f : Requests → Requests) : (s.mapReq f).err = s.err := rfl
@[simp] theorem mapReq_busErr (s : State) (f : Requests → Requests) : (s.mapReq f).busErr = s.busErr := rfl
@[simp] theorem mapReq_capEvt (s : State) (f : Requests → Requests) : (s.mapReq f).capEvt = s.capEvt := rfl
@[simp] theorem mapReq_genEvt (s : State) (f : Requests → Requests) : (s.mapReq f).genEvt = s.genEvt := rfl

/-! ### The fields under `focus` -/

@[simp] theorem focus_params (s : State) (e : EngineId) : (s.focus e).params = s.params := rfl
@[simp] theorem focus_stim (s : State) (e : EngineId) : (s.focus e).stim = s.stim := rfl
@[simp] theorem focus_cycle (s : State) (e : EngineId) : (s.focus e).cycle = s.cycle := rfl
@[simp] theorem focus_req (s : State) (e : EngineId) : (s.focus e).req = s.req := rfl
@[simp] theorem focus_busData (s : State) (e : EngineId) : (s.focus e).busData = s.busData := rfl
@[simp] theorem focus_out (s : State) (e : EngineId) : (s.focus e).out = s.out := rfl
@[simp] theorem focus_edgeCap (s : State) (e : EngineId) : (s.focus e).edgeCap = s.edgeCap := rfl
@[simp] theorem focus_edgeGen (s : State) (e : EngineId) : (s.focus e).edgeGen = s.edgeGen := rfl
@[simp] theorem focus_flags (s : State) (e : EngineId) : (s.focus e).flags = s.flags := rfl
@[simp] theorem focus_lut (s : State) (e : EngineId) : (s.focus e).lut = s.lut := rfl
@[simp] theorem focus_eng (s : State) (e : EngineId) : (s.focus e).eng = s.eng := rfl
@[simp] theorem focus_cap (s : State) (e : EngineId) : (s.focus e).cap = s.cap := rfl
@[simp] theorem focus_gen (s : State) (e : EngineId) : (s.focus e).gen = s.gen := rfl
@[simp] theorem focus_playerH (s : State) (e : EngineId) : (s.focus e).playerH = s.playerH := rfl
@[simp] theorem focus_playerV (s : State) (e : EngineId) : (s.focus e).playerV = s.playerV := rfl
@[simp] theorem focus_err (s : State) (e : EngineId) : (s.focus e).err = s.err := rfl
@[simp] theorem focus_busErr (s : State) (e : EngineId) : (s.focus e).busErr = s.busErr := rfl
@[simp] theorem focus_capEvt (s : State) (e : EngineId) : (s.focus e).capEvt = s.capEvt := rfl
@[simp] theorem focus_genEvt (s : State) (e : EngineId) : (s.focus e).genEvt = s.genEvt := rfl

@[simp] theorem setEngine_eng (s : State) (e : EngineId) (v : Engine) :
    (s.setEngine e v).eng = s.eng.set e v := rfl
@[simp] theorem setMe_eng (s : State) (v : Engine) : (s.setMe v).eng = s.eng.set s.cur v := rfl
@[simp] theorem mapMe_eng (s : State) (f : Engine → Engine) :
    (s.mapMe f).eng = s.eng.set s.cur (f s.me) := rfl
@[simp] theorem setReq_req (s : State) (r : Requests) : (s.setReq r).req = r := rfl
@[simp] theorem mapReq_req (s : State) (f : Requests → Requests) : (s.mapReq f).req = f s.req := rfl
@[simp] theorem focus_cur (s : State) (e : EngineId) : (s.focus e).cur = e := rfl

/-! ### The engines of an updated state -/

@[simp] theorem engine_setEngine_self (s : State) (e : EngineId) (v : Engine) :
    (s.setEngine e v).engine e = v := engines_get_set_self _ _ _
@[simp] theorem engine_setEngine_ne (s : State) (e e' : EngineId) (v : Engine) (h : e' ≠ e) :
    (s.setEngine e v).engine e' = s.engine e' := engines_get_set_ne _ _ _ _ h
@[simp] theorem engine_mapMe_cur (s : State) (f : Engine → Engine) :
    (s.mapMe f).engine s.cur = f s.me := engines_get_set_self _ _ _
@[simp] theorem engine_mapMe_ne (s : State) (f : Engine → Engine) (e : EngineId) (h : e ≠ s.cur) :
    (s.mapMe f).engine e = s.engine e := engines_get_set_ne _ _ _ _ h
@[simp] theorem engine_setReq (s : State) (r : Requests) (e : EngineId) :
    (s.setReq r).engine e = s.engine e := rfl
@[simp] theorem engine_mapReq (s : State) (f : Requests → Requests) (e : EngineId) :
    (s.mapReq f).engine e = s.engine e := rfl
@[simp] theorem engine_focus (s : State) (e e' : EngineId) : (s.focus e).engine e' = s.engine e' := rfl

/-! ### The evaluated engine of an updated state -/

@[simp] theorem me_setMe (s : State) (v : Engine) : (s.setMe v).me = v := engines_get_set_self _ _ _
@[simp] theorem me_mapMe (s : State) (f : Engine → Engine) : (s.mapMe f).me = f s.me :=
  engines_get_set_self _ _ _
@[simp] theorem me_setReq (s : State) (r : Requests) : (s.setReq r).me = s.me := rfl
@[simp] theorem me_mapReq (s : State) (f : Requests → Requests) : (s.mapReq f).me = s.me := rfl
@[simp] theorem me_focus (s : State) (e : EngineId) : (s.focus e).me = s.engine e := rfl

@[simp] theorem mapMe_mapMe (s : State) (f g : Engine → Engine) :
    (s.mapMe f).mapMe g = s.mapMe (fun en => g (f en)) := by
  simp only [State.mapMe, me_setMe]
  simp [State.setMe, State.setEngine]

/-! ### What a word reads, under the updates of its own engine and requests -/

@[simp] theorem input_setEngine (s : State) (e : EngineId) (v : Engine) : (s.setEngine e v).input = s.input := rfl
@[simp] theorem edge_setEngine (s : State) (e : EngineId) (v : Engine) (b : Bank) : (s.setEngine e v).edge b = s.edge b := rfl
@[simp] theorem lutAt_setEngine (s : State) (e : EngineId) (v : Engine) (k : BitVec 5) : (s.setEngine e v).lutAt k = s.lutAt k := rfl
@[simp] theorem player_setEngine (s : State) (e : EngineId) (v : Engine) (g : SyncGen) : (s.setEngine e v).player g = s.player g := rfl
@[simp] theorem memory_setEngine (s : State) (e : EngineId) (v : Engine) (sp : Space) : (s.setEngine e v).memory sp = s.memory sp := rfl
@[simp] theorem byteAt_setEngine (s : State) (e : EngineId) (v : Engine) (sp : Space) (a : Nat) : (s.setEngine e v).byteAt sp a = s.byteAt sp a := rfl
@[simp] theorem input_setMe (s : State) (v : Engine) : (s.setMe v).input = s.input := rfl
@[simp] theorem edge_setMe (s : State) (v : Engine) (b : Bank) : (s.setMe v).edge b = s.edge b := rfl
@[simp] theorem lutAt_setMe (s : State) (v : Engine) (k : BitVec 5) : (s.setMe v).lutAt k = s.lutAt k := rfl
@[simp] theorem player_setMe (s : State) (v : Engine) (g : SyncGen) : (s.setMe v).player g = s.player g := rfl
@[simp] theorem memory_setMe (s : State) (v : Engine) (sp : Space) : (s.setMe v).memory sp = s.memory sp := rfl
@[simp] theorem byteAt_setMe (s : State) (v : Engine) (sp : Space) (a : Nat) : (s.setMe v).byteAt sp a = s.byteAt sp a := rfl
@[simp] theorem input_mapMe (s : State) (f : Engine → Engine) : (s.mapMe f).input = s.input := rfl
@[simp] theorem edge_mapMe (s : State) (f : Engine → Engine) (b : Bank) : (s.mapMe f).edge b = s.edge b := rfl
@[simp] theorem lutAt_mapMe (s : State) (f : Engine → Engine) (k : BitVec 5) : (s.mapMe f).lutAt k = s.lutAt k := rfl
@[simp] theorem player_mapMe (s : State) (f : Engine → Engine) (g : SyncGen) : (s.mapMe f).player g = s.player g := rfl
@[simp] theorem memory_mapMe (s : State) (f : Engine → Engine) (sp : Space) : (s.mapMe f).memory sp = s.memory sp := rfl
@[simp] theorem byteAt_mapMe (s : State) (f : Engine → Engine) (sp : Space) (a : Nat) : (s.mapMe f).byteAt sp a = s.byteAt sp a := rfl
@[simp] theorem input_setReq (s : State) (r : Requests) : (s.setReq r).input = s.input := rfl
@[simp] theorem edge_setReq (s : State) (r : Requests) (b : Bank) : (s.setReq r).edge b = s.edge b := rfl
@[simp] theorem lutAt_setReq (s : State) (r : Requests) (k : BitVec 5) : (s.setReq r).lutAt k = s.lutAt k := rfl
@[simp] theorem player_setReq (s : State) (r : Requests) (g : SyncGen) : (s.setReq r).player g = s.player g := rfl
@[simp] theorem memory_setReq (s : State) (r : Requests) (sp : Space) : (s.setReq r).memory sp = s.memory sp := rfl
@[simp] theorem byteAt_setReq (s : State) (r : Requests) (sp : Space) (a : Nat) : (s.setReq r).byteAt sp a = s.byteAt sp a := rfl
@[simp] theorem input_mapReq (s : State) (f : Requests → Requests) : (s.mapReq f).input = s.input := rfl
@[simp] theorem edge_mapReq (s : State) (f : Requests → Requests) (b : Bank) : (s.mapReq f).edge b = s.edge b := rfl
@[simp] theorem lutAt_mapReq (s : State) (f : Requests → Requests) (k : BitVec 5) : (s.mapReq f).lutAt k = s.lutAt k := rfl
@[simp] theorem player_mapReq (s : State) (f : Requests → Requests) (g : SyncGen) : (s.mapReq f).player g = s.player g := rfl
@[simp] theorem memory_mapReq (s : State) (f : Requests → Requests) (sp : Space) : (s.mapReq f).memory sp = s.memory sp := rfl
@[simp] theorem byteAt_mapReq (s : State) (f : Requests → Requests) (sp : Space) (a : Nat) : (s.mapReq f).byteAt sp a = s.byteAt sp a := rfl
@[simp] theorem input_focus (s : State) (e : EngineId) : (s.focus e).input = s.input := rfl
@[simp] theorem edge_focus (s : State) (e : EngineId) (b : Bank) : (s.focus e).edge b = s.edge b := rfl
@[simp] theorem lutAt_focus (s : State) (e : EngineId) (k : BitVec 5) : (s.focus e).lutAt k = s.lutAt k := rfl
@[simp] theorem player_focus (s : State) (e : EngineId) (g : SyncGen) : (s.focus e).player g = s.player g := rfl
@[simp] theorem memory_focus (s : State) (e : EngineId) (sp : Space) : (s.focus e).memory sp = s.memory sp := rfl
@[simp] theorem byteAt_focus (s : State) (e : EngineId) (sp : Space) (a : Nat) : (s.focus e).byteAt sp a = s.byteAt sp a := rfl

/-- The evaluated engine is the one of `cur`. -/
theorem me_eq (s : State) : s.me = s.engine s.cur := rfl

end Sys2Proof.Machine
end

