-- ==== Sys2Proof/Laws/Ops.lean ====
section
/-!
SUPPORT. One lemma for each operation the meanings share, saying what it can do: the operations that
ask for a write of shared state change the requests alone, the others the evaluated engine alone;
`commit` turns requests into effects; `evaluate` always answers a next state.
-/

namespace Sys2Proof.Machine

/-! ### Changes that stay within the evaluated engine and its requests -/

/-- Between `s` and `t` only the evaluated engine and the requests changed, and of the engine neither
the program, nor the configuration, nor `run`. -/
structure OwnWord (s t : State) : Prop where
  state : t = { s with eng := s.eng.set s.cur t.me, req := t.req }
  prog : t.me.prog = s.me.prog
  config : t.me.config = s.me.config
  run : t.me.run = s.me.run

theorem ownWord_refl (s : State) : OwnWord s s := by
  refine ⟨?_, rfl, rfl, rfl⟩
  rw [State.me, State.engine, engines_set_get]

/-- The form of the later state. -/
theorem ownWord_form {s t : State} (h : OwnWord s t) :
    ∃ (v : Engine) (r : Requests), t = (s.setMe v).setReq r := ⟨t.me, t.req, h.state⟩

/-- A state of that form. -/
theorem ownWord_of_form (s : State) (v : Engine) (r : Requests) (hp : v.prog = s.me.prog)
    (hc : v.config = s.me.config) (hr : v.run = s.me.run) : OwnWord s ((s.setMe v).setReq r) := by
  have hm : ((s.setMe v).setReq r).me = v := me_setMe s v
  refine ⟨?_, ?_, ?_, ?_⟩
  · rw [hm]; rfl
  · rw [hm, hp]
  · rw [hm, hc]
  · rw [hm, hr]

theorem ownWord_trans {s t u : State} (h : OwnWord s t) (k : OwnWord t u) : OwnWord s u := by
  obtain ⟨v, r, rfl⟩ := ownWord_form h
  obtain ⟨v', r', rfl⟩ := ownWord_form k
  have hp := k.prog.trans h.prog
  have hc := k.config.trans h.config
  have hr := k.run.trans h.run
  have hm : ((((s.setMe v).setReq r).setMe v').setReq r').me = v' := me_setMe _ v'
  have he : (((s.setMe v).setReq r).setMe v').setReq r' = (s.setMe v').setReq r' := by
    simp [State.setMe, State.setEngine, State.setReq]
  rw [hm] at hp hc hr
  rw [he]
  exact ownWord_of_form s v' r' hp hc hr

theorem ownWord_setReq (s : State) (r : Requests) : OwnWord s (s.setReq r) := by
  refine ⟨?_, rfl, rfl, rfl⟩
  rw [me_setReq, State.me, State.engine, engines_set_get]
  rfl

theorem ownWord_mapReq (s : State) (f : Requests → Requests) : OwnWord s (s.mapReq f) :=
  ownWord_setReq s _

/-- A change of the engine's own registers that leaves program, configuration and `run`. -/
theorem ownWord_mapMe (s : State) (f : Engine → Engine) (hp : (f s.me).prog = s.me.prog)
    (hc : (f s.me).config = s.me.config) (hr : (f s.me).run = s.me.run) : OwnWord s (s.mapMe f) := by
  refine ⟨?_, ?_, ?_, ?_⟩
  · rw [me_mapMe]; rfl
  · rw [me_mapMe, hp]
  · rw [me_mapMe, hc]
  · rw [me_mapMe, hr]

/-! ### The operations that only ask -/

theorem writeSidePin_eq (v : Bool) (s : State) :
    writeSidePin v s = s.setReq (writeSidePin v s).req := by
  unfold writeSidePin; split <;> rfl

theorem sideAction_eq (side : Side) (s : State) :
    sideAction side s = s.setReq (sideAction side s).req := by
  cases side
  · rfl
  · exact writeSidePin_eq false s
  · exact writeSidePin_eq true s

theorem setTarget_eq (target : SetTarget) (v : Bool) (s : State) :
    setTarget target v s = s.setReq (setTarget target v s).req := by
  cases target
  · exact writeSidePin_eq v s
  · rfl
  · rfl

theorem consumeFlag_eq (src : WaitSrc) (consume : Bool) (s : State) :
    consumeFlag src consume s = s.setReq (consumeFlag src consume s).req := by
  cases consume <;> cases src <;> rfl

@[simp] theorem me_writeSidePin (v : Bool) (s : State) : (writeSidePin v s).me = s.me := by
  rw [writeSidePin_eq, me_setReq]
@[simp] theorem me_sideAction (side : Side) (s : State) : (sideAction side s).me = s.me := by
  rw [sideAction_eq, me_setReq]
@[simp] theorem me_setTarget (target : SetTarget) (v : Bool) (s : State) :
    (setTarget target v s).me = s.me := by rw [setTarget_eq, me_setReq]
@[simp] theorem me_consumeFlag (src : WaitSrc) (consume : Bool) (s : State) :
    (consumeFlag src consume s).me = s.me := by rw [consumeFlag_eq, me_setReq]
@[simp] theorem me_writePix (v : Bool) (s : State) : (writePix v s).me = s.me := rfl
@[simp] theorem me_requestFlag (k : BitVec 2) (v : Bool) (s : State) :
    (requestFlag k v s).me = s.me := rfl
@[simp] theorem me_requestPush (w : Word) (s : State) : (requestPush w s).me = s.me := rfl
@[simp] theorem me_requestPop (s : State) : (requestPop s).me = s.me := rfl
@[simp] theorem me_requestRxStall (s : State) : (requestRxStall s).me = s.me := rfl
@[simp] theorem me_requestTxStall (s : State) : (requestTxStall s).me = s.me := rfl

@[simp] theorem input_sideAction (side : Side) (s : State) : (sideAction side s).input = s.input := by
  rw [sideAction_eq, input_setReq]
@[simp] theorem edge_sideAction (side : Side) (s : State) (b : Bank) :
    (sideAction side s).edge b = s.edge b := by rw [sideAction_eq, edge_setReq]
@[simp] theorem lutAt_sideAction (side : Side) (s : State) (k : BitVec 5) :
    (sideAction side s).lutAt k = s.lutAt k := by rw [sideAction_eq, lutAt_setReq]
@[simp] theorem params_sideAction (side : Side) (s : State) :
    (sideAction side s).params = s.params := by rw [sideAction_eq, setReq_params]
@[simp] theorem flags_sideAction (side : Side) (s : State) :
    (sideAction side s).flags = s.flags := by rw [sideAction_eq, setReq_flags]
@[simp] theorem out_sideAction (side : Side) (s : State) : (sideAction side s).out = s.out := by
  rw [sideAction_eq, setReq_out]
@[simp] theorem cur_sideAction (side : Side) (s : State) : (sideAction side s).cur = s.cur := by
  rw [sideAction_eq, setReq_cur]
@[simp] theorem out_setTarget (target : SetTarget) (v : Bool) (s : State) :
    (setTarget target v s).out = s.out := by rw [setTarget_eq, setReq_out]
@[simp] theorem flags_setTarget (target : SetTarget) (v : Bool) (s : State) :
    (setTarget target v s).flags = s.flags := by rw [setTarget_eq, setReq_flags]
@[simp] theorem out_consumeFlag (src : WaitSrc) (consume : Bool) (s : State) :
    (consumeFlag src consume s).out = s.out := by rw [consumeFlag_eq, setReq_out]
@[simp] theorem flags_consumeFlag (src : WaitSrc) (consume : Bool) (s : State) :
    (consumeFlag src consume s).flags = s.flags := by rw [consumeFlag_eq, setReq_flags]

theorem ownWord_sideAction (side : Side) (s : State) : OwnWord s (sideAction side s) := by
  rw [sideAction_eq]; exact ownWord_setReq _ _
theorem ownWord_setTarget (target : SetTarget) (v : Bool) (s : State) :
    OwnWord s (setTarget target v s) := by rw [setTarget_eq]; exact ownWord_setReq _ _
theorem ownWord_consumeFlag (src : WaitSrc) (consume : Bool) (s : State) :
    OwnWord s (consumeFlag src consume s) := by rw [consumeFlag_eq]; exact ownWord_setReq _ _

@[simp] theorem out_writePix (v : Bool) (s : State) : (writePix v s).out = s.out := rfl
@[simp] theorem flags_writePix (v : Bool) (s : State) : (writePix v s).flags = s.flags := rfl
@[simp] theorem out_requestFlag (k : BitVec 2) (v : Bool) (s : State) : (requestFlag k v s).out = s.out := rfl
@[simp] theorem flags_requestFlag (k : BitVec 2) (v : Bool) (s : State) : (requestFlag k v s).flags = s.flags := rfl
@[simp] theorem out_requestPush (w : Word) (s : State) : (requestPush w s).out = s.out := rfl
@[simp] theorem flags_requestPush (w : Word) (s : State) : (requestPush w s).flags = s.flags := rfl
@[simp] theorem out_requestPop (s : State) : (requestPop s).out = s.out := rfl
@[simp] theorem flags_requestPop (s : State) : (requestPop s).flags = s.flags := rfl
@[simp] theorem out_requestRxStall (s : State) : (requestRxStall s).out = s.out := rfl
@[simp] theorem flags_requestRxStall (s : State) : (requestRxStall s).flags = s.flags := rfl
@[simp] theorem out_requestTxStall (s : State) : (requestTxStall s).out = s.out := rfl
@[simp] theorem flags_requestTxStall (s : State) : (requestTxStall s).flags = s.flags := rfl

/-- How every acting word begins: no request, then the side action. -/
theorem ownWord_start (side : Side) (s : State) :
    OwnWord s (sideAction side (s.setReq Requests.none)) :=
  ownWord_trans (ownWord_setReq _ _) (ownWord_sideAction _ _)

/-! ### What the requests do to the pins -/

@[simp] theorem drive_none (o : OutPins) : Requests.none.drive o = o := rfl

theorem drive_writeSidePin (v : Bool) (s : State) (o : OutPins) :
    (writeSidePin v s).req.drive o = pinWritten s.me.config.sideSel v (s.req.drive o) := by
  unfold writeSidePin pinWritten; split <;> simp_all [Requests.drive]

/-- R92, R123: the side action writes the side-channel pin over what was asked before. -/
@[simp] theorem drive_sideAction (side : Side) (s : State) (o : OutPins) :
    (sideAction side s).req.drive o = sideWritten s.me.config.sideSel side (s.req.drive o) := by
  cases side
  · rfl
  · exact drive_writeSidePin false s o
  · exact drive_writeSidePin true s o

/-- R133: `SETO` writes its pin over what was asked before. -/
@[simp] theorem drive_setTarget (target : SetTarget) (v : Bool) (s : State) (o : OutPins) :
    (setTarget target v s).req.drive o =
      outAfterSet s.me.config.sideSel target v (s.req.drive o) := by
  cases target
  · exact drive_writeSidePin v s o
  · rfl
  · rename_i k
    simp only [setTarget, requestFlag, State.mapReq, setReq_req, Requests.flag, outAfterSet]
    split <;> rfl

@[simp] theorem drive_consumeFlag (src : WaitSrc) (consume : Bool) (s : State) (o : OutPins) :
    (consumeFlag src consume s).req.drive o = s.req.drive o := by
  cases consume <;> cases src <;> rfl
@[simp] theorem drive_writePix (v : Bool) (s : State) (o : OutPins) :
    (writePix v s).req.drive o = { s.req.drive o with pix := v } := rfl
@[simp] theorem drive_requestPush (w : Word) (s : State) (o : OutPins) :
    (requestPush w s).req.drive o = s.req.drive o := rfl
@[simp] theorem drive_requestPop (s : State) (o : OutPins) :
    (requestPop s).req.drive o = s.req.drive o := rfl
@[simp] theorem drive_requestRxStall (s : State) (o : OutPins) :
    (requestRxStall s).req.drive o = s.req.drive o := rfl
@[simp] theorem drive_requestTxStall (s : State) (o : OutPins) :
    (requestTxStall s).req.drive o = s.req.drive o := rfl

/-! ### What the side action leaves of the requests -/

@[simp] theorem flagSet_sideAction (side : Side) (s : State) :
    (sideAction side s).req.flagSet = s.req.flagSet := by
  cases side <;> first | rfl | (simp only [sideAction, writeSidePin]; split <;> rfl)
@[simp] theorem flagClr_sideAction (side : Side) (s : State) :
    (sideAction side s).req.flagClr = s.req.flagClr := by
  cases side <;> first | rfl | (simp only [sideAction, writeSidePin]; split <;> rfl)
@[simp] theorem rxStall_sideAction (side : Side) (s : State) :
    (sideAction side s).req.rxStall = s.req.rxStall := by
  cases side <;> first | rfl | (simp only [sideAction, writeSidePin]; split <;> rfl)
@[simp] theorem txStall_sideAction (side : Side) (s : State) :
    (sideAction side s).req.txStall = s.req.txStall := by
  cases side <;> first | rfl | (simp only [sideAction, writeSidePin]; split <;> rfl)
@[simp] theorem pop_sideAction (side : Side) (s : State) :
    (sideAction side s).req.pop = s.req.pop := by
  cases side <;> first | rfl | (simp only [sideAction, writeSidePin]; split <;> rfl)
@[simp] theorem push_sideAction (side : Side) (s : State) :
    (sideAction side s).req.push = s.req.push := by
  cases side <;> first | rfl | (simp only [sideAction, writeSidePin]; split <;> rfl)

/-! ### What the requests do to the evaluated engine -/

@[simp] theorem applyEngine_none (en : Engine) : Requests.none.applyEngine en = en := by
  simp [Requests.applyEngine, Requests.none, resolveSticky, nextFifo]

@[simp] theorem applyEngine_sideAction (side : Side) (s : State) (en : Engine) :
    (sideAction side s).req.applyEngine en = s.req.applyEngine en := by
  simp [Requests.applyEngine]

@[simp] theorem applyEngine_setTarget (target : SetTarget) (v : Bool) (s : State) (en : Engine) :
    (setTarget target v s).req.applyEngine en = s.req.applyEngine en := by
  cases target
  · simp only [setTarget, writeSidePin]; split <;> rfl
  · rfl
  · simp only [setTarget, requestFlag, State.mapReq, setReq_req, Requests.flag]; split <;> rfl

@[simp] theorem applyEngine_consumeFlag (src : WaitSrc) (consume : Bool) (s : State) (en : Engine) :
    (consumeFlag src consume s).req.applyEngine en = s.req.applyEngine en := by
  cases consume <;> cases src <;> rfl

@[simp] theorem applyEngine_writePix (v : Bool) (s : State) (en : Engine) :
    (writePix v s).req.applyEngine en = s.req.applyEngine en := rfl

/-- What the requests leave of an engine: all but the stall flags and the FIFO. -/
@[simp] theorem applyEngine_prog (r : Requests) (en : Engine) : (r.applyEngine en).prog = en.prog := rfl
@[simp] theorem applyEngine_pc (r : Requests) (en : Engine) : (r.applyEngine en).pc = en.pc := rfl
@[simp] theorem applyEngine_x (r : Requests) (en : Engine) : (r.applyEngine en).x = en.x := rfl
@[simp] theorem applyEngine_y (r : Requests) (en : Engine) : (r.applyEngine en).y = en.y := rfl
@[simp] theorem applyEngine_sr (r : Requests) (en : Engine) : (r.applyEngine en).sr = en.sr := rfl
@[simp] theorem applyEngine_cnt (r : Requests) (en : Engine) : (r.applyEngine en).cnt = en.cnt := rfl
@[simp] theorem applyEngine_dly (r : Requests) (en : Engine) : (r.applyEngine en).dly = en.dly := rfl
@[simp] theorem applyEngine_rem (r : Requests) (en : Engine) : (r.applyEngine en).rem = en.rem := rfl
@[simp] theorem applyEngine_run (r : Requests) (en : Engine) : (r.applyEngine en).run = en.run := rfl
@[simp] theorem applyEngine_fault (r : Requests) (en : Engine) :
    (r.applyEngine en).fault = en.fault := rfl
@[simp] theorem applyEngine_config (r : Requests) (en : Engine) :
    (r.applyEngine en).config = en.config := rfl

/-! ### Commit -/

@[simp] theorem commit_cur (s : State) : (commit s).cur = s.cur := rfl
@[simp] theorem commit_req (s : State) : (commit s).req = s.req := rfl
@[simp] theorem commit_out (s : State) : (commit s).out = s.req.drive s.out := rfl
@[simp] theorem commit_flags (s : State) :
    (commit s).flags = resolveFlags s.flags s.req.flagSet s.req.flagClr := rfl
@[simp] theorem commit_me (s : State) : (commit s).me = s.req.applyEngine s.me :=
  engines_get_set_self _ _ _
theorem commit_engine_ne (s : State) (e : EngineId) (h : e ≠ s.cur) :
    (commit s).engine e = s.engine e := engines_get_set_ne _ _ _ _ h

/-- The frame of a word that acts: only its engine, the pins and the flags change. -/
theorem wordFrame_commit {s t : State} (h : OwnWord s t) : WordFrame s (commit t) := by
  obtain ⟨v, r, rfl⟩ := ownWord_form h
  refine ⟨rfl, fun _ _ => rfl, fun e he => ?_, ?_, ?_, ?_⟩
  · rw [commit_engine_ne ((s.setMe v).setReq r) e he]
    exact engines_get_set_ne _ _ _ _ he
  · rw [commit_me]; exact h.prog
  · rw [commit_me]; exact h.config
  · rw [commit_me]; exact h.run

/-! ### Flags -/

@[simp] theorem resolveFlags_none (f : BitVec 4) : resolveFlags f 0#4 0#4 = f := by
  revert f; decide

/-- R133: the flags after a `SETO` that asks alone. -/
theorem flags_after_setTarget (target : SetTarget) (v : Bool) (s : State) (f : BitVec 4)
    (hs : s.req.flagSet = 0) (hc : s.req.flagClr = 0) :
    resolveFlags f (setTarget target v s).req.flagSet (setTarget target v s).req.flagClr =
      flagsAfterSet target v f := by
  cases target
  · have : ∀ v, (writeSidePin v s).req.flagSet = 0 ∧ (writeSidePin v s).req.flagClr = 0 := by
      intro v; unfold writeSidePin; split <;> exact ⟨hs, hc⟩
    simp [setTarget, flagsAfterSet, this]
  · simp [setTarget, writePix, State.mapReq, hs, hc, flagsAfterSet]
  · simp only [setTarget, requestFlag, State.mapReq, setReq_req, Requests.flag, flagsAfterSet]
    cases v
    · simp [hs, hc, resolveFlags]
    · simp only [hs, hc, resolveFlags, if_true]
      congr 1
      · revert f; decide
      · simp

/-- R126: the flags after a consuming `WAIT` that asks alone. -/
theorem flags_after_consume (src : WaitSrc) (consume : Bool) (s : State) (f : BitVec 4)
    (hs : s.req.flagSet = 0) (hc : s.req.flagClr = 0) :
    resolveFlags f (consumeFlag src consume s).req.flagSet (consumeFlag src consume s).req.flagClr =
      flagsAfterWait src consume f := by
  cases consume
  · have : consumeFlag src false s = s := by cases src <;> rfl
    rw [this, hs, hc]; cases src <;> exact resolveFlags_none f
  · cases src
    case flag k =>
      simp [consumeFlag, requestFlag, State.mapReq, Requests.flag, flagsAfterWait, hs, hc,
        resolveFlags]
    all_goals simp only [consumeFlag, hs, hc, flagsAfterWait]; exact resolveFlags_none f

/-! ### Completion -/

@[simp] theorem me_completeAt (target : Slot) (dly : BitVec 3) (s : State) :
    (completeAt target dly s).me = { s.me with pc := target, dly := dly } := me_mapMe _ _
@[simp] theorem me_complete (dly : BitVec 3) (s : State) :
    (complete dly s).me = { s.me with pc := s.me.pc + 1, dly := dly } := me_mapMe _ _
@[simp] theorem req_completeAt (target : Slot) (dly : BitVec 3) (s : State) :
    (completeAt target dly s).req = s.req := rfl
@[simp] theorem req_complete (dly : BitVec 3) (s : State) : (complete dly s).req = s.req := rfl
@[simp] theorem out_completeAt (target : Slot) (dly : BitVec 3) (s : State) :
    (completeAt target dly s).out = s.out := rfl
@[simp] theorem out_complete (dly : BitVec 3) (s : State) : (complete dly s).out = s.out := rfl
@[simp] theorem flags_completeAt (target : Slot) (dly : BitVec 3) (s : State) :
    (completeAt target dly s).flags = s.flags := rfl
@[simp] theorem flags_complete (dly : BitVec 3) (s : State) :
    (complete dly s).flags = s.flags := rfl

theorem ownWord_completeAt (target : Slot) (dly : BitVec 3) (s : State) :
    OwnWord s (completeAt target dly s) := ownWord_mapMe _ _ rfl rfl rfl
theorem ownWord_complete (dly : BitVec 3) (s : State) : OwnWord s (complete dly s) :=
  ownWord_completeAt _ _ _

/-! ### Faults and evaluation -/

/-- A raised fault is `faultedBy`: the fault field and nothing else (R241). -/
theorem raiseFault_eq (f : EngineFault) (s : State) :
    raiseFault f (s.setReq Requests.none) = faultedBy f s := rfl

/-- A word whose checks find a fault. -/
theorem evaluate_fault (f : EngineFault) (body : State → State) (s : State) :
    evaluate (some f) body s = .next (faultedBy f s) := rfl

/-- A word that passes its checks. -/
theorem evaluate_ok (body : State → State) (s : State) :
    evaluate none body s = .next (commit (body (s.setReq Requests.none))) := rfl

/-- An evaluation always answers a next state. -/
theorem evaluate_next (fault : Option EngineFault) (body : State → State) (s : State) :
    ∃ t, evaluate fault body s = .next t := by
  cases fault <;> exact ⟨_, rfl⟩

/-- Every meaning always answers a next state: an engine fault is one too (R122, R241). -/
theorem exec_next (i : Instr) (s : State) : ∃ t, exec i s = .next t := by
  cases i <;> simp only [exec, execJmp, execWait, execShiftIn, execShiftOut, execGetX, execGetY,
    getField, execGetExec, execSeto, execLoad, execNop] <;> exact evaluate_next _ _ _

/-- Check 2 of R122 fails. -/
theorem checkWord_direction {side : Side} {d : Dir} {p : Bool} {c : EngineConfig} (h : c.dir ≠ d) :
    checkWord side (some d) p c = some .wrongDirection := by
  simp [checkWord, h.symm]

/-- Checks 2 and 3 of R122 pass. -/
theorem checkWord_ok {side : Side} {need : Option Dir} {c : EngineConfig}
    (hd : ∀ d, need = some d → c.dir = d) (hs : side = .none ∨ c.sideSel ≠ .none) :
    checkWord side need false c = none := by
  cases need with
  | none => rcases hs with h | h <;> simp [checkWord, h]
  | some d => rcases hs with h | h <;> simp [checkWord, h, hd d rfl]

end Sys2Proof.Machine
end

