-- ==== Sys2Proof/Laws/Operands.lean ====
section
/-!
SUPPORT. One lemma for each operand form and each bit-moving operation: it has the meaning that the
tables of the spec give it (the terms of Safety.lean), and it changes its own engine and requests
alone.
-/

namespace Sys2Proof.Machine

/-! ### Checks -/

/-- Checks 2 and 3 of R122 pass for a word that needs no direction. -/
theorem checkWord_none {side : Side} {s : State} (h : SideReady side s) :
    checkWord side none false s.me.config = none := checkWord_ok (by simp) h

/-- Checks 2 and 3 of R122 pass for a word on an engine of its direction. -/
theorem checkWord_some {side : Side} {s : State} {d : Dir} (h : SideReady side s)
    (hd : s.me.config.dir = d) : checkWord side (some d) false s.me.config = none :=
  checkWord_ok (by simp [hd]) h

/-- `GET` of `n` bits passes its checks when the supply has them, or there is none. -/
theorem checkGet_ok {side : Side} {n : Nat} {s : State} (h : SideReady side s)
    (hd : s.me.config.dir = .tx) (hu : ∀ u, supply s.me = some u → n ≤ u.cnt.toNat) :
    checkGet side n s.me = none := by
  unfold checkGet
  rw [checkWord_some h hd]
  have : fieldUnderflow s.me n = false := by
    unfold fieldUnderflow
    split
    · rename_i u hs; simp [hu u hs]
    · rfl
  simp [this]

/-! ### Operands -/

theorem jumpTaken_iff (s : State) (cond : Cond) : jumpTaken s cond = true ↔ ConditionHolds s cond := by
  cases cond <;> simp [jumpTaken, ConditionHolds]

theorem waitValue_iff (s : State) (src : WaitSrc) : waitValue s src = true ↔ SourceHigh s src := by
  cases src <;>
    simp [waitValue, SourceHigh, State.hsFall, State.hsRise, State.vsFall, State.vsRise, fell, rose,
      State.flag]

theorem waitValue_eq_iff (s : State) (level : Bool) (src : WaitSrc) :
    waitValue s src = level ↔ WaitOver s level src := by
  rw [WaitOver, ← waitValue_iff]
  cases level <;> cases waitValue s src <;> simp

theorem countValue_toNat (s : State) (c : Count) : (countValue s c).toNat = bitCount s c := by
  cases c with
  | lut k => rfl
  | imm m =>
    have h : (1 : Word).toNat = 1 := rfl
    simp only [countValue, bitCount, BitVec.toNat_add, BitVec.toNat_setWidth, h]
    omega

theorem loadValue_eq (s : State) (src : LoadSrc) : loadValue s src = loadOperand s src := by
  cases src with
  | lut k => rfl
  | imm v =>
    apply BitVec.eq_of_toNat_eq
    simp [loadValue, loadOperand]

theorem bitsLeft_of {s : State} {count : Count} {r : Word} (h : TransferLeft s count r) :
    bitsLeft s count = r := by
  apply BitVec.eq_of_toNat_eq
  rw [h.2, bitsLeft]
  split
  · exact countValue_toNat s count
  · rfl

/-- A supply, as the statements speak of it. -/
theorem supply_of {en : Engine} {w : Word} {c : BitVec 6} {rest : List Word}
    (h : Supplies en w c rest) :
    supply en = some { word := w, cnt := c, refill := decide (en.cnt = 0) } := by
  rcases h with ⟨h0, rfl, rfl, _⟩ | ⟨h0, rfl, hf⟩
  · simp only [supply, if_neg h0, decide_eq_false h0]
  · simp only [supply, if_pos h0, decide_eq_true h0, hf]

theorem supply_none {en : Engine} (h : en.cnt = 0) (hf : en.fifo = []) : supply en = none := by
  simp [supply, h, hf]

/-- The FIFO that a supply leaves behind. -/
theorem rest_of {en : Engine} {w : Word} {c : BitVec 6} {rest : List Word}
    (h : Supplies en w c rest) : rest = if en.cnt = 0 then en.fifo.tail else en.fifo := by
  rcases h with ⟨h0, _, _, rfl⟩ | ⟨h0, _, hf⟩
  · rw [if_neg h0]
  · rw [if_pos h0, hf, List.tail_cons]

/-! ### Moving bits -/

theorem ownWord_decrementFor (cond : Cond) (s : State) : OwnWord s (decrementFor cond s) := by
  cases cond
  case xDec => exact ownWord_mapMe s (fun en => { en with x := en.x - 1 }) rfl rfl rfl
  case yDec => exact ownWord_mapMe s (fun en => { en with y := en.y - 1 }) rfl rfl rfl
  all_goals exact ownWord_refl s

@[simp] theorem req_decrementFor (cond : Cond) (s : State) : (decrementFor cond s).req = s.req := by
  cases cond <;> rfl
@[simp] theorem out_decrementFor (cond : Cond) (s : State) : (decrementFor cond s).out = s.out := by
  cases cond <;> rfl
@[simp] theorem flags_decrementFor (cond : Cond) (s : State) :
    (decrementFor cond s).flags = s.flags := by cases cond <;> rfl
@[simp] theorem me_decrementFor (cond : Cond) (s : State) :
    (decrementFor cond s).me =
      { s.me with
        x := if cond = .xDec then s.me.x - 1 else s.me.x
        y := if cond = .yDec then s.me.y - 1 else s.me.y } := by
  cases cond <;> simp [decrementFor]

theorem ownWord_takeBits (u : Supply) (n : Nat) (s : State) : OwnWord s (takeBits u n s) := by
  have h : OwnWord s (s.mapMe fun en =>
      { en with sr := u.word <<< n, cnt := u.cnt - BitVec.ofNat 6 n }) :=
    ownWord_mapMe _ _ rfl rfl rfl
  unfold takeBits
  split
  · exact ownWord_trans h (ownWord_mapReq _ _)
  · exact h

@[simp] theorem me_takeBits (u : Supply) (n : Nat) (s : State) :
    (takeBits u n s).me =
      { s.me with sr := u.word <<< n, cnt := u.cnt - BitVec.ofNat 6 n } := by
  unfold takeBits; split <;> simp
@[simp] theorem pix_takeBits (u : Supply) (n : Nat) (s : State) :
    (takeBits u n s).req.pix = s.req.pix := by unfold takeBits; split <;> rfl
@[simp] theorem hsync_takeBits (u : Supply) (n : Nat) (s : State) :
    (takeBits u n s).req.hsync = s.req.hsync := by unfold takeBits; split <;> rfl
@[simp] theorem vsync_takeBits (u : Supply) (n : Nat) (s : State) :
    (takeBits u n s).req.vsync = s.req.vsync := by unfold takeBits; split <;> rfl
@[simp] theorem flagSet_takeBits (u : Supply) (n : Nat) (s : State) :
    (takeBits u n s).req.flagSet = s.req.flagSet := by unfold takeBits; split <;> rfl
@[simp] theorem flagClr_takeBits (u : Supply) (n : Nat) (s : State) :
    (takeBits u n s).req.flagClr = s.req.flagClr := by unfold takeBits; split <;> rfl
@[simp] theorem rxStall_takeBits (u : Supply) (n : Nat) (s : State) :
    (takeBits u n s).req.rxStall = s.req.rxStall := by unfold takeBits; split <;> rfl
@[simp] theorem txStall_takeBits (u : Supply) (n : Nat) (s : State) :
    (takeBits u n s).req.txStall = s.req.txStall := by unfold takeBits; split <;> rfl
@[simp] theorem push_takeBits (u : Supply) (n : Nat) (s : State) :
    (takeBits u n s).req.push = s.req.push := by unfold takeBits; split <;> rfl
@[simp] theorem pop_takeBits (u : Supply) (n : Nat) (s : State) :
    (takeBits u n s).req.pop = (u.refill || s.req.pop) := by
  unfold takeBits; split <;> rename_i h <;> simp [h, requestPop]
@[simp] theorem drive_takeBits (u : Supply) (n : Nat) (s : State) (o : OutPins) :
    (takeBits u n s).req.drive o = s.req.drive o := by unfold takeBits; split <;> rfl
@[simp] theorem out_takeBits (u : Supply) (n : Nat) (s : State) : (takeBits u n s).out = s.out := by
  unfold takeBits; split <;> rfl
@[simp] theorem flags_takeBits (u : Supply) (n : Nat) (s : State) :
    (takeBits u n s).flags = s.flags := by unfold takeBits; split <;> rfl

theorem ownWord_deliver (w : Word) (s : State) : OwnWord s (deliver w s) := by
  unfold deliver; split <;> exact ownWord_mapReq _ _

theorem ownWord_sampleBit (bit : Bool) (s : State) : OwnWord s (sampleBit bit s) := by
  unfold sampleBit
  split
  · exact ownWord_trans (ownWord_mapMe _ _ rfl rfl rfl) (ownWord_deliver _ _)
  · exact ownWord_mapMe _ _ rfl rfl rfl

theorem ownWord_advanceTransfer (r : Word) (dly : BitVec 3) (s : State) :
    OwnWord s (advanceTransfer r dly s) := by
  have h : OwnWord s (s.mapMe fun en => { en with rem := r - 1 }) := ownWord_mapMe _ _ rfl rfl rfl
  unfold advanceTransfer
  split
  · exact ownWord_trans h (ownWord_complete _ _)
  · exact h

@[simp] theorem me_advanceTransfer (r : Word) (dly : BitVec 3) (s : State) :
    (advanceTransfer r dly s).me =
      { s.me with
        rem := r - 1
        pc := if r - 1 = 0 then s.me.pc + 1 else s.me.pc
        dly := if r - 1 = 0 then dly else s.me.dly } := by
  unfold advanceTransfer; split <;> simp [*]
@[simp] theorem req_advanceTransfer (r : Word) (dly : BitVec 3) (s : State) :
    (advanceTransfer r dly s).req = s.req := by unfold advanceTransfer; split <;> rfl
@[simp] theorem out_advanceTransfer (r : Word) (dly : BitVec 3) (s : State) :
    (advanceTransfer r dly s).out = s.out := by unfold advanceTransfer; split <;> rfl
@[simp] theorem flags_advanceTransfer (r : Word) (dly : BitVec 3) (s : State) :
    (advanceTransfer r dly s).flags = s.flags := by unfold advanceTransfer; split <;> rfl

/-- `{SR[30:0], bit}` (R28). -/
theorem shiftInto_eq (sr : Word) (bit : Bool) :
    shiftInto sr bit = sr.extractLsb' 0 31 ++ BitVec.ofBool bit := by
  apply BitVec.eq_of_getLsbD_eq
  intro i hi
  simp only [shiftInto, BitVec.getLsbD_or, BitVec.getLsbD_shiftLeft, BitVec.getLsbD_setWidth,
    BitVec.getLsbD_append, BitVec.getLsbD_extractLsb', BitVec.getLsbD_ofBool]
  rcases Nat.eq_zero_or_pos i with rfl | h
  · simp
  · have h1 : ¬ i < 1 := by omega
    have h2 : i ≠ 0 := by omega
    simp [h1, h2, hi, show i - 1 < 31 by omega]

/-- The `n` most significant bits (R131). -/
theorem topBits_eq (w : Word) (m : Nat) (h : m < 32) :
    topBits w (m + 1) = (w.extractLsb' (31 - m) (m + 1)).setWidth 32 := by
  apply BitVec.eq_of_getLsbD_eq
  intro i hi
  simp only [topBits, BitVec.getLsbD_ushiftRight, BitVec.getLsbD_setWidth,
    BitVec.getLsbD_extractLsb']
  by_cases hm : i < m + 1
  · simp [hm, hi]
  · simp only [hm, decide_false, Bool.false_and, Bool.and_false]
    exact BitVec.getLsbD_of_ge _ _ (by omega)

end Sys2Proof.Machine
end

