-- ==== Sys2Proof/Laws/Exec.lean ====
section
/-!
SUPPORT. What the meaning of any word can do, said once: its checks find a fault, which is all that
happens (R122), or the word acts on its own engine and its requests, which are then committed.
-/

namespace Sys2Proof.Machine

/-- The checks of a word on an engine (R122). -/
def checkOf (i : Instr) (en : Engine) : Option EngineFault :=
  match i with
  | .jmp side _ _ _ => checkWord side none false en.config
  | .wait side dly level src consume => checkWait side dly level src consume en.config
  | .shiftIn side _ _ => checkWord side (some .rx) false en.config
  | .shiftOut side _ _ => checkWord side (some .tx) (!en.config.pixDrv) en.config
  | .getX side _ m => checkGet side (m.toNat + 1) en
  | .getY side _ m => checkGet side (m.toNat + 1) en
  | .getExec side _ => checkExec side en
  | .seto side _ target _ => checkWord side none (targetPinMissing en.config target) en.config
  | .load side _ _ _ => checkWord side none false en.config
  | .nop side _ => checkWord side none false en.config

/-- `exec` is the evaluation of the word's checks and of some body. -/
theorem exec_eq_evaluate (i : Instr) (s : State) :
    ∃ body, exec i s = evaluate (checkOf i s.me) body s := by
  cases i <;> simp only [exec, execJmp, execWait, execShiftIn, execShiftOut, execGetX, execGetY,
    getField, execGetExec, execSeto, execLoad, execNop] <;> exact ⟨_, rfl⟩

/-- R122, R241: a word whose checks find a fault sets the fault field and does nothing else. -/
theorem exec_fault {i : Instr} {s : State} {f : EngineFault} (h : checkOf i s.me = some f) :
    exec i s = .next (faultedBy f s) := by
  obtain ⟨body, hb⟩ := exec_eq_evaluate i s
  rw [hb, h, evaluate_fault]

/-- What a word that acts leaves of its engine and asks of its FIFO: fewer than 32 bits in `SR` if
there were fewer, a push only from an RX engine with room, a pop only of a TX engine. -/
structure ActsWithin (s t : State) : Prop where
  bits : s.me.cnt.toNat < 32 → t.me.cnt.toNat < 32
  push : t.req.push.isSome = true →
    s.me.config.dir = .rx ∧ s.me.fifo.length < s.params.fifoDepth
  pop : t.req.pop = true → s.me.config.dir = .tx ∧ s.me.fifo ≠ []
  fifo : t.me.fifo = s.me.fifo
  rxStall : t.me.rxStall = s.me.rxStall
  txStall : t.me.txStall = s.me.txStall
  fault : t.me.fault = s.me.fault
  rxAsked : t.req.rxStall = true → s.me.config.dir = .rx
  txAsked : t.req.txStall = true → s.me.config.dir = .tx

theorem checkWord_dir {side : Side} {d : Dir} {p : Bool} {c : EngineConfig}
    (h : checkWord side (some d) p c = none) : c.dir = d := by
  by_contra hd
  rw [checkWord_direction hd] at h
  cases h

theorem checkGet_dir {side : Side} {n : Nat} {en : Engine} (h : checkGet side n en = none) :
    en.config.dir = .tx ∧ fieldUnderflow en n = false := by
  unfold checkGet at h
  split at h
  · cases h
  · rename_i hw
    refine ⟨checkWord_dir hw, ?_⟩
    by_contra hf
    simp [Bool.not_eq_false] at hf
    simp [hf] at h

theorem checkExec_get {side : Side} {en : Engine} (h : checkExec side en = none) :
    checkGet side 16 en = none := by
  unfold checkExec at h
  split at h
  · cases h
  · rename_i hg; exact hg

/-- A supply that `n` bits are taken from. -/
theorem supply_facts {en : Engine} {u : Supply} (h : supply en = some u) :
    1 ≤ u.cnt.toNat ∧ (en.cnt.toNat < 32 → u.cnt.toNat ≤ 32) ∧
    (u.refill = true → en.fifo ≠ []) := by
  unfold supply at h
  split at h
  · split at h
    · cases h
    · rename_i hf
      cases h
      exact ⟨(by decide : 1 ≤ (32 : BitVec 6).toNat), fun _ => (by decide : (32 : BitVec 6).toNat ≤ 32),
        fun _ => by simp [hf]⟩
  · rename_i h0
    cases h
    refine ⟨?_, fun h => by show en.cnt.toNat ≤ 32; omega, fun h => by cases h⟩
    show 1 ≤ en.cnt.toNat
    rcases Nat.eq_zero_or_pos en.cnt.toNat with hz | hz
    · exact absurd (BitVec.eq_of_toNat_eq hz) h0
    · exact hz

/-- `c - n` as a number. -/
theorem cnt_sub_toNat (c : BitVec 6) (n : Nat) (h : n ≤ c.toNat) :
    (c - BitVec.ofNat 6 n).toNat = c.toNat - n := by
  have := c.isLt
  rw [BitVec.toNat_sub_of_le]
  · rw [BitVec.toNat_ofNat, Nat.mod_eq_of_lt (by omega)]
  · rw [BitVec.le_def, BitVec.toNat_ofNat, Nat.mod_eq_of_lt (by omega)]; exact h

/-! ### A word that acts -/

/-- A state reached by the side action and completions alone. -/
theorem actsWithin_of_quiet {s t : State} (hc : t.me.cnt = s.me.cnt) (hf : t.me.fifo = s.me.fifo)
    (hr : t.me.rxStall = s.me.rxStall) (hx : t.me.txStall = s.me.txStall)
    (ha : t.me.fault = s.me.fault) (hp : t.req.push = none) (ho : t.req.pop = false)
    (hra : t.req.rxStall = false) (hta : t.req.txStall = false) : ActsWithin s t :=
  ⟨by rw [hc]; exact id, by simp [hp], by simp [ho], hf, hr, hx, ha, by simp [hra], by simp [hta]⟩

theorem quiet_setTarget (target : SetTarget) (v : Bool) (s : State) :
    (setTarget target v s).req.push = s.req.push ∧ (setTarget target v s).req.pop = s.req.pop ∧
    (setTarget target v s).req.rxStall = s.req.rxStall ∧
    (setTarget target v s).req.txStall = s.req.txStall := by
  cases target
  · simp only [setTarget, writeSidePin]; split <;> exact ⟨rfl, rfl, rfl, rfl⟩
  · exact ⟨rfl, rfl, rfl, rfl⟩
  · simp only [setTarget, requestFlag, State.mapReq, setReq_req, Requests.flag]
    split <;> exact ⟨rfl, rfl, rfl, rfl⟩

theorem quiet_consumeFlag (src : WaitSrc) (consume : Bool) (s : State) :
    (consumeFlag src consume s).req.push = s.req.push ∧
    (consumeFlag src consume s).req.pop = s.req.pop ∧
    (consumeFlag src consume s).req.rxStall = s.req.rxStall ∧
    (consumeFlag src consume s).req.txStall = s.req.txStall := by
  cases consume <;> cases src <;> exact ⟨rfl, rfl, rfl, rfl⟩

/-- `tx_stall` asked by a held word of a TX engine. -/
theorem actsWithin_txStall (side : Side) (s : State) (hd : s.me.config.dir = .tx) :
    ActsWithin s (requestTxStall (sideAction side (s.setReq Requests.none))) := by
  constructor <;> simp [requestTxStall, Requests.none, hd]

/-- One sample of `IN` on an RX engine. -/
theorem actsWithin_sample (side : Side) (bit : Bool) (r : Word) (dly : BitVec 3) (s : State)
    (hd : s.me.config.dir = .rx) :
    ActsWithin s (advanceTransfer r dly
      (sampleBit bit (sideAction side (s.setReq Requests.none)))) := by
  unfold sampleBit
  split
  · unfold deliver
    split
    · rename_i h
      have h' : s.me.fifo.length < s.params.fifoDepth := by simpa using h
      constructor <;> simp [requestPush, Requests.none, hd, h']
    · constructor <;> simp [requestRxStall, Requests.none, hd]
  · rename_i h
    have h' : s.me.cnt + 1 ≠ 32 := by simpa using h
    refine ⟨fun hb => ?_, ?_, ?_, ?_, ?_, ?_, ?_, ?_, ?_⟩ <;> simp [Requests.none]
    have : s.me.cnt.toNat + 1 ≠ 32 := fun hc => h' (by
      apply BitVec.eq_of_toNat_eq
      rw [BitVec.toNat_add]; show (s.me.cnt.toNat + 1) % 64 = 32
      omega)
    omega

/-- Bits taken from a supply by a TX engine. -/
theorem actsWithin_take {u : Supply} {n : Nat} {s t : State} (hu : supply s.me = some u)
    (hn : 1 ≤ n) (hc : n ≤ u.cnt.toNat) (hd : s.me.config.dir = .tx)
    (h1 : t.me.cnt = u.cnt - BitVec.ofNat 6 n) (hf : t.me.fifo = s.me.fifo)
    (hr : t.me.rxStall = s.me.rxStall) (hx : t.me.txStall = s.me.txStall)
    (ha : t.me.fault = s.me.fault) (hp : t.req.push = none) (ho : t.req.pop = u.refill)
    (hra : t.req.rxStall = false) : ActsWithin s t := by
  obtain ⟨_, h32, hre⟩ := supply_facts hu
  refine ⟨fun hb => ?_, by simp [hp], fun h => ⟨hd, hre (ho ▸ h)⟩, hf, hr, hx, ha, by simp [hra],
    fun _ => hd⟩
  rw [h1, cnt_sub_toNat _ _ hc]
  have := h32 hb
  omega

theorem supply_enough {en : Engine} {n : Nat} {u : Supply} (h : fieldUnderflow en n = false)
    (hu : supply en = some u) : n ≤ u.cnt.toNat := by
  unfold fieldUnderflow at h
  rw [hu] at h
  simpa using h

/-- `GET` into a counter. -/
theorem getField_acts (side : Side) (dly : BitVec 3) (n : Nat) (hn : 1 ≤ n)
    (store : Word → Engine → Engine)
    (hs : ∀ v en, (store v en).prog = en.prog ∧ (store v en).config = en.config ∧
      (store v en).run = en.run ∧ (store v en).cnt = en.cnt ∧ (store v en).fifo = en.fifo ∧
      (store v en).rxStall = en.rxStall ∧ (store v en).txStall = en.txStall ∧
      (store v en).fault = en.fault) (s : State)
    (h : checkGet side n s.me = none) :
    ∃ t, OwnWord s t ∧ ActsWithin s t ∧ getField side dly n store s = .next (commit t) := by
  obtain ⟨hd, hf⟩ := checkGet_dir h
  simp only [getField, h, evaluate_ok]
  cases hu : supply s.me with
  | none =>
    refine ⟨_, ?_, actsWithin_txStall side s hd, by simp only [me_setReq, hu]⟩
    exact ownWord_trans (ownWord_start _ _) (ownWord_mapReq _ _)
  | some u =>
    refine ⟨_, ?_, ?_, by simp only [me_setReq, hu]; rfl⟩
    · exact ownWord_trans (ownWord_start _ _) (ownWord_trans (ownWord_takeBits _ _ _)
        (ownWord_trans (ownWord_mapMe _ _ (hs _ _).1 (hs _ _).2.1 (hs _ _).2.2.1)
          (ownWord_complete _ _)))
    · apply actsWithin_take hu hn (supply_enough hf hu) hd <;> simp [hs, Requests.none]

theorem ownWord_runExecutable (x : Executable) (s : State) : OwnWord s (runExecutable x s) := by
  unfold runExecutable
  cases x.set with
  | none => exact ownWord_trans (ownWord_sideAction _ _) (ownWord_complete _ _)
  | some p =>
    exact ownWord_trans (ownWord_sideAction _ _)
      (ownWord_trans (ownWord_setTarget p.1 p.2 _) (ownWord_complete _ _))

/-- Every word that passes its checks acts within its engine and its requests. -/
theorem exec_acts {i : Instr} {s : State} (h : checkOf i s.me = none) :
    ∃ t, OwnWord s t ∧ ActsWithin s t ∧ exec i s = .next (commit t) := by
  cases i
  case jmp side dly cond target =>
    refine ⟨_, ?_, ?_, by simp only [checkOf] at h; simp only [exec, execJmp, h, evaluate_ok]; rfl⟩
    · exact ownWord_trans (ownWord_start _ _) (ownWord_trans (ownWord_decrementFor _ _)
        (ownWord_completeAt _ _ _))
    · apply actsWithin_of_quiet <;> simp [Requests.none]
  case wait side dly level src consume =>
    simp only [checkOf] at h
    simp only [exec, execWait, h, evaluate_ok]
    split
    · refine ⟨_, ?_, ?_, rfl⟩
      · exact ownWord_trans (ownWord_start _ _) (ownWord_trans (ownWord_consumeFlag _ _ _)
          (ownWord_complete _ _))
      · apply actsWithin_of_quiet <;> simp [quiet_consumeFlag, Requests.none]
    · exact ⟨_, ownWord_start _ _, by apply actsWithin_of_quiet <;> simp [Requests.none], rfl⟩
  case shiftIn side dly count =>
    simp only [checkOf] at h
    have hd := checkWord_dir h
    simp only [exec, execShiftIn, h, evaluate_ok]
    split
    · refine ⟨_, ownWord_trans (ownWord_start _ _) (ownWord_complete _ _), ?_, rfl⟩
      apply actsWithin_of_quiet <;> simp [Requests.none]
    · refine ⟨_, ?_, actsWithin_sample side _ _ dly s hd, rfl⟩
      exact ownWord_trans (ownWord_start _ _) (ownWord_trans (ownWord_sampleBit _ _)
        (ownWord_advanceTransfer _ _ _))
  case shiftOut side dly count =>
    simp only [checkOf] at h
    have hd := checkWord_dir h
    simp only [exec, execShiftOut, h, evaluate_ok]
    split
    · refine ⟨_, ownWord_trans (ownWord_start _ _) (ownWord_complete _ _), ?_, rfl⟩
      apply actsWithin_of_quiet <;> simp [Requests.none]
    · cases hu : supply s.me with
      | none =>
        refine ⟨_, ?_, actsWithin_txStall side s hd, by simp only [me_setReq, hu]⟩
        exact ownWord_trans (ownWord_start _ _) (ownWord_mapReq _ _)
      | some u =>
        refine ⟨_, ?_, ?_, by simp only [me_setReq, hu]; rfl⟩
        · exact ownWord_trans (ownWord_start _ _) (ownWord_trans (ownWord_takeBits _ _ _)
            (ownWord_trans (ownWord_mapReq _ _) (ownWord_advanceTransfer _ _ _)))
        · apply actsWithin_take hu (le_refl 1) (supply_facts hu).1 hd <;>
            simp [writePix, Requests.none]
  case getX side dly m =>
    exact getField_acts side dly (m.toNat + 1) (Nat.le_add_left 1 _)
      (fun v en => { en with x := v })
      (fun _ _ => ⟨rfl, rfl, rfl, rfl, rfl, rfl, rfl, rfl⟩) s h
  case getY side dly m =>
    exact getField_acts side dly (m.toNat + 1) (Nat.le_add_left 1 _)
      (fun v en => { en with y := v })
      (fun _ _ => ⟨rfl, rfl, rfl, rfl, rfl, rfl, rfl, rfl⟩) s h
  case getExec side dly =>
    simp only [checkOf] at h
    obtain ⟨hd, hf⟩ := checkGet_dir (checkExec_get h)
    simp only [exec, execGetExec, h, evaluate_ok]
    cases hu : supply s.me with
    | none =>
      refine ⟨_, ?_, actsWithin_txStall side s hd, by simp only [me_setReq, hu]⟩
      exact ownWord_trans (ownWord_start _ _) (ownWord_mapReq _ _)
    | some u =>
      cases hx : readExecutable s.me.config (execField u) with
      | error f =>
        have hg := checkExec_get h
        simp [checkExec, hg, hu, hx] at h
      | ok x =>
        refine ⟨_, ?_, ?_, by simp only [me_setReq, hu, hx]; rfl⟩
        · exact ownWord_trans (ownWord_setReq _ _) (ownWord_trans (ownWord_takeBits _ _ _)
            (ownWord_trans (ownWord_sideAction _ _) (ownWord_runExecutable _ _)))
        · unfold runExecutable
          cases x.set <;>
            (apply actsWithin_take hu (by decide : 1 ≤ 16) (supply_enough hf hu) hd <;>
              simp [quiet_setTarget, Requests.none])
  case seto side dly target v =>
    refine ⟨_, ?_, ?_, by simp only [checkOf] at h; simp only [exec, execSeto, h, evaluate_ok]; rfl⟩
    · exact ownWord_trans (ownWord_start _ _) (ownWord_trans (ownWord_setTarget _ _ _)
        (ownWord_complete _ _))
    · apply actsWithin_of_quiet <;> simp [quiet_setTarget, Requests.none]
  case load side dly dest src =>
    refine ⟨_, ?_, ?_, by simp only [checkOf] at h; simp only [exec, execLoad, h, evaluate_ok]; rfl⟩
    · refine ownWord_trans (ownWord_start _ _) (ownWord_trans (ownWord_mapMe _ _ ?_ ?_ ?_)
        (ownWord_complete _ _)) <;> cases dest <;> rfl
    · cases dest <;> apply actsWithin_of_quiet <;> simp [storeCounter, Requests.none]
  case nop side dly =>
    refine ⟨_, ownWord_trans (ownWord_start _ _) (ownWord_complete _ _), ?_,
      by simp only [checkOf] at h; simp only [exec, execNop, h, evaluate_ok]; rfl⟩
    apply actsWithin_of_quiet <;> simp [Requests.none]

/-- The frame of any word: it either only raises a fault, or it changes at most its engine, the pins
and the flags. -/
theorem exec_cases (i : Instr) (s : State) :
    (∃ f, exec i s = .next (faultedBy f s)) ∨
    ∃ t, OwnWord s t ∧ ActsWithin s t ∧ exec i s = .next (commit t) := by
  cases h : checkOf i s.me with
  | none => exact .inr (exec_acts h)
  | some f => exact .inl ⟨f, exec_fault h⟩

end Sys2Proof.Machine
end

