-- ==== Sys2Proof/Laws/Cycle.lean ====
section
/-!
SUPPORT. What one step can do, said once: the turn of an engine (R120), the step as reset or merge
(R58, R262), and what each part of a merge is, field by field.
-/

namespace Sys2Proof.Machine

/-! ### The turn of one engine -/

/-- What any turn of an engine leaves and asks, whatever the engine did (R31, R120, R128). -/
structure TurnWithin (s : State) (e : EngineId) (r : Turn) : Prop where
  bits : (s.engine e).cnt.toNat < 32 → r.eng.cnt.toNat < 32
  push : r.req.push.isSome = true →
    (s.engine e).config.dir = .rx ∧ (s.engine e).fifo.length < s.params.fifoDepth
  pop : r.req.pop = true → (s.engine e).config.dir = .tx ∧ (s.engine e).fifo ≠ []
  rxAsked : r.req.rxStall = true → (s.engine e).config.dir = .rx ∧ s.activity e = .evaluating
  txAsked : r.req.txStall = true → (s.engine e).config.dir = .tx ∧ s.activity e = .evaluating
  quiet : s.activity e ≠ .evaluating → r.req = Requests.none

/-- A turn without requests. -/
theorem turnWithin_quiet {s : State} {e : EngineId} {v : Engine}
    (h : (s.engine e).cnt.toNat < 32 → v.cnt.toNat < 32) :
    TurnWithin s e { eng := v, req := Requests.none } := by
  constructor <;> simp_all [Requests.none]

/-- The evaluation of the fetched word (R120 e, R122): a fault, or a word that acts. -/
theorem evaluateFetched_cases (s : State) (e : EngineId) :
    (∃ f, evaluateFetched exec s e = .next (faultedBy f (s.focus e))) ∨
    ∃ i t, decode (fetch (s.engine e)) = .legal i ∧ OwnWord (s.focus e) t ∧
      ActsWithin (s.focus e) t ∧ evaluateFetched exec s e = .next (commit t) := by
  unfold evaluateFetched
  cases hd : decode (fetch (s.engine e)) with
  | illegal r => exact .inl ⟨.illegalEncoding, rfl⟩
  | legal i =>
    rcases exec_cases i (s.focus e) with ⟨f, h⟩ | ⟨t, ho, ha, h⟩
    · exact .inl ⟨f, h⟩
    · exact .inr ⟨i, t, rfl, ho, ha, h⟩

/-- The turn of an engine that does not evaluate. -/
theorem turn_restarted {ex : Meaning} {s : State} {e : EngineId} (h : s.activity e = .restarted) :
    s.turn ex e = .next { eng := restartEngine (s.engine e), req := Requests.none } := by
  simp [State.turn, h]

theorem turn_stopped {ex : Meaning} {s : State} {e : EngineId} (h : s.activity e = .stopped) :
    s.turn ex e = .next { eng := s.engine e, req := Requests.none } := by
  simp [State.turn, h]

theorem turn_delaying {ex : Meaning} {s : State} {e : EngineId} (h : s.activity e = .delaying) :
    s.turn ex e =
      .next { eng := { s.engine e with dly := (s.engine e).dly - 1 }, req := Requests.none } := by
  simp [State.turn, h]

/-- The turn of an engine that evaluates (R120 e). -/
theorem turn_evaluating {ex : Meaning} {s : State} {e : EngineId} {u : State}
    (h : s.activity e = .evaluating) (hu : evaluateFetched ex s e = .next u) :
    s.turn ex e = .next { eng := u.engine e, req := u.req } := by
  simp [State.turn, h, hu]

/-- An engine's registers in the state where its word raised a fault. -/
theorem engine_faultedBy (f : EngineFault) (s : State) (e : EngineId) :
    (faultedBy f (s.focus e)).engine e = { s.engine e with fault := some f } :=
  engines_get_set_self _ _ _

/-- The turn of an engine whose word raises a fault: the fault field and nothing else (R122). -/
theorem turn_fault {s : State} {e : EngineId} {f : EngineFault} (h : s.activity e = .evaluating)
    (hf : evaluateFetched exec s e = .next (faultedBy f (s.focus e))) :
    s.turn exec e =
      .next { eng := { s.engine e with fault := some f }, req := Requests.none } := by
  rw [turn_evaluating h hf, engine_faultedBy]; rfl

/-- Every turn answers, within its bounds. -/
theorem turn_next (s : State) (e : EngineId) :
    ∃ r, s.turn exec e = .next r ∧ TurnWithin s e r := by
  cases h : s.activity e with
  | restarted => exact ⟨_, turn_restarted h, turnWithin_quiet fun _ => (by decide : (0 : BitVec 6).toNat < 32)⟩
  | stopped => exact ⟨_, turn_stopped h, turnWithin_quiet id⟩
  | delaying => exact ⟨_, turn_delaying h, turnWithin_quiet id⟩
  | evaluating =>
    rcases evaluateFetched_cases s e with ⟨f, hf⟩ | ⟨i, t, _, ho, ha, ht⟩
    · exact ⟨_, turn_fault h hf, turnWithin_quiet id⟩
    · refine ⟨_, turn_evaluating h ht, ?_⟩
      have hc : t.cur = e := by rw [ho.state]; rfl
      have hm : (commit t).engine e = t.req.applyEngine t.me := by
        conv_lhs => rw [← hc]
        exact commit_me t
      refine ⟨?_, ha.push, ha.pop, fun hr => ⟨ha.rxAsked hr, h⟩, fun hr => ⟨ha.txAsked hr, h⟩,
        fun hn => absurd h hn⟩
      show _ → ((commit t).engine e).cnt.toNat < 32
      rw [hm]
      exact ha.bits

/-! ### The step -/

/-- The four turns always answer, each the turn of its engine. -/
theorem turns_next (s : State) :
    ∃ ts, s.turns exec = .next ts ∧ ∀ e, s.turn exec e = .next (ts.get e) := by
  obtain ⟨a, ha, _⟩ := turn_next s .cap
  obtain ⟨b, hb, _⟩ := turn_next s .gen
  obtain ⟨c, hc, _⟩ := turn_next s .hs
  obtain ⟨d, hd, _⟩ := turn_next s .vs
  refine ⟨{ cap := a, gen := b, hs := c, vs := d }, ?_, ?_⟩
  · simp [State.turns, ha, hb, hc, hd]
  · intro e; cases e <;> assumption

/-- The turns that were taken keep their bounds. -/
theorem turns_within {s : State} {ts : Turns} (h : s.turns exec = .next ts) (e : EngineId) :
    s.turn exec e = .next (ts.get e) ∧ TurnWithin s e (ts.get e) := by
  obtain ⟨us, hu, hall⟩ := turns_next s
  obtain rfl : us = ts := by rw [h] at hu; cases hu; rfl
  obtain ⟨r, hr, hw⟩ := turn_next s e
  rw [hall e] at hr
  cases hr
  exact ⟨hall e, hw⟩

/-- A cycle with `rst` (R58). -/
theorem steps_reset {s : State} (h : s.input.rst = true) : Steps s s.resetCycle := by
  simp [Steps, step, cycleWith, h]

/-- A cycle without `rst` in which no agent leaves its bank (R8, R262). -/
theorem steps_merge {s : State} {ts : Turns} (h : s.input.rst = false)
    (ht : s.turns exec = .next ts) (hb : s.bankFault = none) : Steps s (s.merge ts) := by
  simp [Steps, step, cycleWith, h, ht, hb]

/-- Everything a step can do. -/
theorem steps_cases {s t : State} (h : Steps s t) :
    (s.input.rst = true ∧ t = s.resetCycle) ∨
    ∃ ts, s.input.rst = false ∧ s.bankFault = none ∧ s.turns exec = .next ts ∧ t = s.merge ts := by
  cases hr : s.input.rst with
  | true =>
    have := steps_reset hr
    rw [Steps, h] at this
    exact .inl ⟨rfl, by cases this; rfl⟩
  | false =>
    obtain ⟨ts, ht, _⟩ := turns_next s
    cases hb : s.bankFault with
    | some f => simp [Steps, step, cycleWith, hr, ht, hb] at h
    | none =>
      have := steps_merge hr ht hb
      rw [Steps, h] at this
      exact .inr ⟨ts, rfl, rfl, ht, by cases this; rfl⟩

/-- A step without `rst` is a merge. -/
theorem steps_cases_merge {s t : State} (h : Steps s t) (hr : s.input.rst = false) :
    ∃ ts, s.bankFault = none ∧ s.turns exec = .next ts ∧ t = s.merge ts := by
  rcases steps_cases h with ⟨h1, _⟩ | ⟨ts, _, hb, ht, he⟩
  · rw [hr] at h1; cases h1
  · exact ⟨ts, hb, ht, he⟩

/-- A state whose step goes on: in every cycle in which no agent leaves its bank. -/
theorem safe_of_bankFault {s : State} (h : s.bankFault = none) : Safe s := by
  cases hr : s.input.rst with
  | true => exact ⟨_, steps_reset hr⟩
  | false =>
    obtain ⟨ts, ht, _⟩ := turns_next s
    exact ⟨_, steps_merge hr ht h⟩

/-- The pointers of an invariant state stay in their banks. -/
theorem bankFault_of_inv {s : State} (h : MachineInv s) : s.bankFault = none := by
  have hc := h.capture.pointer
  have hg := h.generation.pointer
  simp only [State.bankFault]
  rw [if_neg (by omega), if_neg (by omega)]

/-! ### The fields of a merge -/

section merge
variable (s : State) (ts : Turns)

@[simp] theorem merge_params : (s.merge ts).params = s.params := rfl
@[simp] theorem merge_stim : (s.merge ts).stim = s.stim.tail := rfl
@[simp] theorem merge_cycle : (s.merge ts).cycle = s.cycle + 1 := rfl
@[simp] theorem merge_cur : (s.merge ts).cur = s.cur := rfl
@[simp] theorem merge_req : (s.merge ts).req = Requests.none := rfl
@[simp] theorem merge_busData : (s.merge ts).busData = s.busReadData := rfl
@[simp] theorem merge_out : (s.merge ts).out = ts.drive s.out := rfl
@[simp] theorem merge_edge (b : Bank) : (s.merge ts).edge b = s.edgeNext b := by cases b <;> rfl
@[simp] theorem merge_flags : (s.merge ts).flags = ts.flags s.flags := rfl
@[simp] theorem merge_lut : (s.merge ts).lut = s.busCmd.nextLut s.lut := rfl
@[simp] theorem merge_engine (e : EngineId) :
    (s.merge ts).engine e = s.nextEngine e (ts.get e) := by cases e <;> rfl
@[simp] theorem merge_cap : (s.merge ts).cap = s.nextCapture := rfl
@[simp] theorem merge_gen : (s.merge ts).gen = s.nextGeneration := rfl
@[simp] theorem merge_player (g : SyncGen) : (s.merge ts).player g = s.nextPlayer g := by
  cases g <;> rfl
@[simp] theorem merge_err : (s.merge ts).err = s.nextErr := rfl
@[simp] theorem merge_busErr : (s.merge ts).busErr =
    resolveSticky s.busErr (decide (s.busCmd = .refused)) s.busCmd.eventClears.1 := rfl
@[simp] theorem merge_capEvt : (s.merge ts).capEvt =
    resolveSticky s.capEvt s.capRecovery s.busCmd.eventClears.2.1 := rfl
@[simp] theorem merge_genEvt : (s.merge ts).genEvt =
    resolveSticky s.genEvt s.genRecovery s.busCmd.eventClears.2.2 := rfl

end merge

/-! ### The fields of an engine after the merge -/

section nextEngine
variable (s : State) (e : EngineId) (r : Turn)

@[simp] theorem nextEngine_pc : (s.nextEngine e r).pc = r.eng.pc := rfl
@[simp] theorem nextEngine_x : (s.nextEngine e r).x = r.eng.x := rfl
@[simp] theorem nextEngine_y : (s.nextEngine e r).y = r.eng.y := rfl
@[simp] theorem nextEngine_sr : (s.nextEngine e r).sr = r.eng.sr := rfl
@[simp] theorem nextEngine_cnt : (s.nextEngine e r).cnt = r.eng.cnt := rfl
@[simp] theorem nextEngine_dly : (s.nextEngine e r).dly = r.eng.dly := rfl
@[simp] theorem nextEngine_rem : (s.nextEngine e r).rem = r.eng.rem := rfl
@[simp] theorem nextEngine_fault : (s.nextEngine e r).fault = r.eng.fault := rfl
@[simp] theorem nextEngine_prog :
    (s.nextEngine e r).prog = s.busCmd.nextProg e (s.engine e).prog := rfl
@[simp] theorem nextEngine_config :
    (s.nextEngine e r).config = s.busCmd.nextConfig e (s.engine e).config := rfl
@[simp] theorem nextEngine_run :
    (s.nextEngine e r).run = ((s.engine e).run || s.startsEngine e) := rfl
theorem nextEngine_fifo : (s.nextEngine e r).fifo =
    nextFifo (s.flushed e) (r.req.pop || s.agentPops e || s.busCmd.pops e)
      (r.req.push <|> s.agentPush e <|> s.busCmd.pushes e) (s.engine e).fifo := rfl
theorem nextEngine_rxStall : (s.nextEngine e r).rxStall =
    resolveSticky (s.engine e).rxStall
      (r.req.rxStall || (decide (e = .cap) && s.watchdogTimeout)) (s.clearsRx e) := rfl
theorem nextEngine_txStall : (s.nextEngine e r).txStall =
    resolveSticky (s.engine e).txStall r.req.txStall (s.clearsTx e) := rfl

end nextEngine

/-! ### The FIFO -/

/-- R31: a FIFO after a cycle is empty, or its old content less at most its head, and at most one new
word. -/
theorem nextFifo_form (flush pop : Bool) (push : Option Word) (q : List Word) :
    nextFifo flush pop push q = [] ∨
    ∃ (k : Nat), k ≤ 1 ∧ nextFifo flush pop push q = q.drop k ++ push.toList := by
  cases flush
  · refine .inr ?_
    cases pop
    · exact ⟨0, by omega, by simp [nextFifo]⟩
    · exact ⟨1, by omega, by simp [nextFifo]⟩
  · exact .inl (by simp [nextFifo])

/-- A FIFO grows by at most one word, and only by a push. -/
theorem nextFifo_length (flush pop : Bool) (push : Option Word) (q : List Word) :
    (nextFifo flush pop push q).length ≤ q.length + push.toList.length := by
  cases flush <;> cases pop <;> simp [nextFifo]

/-- Whoever pushes to a FIFO saw room in it (R31, R65, R198, R228). -/
theorem push_has_room {s : State} {e : EngineId} {r : Turn} (hw : TurnWithin s e r) {w : Word}
    (h : (r.req.push <|> s.agentPush e <|> s.busCmd.pushes e) = some w) :
    (s.engine e).fifo.length < s.params.fifoDepth := by
  cases hp : r.req.push with
  | some v => exact (hw.push (by simp [hp])).2
  | none =>
    rw [hp] at h
    have h' : (s.agentPush e <|> s.busCmd.pushes e) = some w := h
    cases ha : s.agentPush e with
    | some v =>
      cases e
      · cases ha
      · simp only [State.agentPush, State.feederWord] at ha
        split at ha
        · rename_i hc; simp at hc; exact hc.1.2
        · cases ha
      all_goals
        simp only [State.agentPush, State.playerWord] at ha
        split at ha
        · rename_i hc; simp at hc; exact hc.1.1.2
        · cases ha
    | none =>
      rw [ha] at h'
      have hb : s.busCmd.pushes e = some w := h'
      unfold BusCmd.pushes at hb
      split at hb
      · rename_i e' d hc
        split at hb
        · rename_i he
          subst he
          have := busCmd_push hc
          simp only [State.hostMayPush, Bool.and_eq_true, decide_eq_true_eq] at this
          exact this.1.2
        · cases hb
      · cases hb

/-- R31: the level never exceeds `FIFO_DEPTH`. -/
theorem nextEngine_level {s : State} {e : EngineId} {r : Turn} (hw : TurnWithin s e r)
    (h : (s.engine e).fifo.length ≤ s.params.fifoDepth) :
    (s.nextEngine e r).fifo.length ≤ s.params.fifoDepth := by
  rw [nextEngine_fifo]
  refine le_trans (nextFifo_length _ _ _ _) ?_
  cases hp : (r.req.push <|> s.agentPush e <|> s.busCmd.pushes e) with
  | none => simpa using h
  | some w =>
    have := push_has_room hw hp
    simp
    omega

/-- R61: an accepted read without effect returns the value of its target and asks nothing. -/
theorem reads_of {s t : State} {a : Addr} {tg : BusTarget} {w : Word} {P : Word → Prop}
    (hr : s.input.rst = false) (h : Steps s t) (hd : decodeAddr s.params a = some tg)
    (hw : s.readTarget tg = some w) (he : readEffect tg = .none) (hp : P w) : Reads s t a P := by
  intro hh
  obtain ⟨ts, _, _, rfl⟩ := steps_cases_merge h hr
  have hc : s.busCmd = .none := by rw [busCmd_read hh hd hw, he]
  exact ⟨hc, by simp [hc, BusCmd.eventClears, resolveSticky], w,
    by simp [State.busReadData, hh, hd, hw], hp⟩

end Sys2Proof.Machine
end

