-- ==== Sys2Proof/Laws/Encode.lean ====
section
/-!
SUPPORT. The fields of a packed word (R90), and the codes of each field read back (R91, R92, R94, R95,
R98).
-/

namespace Sys2Proof

/-! ### Fields of a packed word (R90) -/

@[simp] theorem opBits_packWord (o : BitVec 3) (s : BitVec 2) (d : BitVec 3) (a : BitVec 8) :
    opBits (packWord o s d a) = o := by
  ext i hi
  simp only [opBits, packWord, BitVec.getElem_extractLsb', BitVec.getLsbD_append]
  split_ifs <;> try omega
  all_goals rw [BitVec.getLsbD_eq_getElem (by omega)]; congr 1; omega

@[simp] theorem sideBits_packWord (o : BitVec 3) (s : BitVec 2) (d : BitVec 3) (a : BitVec 8) :
    sideBits (packWord o s d a) = s := by
  ext i hi
  simp only [sideBits, packWord, BitVec.getElem_extractLsb', BitVec.getLsbD_append]
  split_ifs <;> try omega
  all_goals rw [BitVec.getLsbD_eq_getElem (by omega)]; congr 1; omega

@[simp] theorem dlyBits_packWord (o : BitVec 3) (s : BitVec 2) (d : BitVec 3) (a : BitVec 8) :
    dlyBits (packWord o s d a) = d := by
  ext i hi
  simp only [dlyBits, packWord, BitVec.getElem_extractLsb', BitVec.getLsbD_append]
  split_ifs <;> try omega
  all_goals rw [BitVec.getLsbD_eq_getElem (by omega)]; congr 1; omega

@[simp] theorem argBits_packWord (o : BitVec 3) (s : BitVec 2) (d : BitVec 3) (a : BitVec 8) :
    argBits (packWord o s d a) = a := by
  ext i hi
  simp only [argBits, packWord, BitVec.getElem_extractLsb', BitVec.getLsbD_append]
  split_ifs <;> try omega
  all_goals rw [BitVec.getLsbD_eq_getElem (by omega)]; congr 1; omega

theorem packWord_fields (w : OpWord) :
    packWord (opBits w) (sideBits w) (dlyBits w) (argBits w) = w := by
  ext i hi
  rw [← BitVec.getLsbD_eq_getElem, ← BitVec.getLsbD_eq_getElem]
  simp only [opBits, sideBits, dlyBits, argBits, packWord, BitVec.getLsbD_append,
    BitVec.getLsbD_extractLsb']
  split_ifs <;>
    (rw [decide_eq_true (by omega), Bool.true_and]; congr 1; omega)

/-! ### Codes read back -/

@[simp] theorem Op.ofBits_bits (o : Op) : Op.ofBits o.bits = o := by cases o <;> rfl

@[simp] theorem Side.ofBits_bits (s : Side) : Side.ofBits s.bits = some s := by cases s <;> rfl

@[simp] theorem Cond.ofBits_bits (c : Cond) : Cond.ofBits c.bits = some c := by cases c <;> rfl

@[simp] theorem WaitSrc.ofBits_bits (s : WaitSrc) : WaitSrc.ofBits s.bits = some s := by
  cases s with
  | flag k => revert k; decide
  | _ => rfl

@[simp] theorem SetTarget.ofBits_bits (t : SetTarget) : SetTarget.ofBits t.bits = some t := by
  cases t with
  | flag k => revert k; decide
  | _ => rfl

/-! ### Codes written back -/

theorem Op.bits_ofBits (b : BitVec 3) : (Op.ofBits b).bits = b := by revert b; decide

theorem Side.bits_of_ofBits (b : BitVec 2) (s : Side) (h : Side.ofBits b = some s) : s.bits = b := by
  simp only [Side.ofBits] at h
  split_ifs at h <;> cases h <;> simp_all [Side.bits]

theorem Cond.bits_of_ofBits (b : BitVec 3) (c : Cond) (h : Cond.ofBits b = some c) : c.bits = b := by
  simp only [Cond.ofBits] at h
  split_ifs at h <;> cases h <;> simp_all [Cond.bits]

theorem WaitSrc.bits_of_ofBits (b : BitVec 4) (s : WaitSrc) (h : WaitSrc.ofBits b = some s) :
    s.bits = b := by
  have all : ∀ b : BitVec 4, (WaitSrc.ofBits b).all (fun s => decide (s.bits = b)) = true := by
    decide
  simpa [h] using all b

theorem SetTarget.bits_of_ofBits (b : BitVec 3) (t : SetTarget) (h : SetTarget.ofBits b = some t) :
    t.bits = b := by
  have all : ∀ b : BitVec 3, (SetTarget.ofBits b).all (fun t => decide (t.bits = b)) = true := by
    decide
  simpa [h] using all b

end Sys2Proof
end

