-- ==== Sys2Proof/Laws/Memory.lean ====
section
/-!
SUPPORT. The laws of memory: a read after a write gives the value written, a write leaves every other
address alone, and every write keeps the canonical form.
-/

namespace Sys2Proof.Machine

/-! ### One byte -/

theorem lookup_insert_self (m : Memory) (a : Nat) (b : Byte) :
    Memory.lookup (Memory.insert m a b) a = some b := by
  induction m with
  | nil => simp [Memory.insert, Memory.lookup]
  | cons c m ih =>
    simp only [Memory.insert]
    split
    · simp [Memory.lookup]
    · split
      · simp [Memory.lookup]
      · rename_i h
        simp [Memory.lookup, ih, Ne.symm h]

theorem lookup_insert_ne (m : Memory) (a a' : Nat) (b : Byte) (h : a' ≠ a) :
    Memory.lookup (Memory.insert m a b) a' = Memory.lookup m a' := by
  induction m with
  | nil => simp [Memory.insert, Memory.lookup, h.symm]
  | cons c m ih =>
    simp only [Memory.insert]
    split
    · simp [Memory.lookup, h.symm]
    · split
      · rename_i _ h'
        simp [Memory.lookup, h.symm, ← h']
      · simp [Memory.lookup, ih]

@[simp] theorem readByte_insert_self (sp : Space) (m : Memory) (a : Nat) (b : Byte) :
    Memory.readByte sp (Memory.insert m a b) a = b := by
  simp [Memory.readByte, lookup_insert_self]

theorem readByte_insert_ne (sp : Space) (m : Memory) (a a' : Nat) (b : Byte) (h : a' ≠ a) :
    Memory.readByte sp (Memory.insert m a b) a' = Memory.readByte sp m a' := by
  simp [Memory.readByte, lookup_insert_ne _ _ _ _ h]

/-- Every address of a memory after an insert is the new one or was there before. -/
theorem mem_insert (m : Memory) (a : Nat) (b : Byte) (x : Host.Cell) (h : x ∈ Memory.insert m a b) :
    x.1 = a ∨ x ∈ m := by
  induction m with
  | nil => simp only [Memory.insert, List.mem_singleton] at h; exact .inl (h ▸ rfl)
  | cons c m ih =>
    simp only [Memory.insert] at h
    split at h
    · rcases List.mem_cons.mp h with h | h
      · exact .inl (h ▸ rfl)
      · exact .inr h
    · split at h
      · rcases List.mem_cons.mp h with h | h
        · exact .inl (h ▸ rfl)
        · exact .inr (List.mem_cons_of_mem _ h)
      · rcases List.mem_cons.mp h with h | h
        · exact .inr (h ▸ List.mem_cons_self)
        · exact (ih h).imp id (List.mem_cons_of_mem _)

/-- A byte write keeps the canonical form. -/
theorem wf_insert (m : Memory) (a : Nat) (b : Byte) (h : Memory.wf m) :
    Memory.wf (Memory.insert m a b) := by
  induction m with
  | nil => exact List.pairwise_singleton _ _
  | cons c m ih =>
    obtain ⟨hc, hm⟩ := List.pairwise_cons.mp h
    simp only [Memory.insert]
    split
    · rename_i hlt
      exact List.pairwise_cons.mpr ⟨fun x hx => by
        rcases List.mem_cons.mp hx with hx | hx
        · exact hx ▸ hlt
        · exact lt_trans hlt (hc x hx), h⟩
    · split
      · rename_i _ heq
        exact List.pairwise_cons.mpr ⟨fun x hx => heq ▸ hc x hx, hm⟩
      · refine List.pairwise_cons.mpr ⟨fun x hx => ?_, ih hm⟩
        rcases mem_insert m a b x hx with hx | hx
        · show c.1 < x.1
          omega
        · exact hc x hx

/-! ### One word -/

/-- The four bytes of a word (R74: byte 0 is bits 31:24). -/
theorem wordByte_append (w : Word) :
    wordByte w 0 ++ wordByte w 1 ++ wordByte w 2 ++ wordByte w 3 = w := by
  apply BitVec.eq_of_getLsbD_eq
  intro i hi
  simp only [wordByte, BitVec.getLsbD_append, BitVec.getLsbD_extractLsb']
  rcases lt_or_ge i 8 with h | h
  · simp [h]
  · rcases lt_or_ge i 16 with h1 | h1
    · simp [show ¬ i < 8 by omega, show i - 8 < 8 by omega, show 8 + (i - 8) = i by omega]
    · rcases lt_or_ge i 24 with h2 | h2
      · simp [show ¬ i < 8 by omega, show ¬ i - 8 < 8 by omega, show i - 8 - 8 < 8 by omega,
          show 16 + (i - 8 - 8) = i by omega]
      · simp [show ¬ i < 8 by omega, show ¬ i - 8 < 8 by omega, show ¬ i - 8 - 8 < 8 by omega,
          show i - 8 - 8 - 8 < 8 by omega, show 24 + (i - 8 - 8 - 8) = i by omega]

/-- A word written is the word read. -/
@[simp] theorem readWord_writeWord (sp : Space) (m : Memory) (i : Nat) (w : Word) :
    Memory.readWord sp (Memory.writeWord m i w) i = w := by
  have h : ∀ j k : Nat, j < k → 4 * i + j ≠ 4 * i + k := fun j k _ => by omega
  simp only [Memory.readWord, Memory.writeWord]
  rw [readByte_insert_ne _ _ _ (4 * i) _ (by omega), readByte_insert_ne _ _ _ (4 * i) _ (by omega),
    readByte_insert_ne _ _ _ (4 * i) _ (by omega), readByte_insert_self,
    readByte_insert_ne _ _ (4 * i + 3) (4 * i + 1) _ (by omega),
    readByte_insert_ne _ _ (4 * i + 2) (4 * i + 1) _ (by omega), readByte_insert_self,
    readByte_insert_ne _ _ (4 * i + 3) (4 * i + 2) _ (by omega), readByte_insert_self,
    readByte_insert_self]
  exact wordByte_append w

/-- A word write leaves every byte outside the word. -/
theorem readByte_writeWord_ne (sp : Space) (m : Memory) (i : Nat) (w : Word) (a : Nat)
    (h : ¬ (4 * i ≤ a ∧ a < 4 * i + 4)) :
    Memory.readByte sp (Memory.writeWord m i w) a = Memory.readByte sp m a := by
  simp only [Memory.writeWord]
  rw [readByte_insert_ne _ _ _ _ _ (by omega), readByte_insert_ne _ _ _ _ _ (by omega),
    readByte_insert_ne _ _ _ _ _ (by omega), readByte_insert_ne _ _ _ _ _ (by omega)]

/-- A word write leaves every other word. -/
theorem readWord_writeWord_ne (sp : Space) (m : Memory) (i j : Nat) (w : Word) (h : j ≠ i) :
    Memory.readWord sp (Memory.writeWord m i w) j = Memory.readWord sp m j := by
  simp only [Memory.readWord]
  rw [readByte_writeWord_ne _ _ _ _ _ (by omega), readByte_writeWord_ne _ _ _ _ _ (by omega),
    readByte_writeWord_ne _ _ _ _ _ (by omega), readByte_writeWord_ne _ _ _ _ _ (by omega)]

/-- A word write keeps the canonical form. -/
theorem wf_writeWord (m : Memory) (i : Nat) (w : Word) (h : Memory.wf m) :
    Memory.wf (Memory.writeWord m i w) :=
  wf_insert _ _ _ (wf_insert _ _ _ (wf_insert _ _ _ (wf_insert _ _ _ h)))

/-! ### The banks -/

/-- A capture bank after a word is written to one of them. -/
theorem capture_bank_writeWord (c : CaptureSide) (b b' : Bool) (i : Nat) (w : Word) :
    (c.writeWord b i w).bank b' = if b' = b then Memory.writeWord (c.bank b) i w else c.bank b' := by
  cases b <;> cases b' <;> rfl

/-- A generation bank after a word is written to one of them. -/
theorem generation_bank_writeWord (g : GenSide) (b b' : Bool) (i : Nat) (w : Word) :
    (g.writeWord b i w).bank b' = if b' = b then Memory.writeWord (g.bank b) i w else g.bank b' := by
  cases b <;> cases b' <;> rfl

/-- Every memory of the reset state is in canonical form. -/
theorem wf_reset_memory (sp : Space) : Memory.wf (State.reset.memory sp) := by
  rcases sp with b | b | g
  · cases b <;> exact List.Pairwise.nil
  · cases b <;> exact List.Pairwise.nil
  · cases g <;> exact List.Pairwise.nil

end Sys2Proof.Machine
end

