-- ==== Sys2Proof/Laws/Exchange.lean ====
section
/-!
SUPPORT. What the fixed-function agents can do in a cycle, each agent once: the capture mover and the
feeder, the boundaries, the handshakes, the players, the recoveries.
-/

namespace Sys2Proof.Machine

/-! ### Conditions -/

/-- The mover moves the head of the FIFO of engine 0 under the conditions of R220. -/
theorem moverWord_some {s : State} {w : Word} (h : s.moverWord = some w) :
    s.capRecovery = false ∧ s.cap.x = .transferring ∧ (s.engine .cap).config.dir = .rx ∧
      s.flushed .cap = false ∧ (s.engine .cap).fifo.head? = some w := by
  simp only [State.moverWord] at h
  split at h
  · rename_i hc; simp at hc; exact ⟨hc.1.1.1, hc.1.1.2, hc.1.2, hc.2, h⟩
  · cases h

/-- Under the conditions of R220 the mover moves the head. -/
theorem moverWord_of {s : State} {w : Word} {q : List Word} (hr : s.capRecovery = false)
    (hx : s.cap.x = .transferring) (hd : (s.engine .cap).config.dir = .rx)
    (hf : (s.engine .cap).fifo = w :: q) (hb : s.busCmd.flushes .cap = false) :
    s.moverWord = some w := by
  simp [State.moverWord, hr, hx, hd, hf, State.flushed, hb]

theorem moverActs_iff (s : State) : s.moverActs = true ↔ ∃ w, s.moverWord = some w := by
  rw [State.moverActs, Option.isSome_iff_exists]

/-- What the mover acting tells (R220). -/
theorem moverActs_facts {s : State} (h : s.moverActs = true) :
    s.capRecovery = false ∧ s.cap.x = .transferring ∧ (s.engine .cap).config.dir = .rx ∧
      s.flushed .cap = false := by
  obtain ⟨w, hw⟩ := (moverActs_iff s).1 h
  obtain ⟨a, b, c, d, _⟩ := moverWord_some hw
  exact ⟨a, b, c, d⟩

/-- A capture boundary is a move of the last word (R220, R222). -/
theorem capBoundary_facts {s : State} (h : s.capBoundary = true) :
    s.moverActs = true ∧ s.frameWords ≤ s.cap.ptr.toNat + 1 := by
  simpa [State.capBoundary] using h

theorem capBoundary_false {s : State} (ha : s.moverActs = true) (h : s.capBoundary = false) :
    s.cap.ptr.toNat + 1 < s.frameWords := by
  simpa [State.capBoundary, ha] using h

/-- `ARM` takes effect in `Idle` alone (R219). -/
theorem armed_facts {s : State} (h : s.armed = true) :
    s.busCmd = .arm ∧ s.cap.x = .idle ∧ s.capRecovery = false := by
  have hc : s.busCmd = .arm := by simpa [State.armed] using h
  exact ⟨hc, busCmd_arm hc⟩

/-- The feeder pushes under the conditions of R228. -/
theorem feederActs_facts {s : State} (h : s.feederActs = true) :
    s.genRecovery = false ∧ s.gen.feedEn = true ∧ (s.engine .gen).config.dir = .tx ∧
      (s.engine .gen).fifo.length < s.params.fifoDepth ∧ s.flushed .gen = false := by
  simp only [State.feederActs, State.feederWord] at h
  split at h
  · rename_i hc; simp at hc; exact ⟨hc.1.1.1.1, hc.1.1.1.2, hc.1.1.2, hc.1.2, hc.2⟩
  · cases h

/-- Under the conditions of R228 the feeder pushes the word of its pointer. -/
theorem feederWord_of {s : State} (hr : s.genRecovery = false) (he : s.gen.feedEn = true)
    (hd : (s.engine .gen).config.dir = .tx)
    (hl : (s.engine .gen).fifo.length < s.params.fifoDepth)
    (hb : s.busCmd.flushes .gen = false) :
    s.feederWord = some (s.gbankWord s.gen.sel s.gen.ptr.toNat) := by
  simp [State.feederWord, hr, he, hd, hl, State.flushed, hb]

theorem genBoundary_facts {s : State} (h : s.genBoundary = true) :
    s.feederActs = true ∧ s.frameWords ≤ s.gen.ptr.toNat + 1 := by
  simpa [State.genBoundary] using h

theorem genBoundary_false {s : State} (ha : s.feederActs = true) (h : s.genBoundary = false) :
    s.gen.ptr.toNat + 1 < s.frameWords := by
  simpa [State.genBoundary, ha] using h

/-- A swap is a boundary with a committed frame (R230). -/
theorem genSwap_facts {s : State} (h : s.genSwap = true) :
    s.genBoundary = true ∧ s.gen.x = .transferring := by
  simpa [State.genSwap] using h

theorem frameWords_le (s : State) : s.frameWords ≤ s.params.bankWords := Nat.min_le_right _ _

/-! ### The fields of the capture side after a cycle -/

section nextCapture
variable (s : State)

@[simp] theorem nextCapture_sel :
    s.nextCapture.sel = if s.capBoundary then !s.cap.sel else s.cap.sel := rfl
@[simp] theorem nextCapture_x : s.nextCapture.x = s.nextCx := rfl
@[simp] theorem nextCapture_buf :
    s.nextCapture.buf = if s.armed then s.cap.sel else s.cap.buf := rfl
@[simp] theorem nextCapture_ptr : s.nextCapture.ptr = s.nextWptr := rfl
@[simp] theorem nextCapture_wdOn : s.nextCapture.wdOn = s.nextWdOn := rfl
@[simp] theorem nextCapture_wdCtr : s.nextCapture.wdCtr = s.nextWdCtr := rfl
@[simp] theorem nextCapture_frames :
    s.nextCapture.frames = if s.capBoundary then s.cap.frames + 1 else s.cap.frames := rfl
@[simp] theorem nextCapture_meas :
    s.nextCapture.meas = if s.capBoundary then meterTick s.cap.measCtr else s.cap.meas := rfl
@[simp] theorem nextCapture_measCtr :
    s.nextCapture.measCtr = if s.capBoundary then 0 else meterTick s.cap.measCtr := rfl
@[simp] theorem nextCapture_bank (b : Bool) :
    s.nextCapture.bank b = s.moverWrites.bank b := by cases b <;> rfl

end nextCapture

/-- R220: the mover writes the bank in flight, and no other. -/
theorem moverWrites_bank (s : State) (b : Bool) :
    s.moverWrites.bank b =
      match s.moverWord with
      | some w => if b = s.cap.sel then Memory.writeWord (s.cap.bank b) s.cap.ptr.toNat w
                  else s.cap.bank b
      | none => s.cap.bank b := by
  unfold State.moverWrites
  cases s.moverWord with
  | none => rfl
  | some w =>
    simp only [capture_bank_writeWord]
    split
    · rename_i h; rw [h]
    · rfl

/-! ### The fields of the generation side after a cycle -/

section nextGeneration
variable (s : State)

@[simp] theorem nextGeneration_sel :
    s.nextGeneration.sel = if s.genSwap then !s.gen.sel else s.gen.sel := rfl
@[simp] theorem nextGeneration_x : s.nextGeneration.x = s.nextGx := rfl
@[simp] theorem nextGeneration_buf :
    s.nextGeneration.buf = if s.busCmd = .commitFrame then !s.gen.sel else s.gen.buf := rfl
@[simp] theorem nextGeneration_ptr : s.nextGeneration.ptr = s.nextRptr := rfl
@[simp] theorem nextGeneration_feedEn : s.nextGeneration.feedEn = s.nextFeedEn := rfl
@[simp] theorem nextGeneration_single : s.nextGeneration.single = s.nextSingle := rfl
@[simp] theorem nextGeneration_frames :
    s.nextGeneration.frames = if s.genBoundary then s.gen.frames + 1 else s.gen.frames := rfl
@[simp] theorem nextGeneration_meas :
    s.nextGeneration.meas = if s.genBoundary then meterTick s.gen.measCtr else s.gen.meas := rfl
@[simp] theorem nextGeneration_measCtr :
    s.nextGeneration.measCtr = if s.genBoundary then 0 else meterTick s.gen.measCtr := rfl
@[simp] theorem nextGeneration_bank (b : Bool) :
    s.nextGeneration.bank b = s.windowWrites.bank b := by cases b <;> rfl

end nextGeneration

/-- R69: the host writes the bank of its window, and no other; no other command writes one. -/
theorem windowWrites_bank (s : State) (b : Bool) :
    s.windowWrites.bank b = s.gen.bank b ∨
    ∃ i d, s.busCmd = .genWindow i d ∧ b = s.gen.windowBank ∧
      s.windowWrites.bank b = Memory.writeWord (s.gen.bank b) i d := by
  unfold State.windowWrites
  split
  · rename_i i d hc
    rw [generation_bank_writeWord]
    split
    · rename_i hb; subst hb; exact .inr ⟨i, d, hc, rfl, rfl⟩
    · exact .inl rfl
  · exact .inl rfl

/-! ### The saturating counters -/

/-- R233: one tick of a meter. -/
theorem meterTick_toNat (c : Word) : (meterTick c).toNat = min (c.toNat + 1) (2 ^ 32 - 1) := by
  unfold meterTick
  split
  · rename_i h; subst h; decide
  · rename_i h
    have h1 : c.toNat ≠ 2 ^ 32 - 1 := fun h2 => h (BitVec.eq_of_toNat_eq (by rw [h2]; rfl))
    have h2 := c.isLt
    rw [BitVec.toNat_add]
    show (c.toNat + 1) % 2 ^ 32 = _
    omega

/-- R248: one increment of `err`. -/
theorem errTick_toNat (b : Bool) (e : BitVec 64) :
    (errTick b e).toNat = min (e.toNat + b.toNat) (2 ^ 64 - 1) := by
  have h2 := e.isLt
  unfold errTick
  cases b
  · simp; omega
  · by_cases h : e = BitVec.allOnes 64
    · subst h; decide
    · have h1 : e.toNat ≠ 2 ^ 64 - 1 := fun h2 => h (BitVec.eq_of_toNat_eq (by rw [h2]; rfl))
      simp only [Bool.true_and, ne_eq, h, not_false_eq_true, decide_true, if_true, Bool.toNat_true]
      rw [BitVec.toNat_add]
      show (e.toNat + 1) % 2 ^ 64 = _
      omega

/-! ### Players -/

/-- What the player acting tells (R198). -/
theorem playerWord_some {s : State} {g : SyncGen} {w : Word} (h : s.playerWord g = some w) :
    (s.player g).armed = true ∧ w = s.ltWord g (s.player g).idx.toNat ∧
      s.busCmd.controls g = false := by
  simp only [State.playerWord] at h
  split at h
  · rename_i hc; simp at hc; cases h; exact ⟨hc.1.1.1.1, rfl, hc.1.2⟩
  · cases h

/-- A push moves the index alone. -/
theorem advancedPlayer_form (s : State) (g : SyncGen) :
    s.advancedPlayer g = { s.player g with
      idx := if (s.playerWord g).isSome then
          BitVec.ofNat 4 (((s.player g).idx.toNat + 1) % (s.player g).len.toNat)
        else (s.player g).idx } := by
  unfold State.advancedPlayer
  cases s.playerWord g <;> rfl

/-- R67, R198, R199: all that can happen to a loop table and its player in a cycle. -/
theorem nextPlayer_cases (s : State) (g : SyncGen) :
    s.nextPlayer g = s.advancedPlayer g ∨
    (∃ i d, s.busCmd = .ltEntry g i d ∧ s.nextPlayer g =
      { s.advancedPlayer g with mem := Memory.writeWord (s.player g).mem i.toNat d }) ∨
    ∃ len armed, s.busCmd = .ltCtrl g len armed ∧
      s.nextPlayer g = { s.player g with len := len, armed := armed, idx := 0 } := by
  unfold State.nextPlayer
  cases hc : s.busCmd
  case ltEntry g' i d =>
    by_cases hg : g' = g
    · subst hg; exact .inr (.inl ⟨i, d, rfl, by simp⟩)
    · exact .inl (by simp [hg])
  case ltCtrl g' len armed =>
    by_cases hg : g' = g
    · subst hg; exact .inr (.inr ⟨len, armed, rfl, by simp⟩)
    · exact .inl (by simp [hg])
  all_goals exact .inl rfl

end Sys2Proof.Machine
end

