-- ==== Sys2Proof/Laws/PerInstr.lean ====
section
/-!
SUPPORT. Statements made per instruction. `Fields`: the word of an instruction has the operation, the
side action, the delay and the argument of that instruction in the fields of R90.
-/

namespace Sys2Proof.Laws.Fields

/-- The four fields of the encoding (R90 to R93). -/
def Statement (i : Instr) : Prop :=
  opBits (encode i) = i.op.bits ∧ sideBits (encode i) = i.side.bits ∧
  dlyBits (encode i) = i.delay ∧ argBits (encode i) = i.arg

theorem jmp (side : Side) (dly : BitVec 3) (cond : Cond) (target : Slot) :
    Statement (.jmp side dly cond target) := by simp [Statement, encode]

theorem wait (side : Side) (dly : BitVec 3) (level : Bool) (src : WaitSrc) (consume : Bool) :
    Statement (.wait side dly level src consume) := by simp [Statement, encode]

theorem shiftIn (side : Side) (dly : BitVec 3) (count : Count) :
    Statement (.shiftIn side dly count) := by simp [Statement, encode]

theorem shiftOut (side : Side) (dly : BitVec 3) (count : Count) :
    Statement (.shiftOut side dly count) := by simp [Statement, encode]

theorem getX (side : Side) (dly : BitVec 3) (m : BitVec 5) :
    Statement (.getX side dly m) := by simp [Statement, encode]

theorem getY (side : Side) (dly : BitVec 3) (m : BitVec 5) :
    Statement (.getY side dly m) := by simp [Statement, encode]

theorem getExec (side : Side) (dly : BitVec 3) :
    Statement (.getExec side dly) := by simp [Statement, encode]

theorem seto (side : Side) (dly : BitVec 3) (target : SetTarget) (value : Bool) :
    Statement (.seto side dly target value) := by simp [Statement, encode]

theorem load (side : Side) (dly : BitVec 3) (dest : Dest) (src : LoadSrc) :
    Statement (.load side dly dest src) := by simp [Statement, encode]

theorem nop (side : Side) (dly : BitVec 3) :
    Statement (.nop side dly) := by simp [Statement, encode]

end Sys2Proof.Laws.Fields
end

