-- ==== Sys2Proof/Laws/Requests.lean ====
section
/-!
SUPPORT. What a turn asks of state with several writers, said once: its requests for a pin, a flag or a
stall flag are exactly those that the rules give the word it evaluates (the terms of Safety.lean).
-/

namespace Sys2Proof.Machine

/-! ### Pins -/

/-- The write of a pin that is asked for. -/
def Requests.pinAsked (r : Requests) : OutPin → Option Bool
  | .pix => r.pix
  | .hsync => r.hsync
  | .vsync => r.vsync

@[simp] theorem pinAsked_none (p : OutPin) : Requests.none.pinAsked p = none := by cases p <;> rfl

theorem level_drive (r : Requests) (o : OutPins) (p : OutPin) :
    (r.drive o).level p = (r.pinAsked p).getD (o.level p) := by cases p <;> rfl

theorem pinAsked_writeSidePin (v : Bool) (s : State) (p : OutPin) :
    (writeSidePin v s).req.pinAsked p =
      if s.me.config.sideSel.names p then some v else s.req.pinAsked p := by
  unfold writeSidePin
  cases h : s.me.config.sideSel <;> cases p <;> rfl

@[simp] theorem pinAsked_sideAction (side : Side) (s : State) (p : OutPin) :
    (sideAction side s).req.pinAsked p = (sideWrite s.me.config side p).or (s.req.pinAsked p) := by
  cases side
  · rfl
  all_goals
    simp only [sideAction, pinAsked_writeSidePin, sideWrite]
    split <;> rfl

@[simp] theorem pinAsked_setTarget (target : SetTarget) (v : Bool) (s : State) (p : OutPin) :
    (setTarget target v s).req.pinAsked p =
      (setWrite s.me.config target v p).or (s.req.pinAsked p) := by
  cases target
  · simp only [setTarget, pinAsked_writeSidePin, setWrite]; split <;> rfl
  · cases p <;> rfl
  · simp only [setTarget, requestFlag, State.mapReq, setReq_req, Requests.flag, setWrite]
    split <;> cases p <;> rfl

@[simp] theorem pinAsked_consumeFlag (src : WaitSrc) (consume : Bool) (s : State) (p : OutPin) :
    (consumeFlag src consume s).req.pinAsked p = s.req.pinAsked p := by
  cases consume <;> cases src <;> cases p <;> rfl

@[simp] theorem pinAsked_takeBits (u : Supply) (n : Nat) (s : State) (p : OutPin) :
    (takeBits u n s).req.pinAsked p = s.req.pinAsked p := by
  cases p <;> simp [Requests.pinAsked]

@[simp] theorem pinAsked_requestTxStall (s : State) (p : OutPin) :
    (requestTxStall s).req.pinAsked p = s.req.pinAsked p := by cases p <;> rfl

@[simp] theorem pinAsked_writePix (v : Bool) (s : State) (p : OutPin) :
    (writePix v s).req.pinAsked p = if p = .pix then some v else s.req.pinAsked p := by
  cases p <;> rfl

@[simp] theorem pinAsked_sampleBit (bit : Bool) (s : State) (p : OutPin) :
    (sampleBit bit s).req.pinAsked p = s.req.pinAsked p := by
  unfold sampleBit deliver
  split
  · split <;> cases p <;> rfl
  · rfl

theorem headWord_eq (en : Engine) : headWord en = (supply en).map (·.word) := by
  unfold headWord supply
  split
  · cases en.fifo <;> rfl
  · rfl

theorem execField_eq (u : Supply) : execField u = u.word.extractLsb' 16 16 := by
  unfold execField topBits
  apply BitVec.eq_of_getLsbD_eq; intro i hi
  simp [hi]

theorem bitDue_eq (s : State) (c : Count) : bitDue s c = decide (bitsLeft s c ≠ 0) := by
  unfold bitDue bitsLeft
  rw [decide_eq_decide]
  split
  · rename_i h
    rw [← countValue_toNat]
    exact not_congr ⟨fun h => BitVec.eq_of_toNat_eq h, fun h => by rw [h]; rfl⟩
  · exact not_congr ⟨fun h => BitVec.eq_of_toNat_eq h, fun h => by rw [h]; rfl⟩

/-- What `GET EXEC` executes. -/
theorem readExecutable_ok {c : EngineConfig} {f : OpWord} {x : Executable}
    (h : readExecutable c f = .ok x) :
    ∃ j, decode f = .legal j ∧
      ((∃ tv : SetTarget × Bool, x.set = some tv ∧ j = .seto x.side x.dly tv.1 tv.2) ∨
        (x.set = none ∧ j = .nop x.side x.dly)) := by
  unfold readExecutable at h
  cases hd : decode f with
  | illegal r => rw [hd] at h; cases h
  | legal j =>
    rw [hd] at h
    refine ⟨j, rfl, ?_⟩
    cases j <;> simp only [executable] at h
    case seto side dly tg v =>
      split at h
      · cases h
      · cases h; exact .inl ⟨(tg, v), rfl, rfl⟩
    case nop side dly =>
      split at h
      · cases h
      · cases h; exact .inr ⟨rfl, rfl⟩
    all_goals cases h

theorem pinAsked_runExecutable (x : Executable) (s : State) (p : OutPin) :
    (runExecutable x s).req.pinAsked p =
      match x.set with
      | some (tg, v) => (setWrite s.me.config tg v p).or
          ((sideWrite s.me.config x.side p).or (s.req.pinAsked p))
      | none => (sideWrite s.me.config x.side p).or (s.req.pinAsked p) := by
  unfold runExecutable
  cases x.set <;> simp

/-- R123: the pins a word that acts asks for. -/
theorem exec_pinAsked {i : Instr} {s u : State} (hc : checkOf i s.me = none)
    (hu : exec i s = .next u) (p : OutPin) : u.req.pinAsked p = pinWrite s i p := by
  cases i <;> simp only [checkOf] at hc <;>
    simp only [exec, execJmp, execWait, execShiftIn, execShiftOut, execGetX, execGetY, getField,
      execGetExec, execSeto, execLoad, execNop, hc, evaluate_ok, Host.Outcome.next.injEq] at hu <;>
    subst hu <;> simp only [commit_req, pinWrite, setAndSide]
  case jmp => simp
  case wait => split <;> simp
  case shiftIn => split <;> simp
  case shiftOut side dly count =>
    rw [headWord_eq]
    have hb : bitsLeft (s.setReq Requests.none) count = bitsLeft s count := rfl
    simp only [bitDue_eq, me_setReq, hb]
    split
    · simp [*]
    · rename_i h
      cases hs : supply s.me <;> cases p <;> simp [show ¬ bitsLeft s count = 0#32 from h]
  case getX => simp only [me_setReq]; cases hs : supply s.me <;> simp
  case getY => simp only [me_setReq]; cases hs : supply s.me <;> simp
  case getExec side dly =>
    simp only [me_setReq, executedWord, headWord_eq]
    cases hs : supply s.me with
    | none => simp
    | some v =>
      cases hx : readExecutable s.me.config (execField v) with
      | error f => simp [checkExec, checkExec_get hc, hs, hx] at hc
      | ok x =>
        obtain ⟨j, hj, h⟩ := readExecutable_ok hx
        rw [execField_eq] at hj
        simp only [Option.map, hj, hx, pinAsked_runExecutable]
        rcases h with ⟨⟨tg, v⟩, hset, rfl⟩ | ⟨hset, rfl⟩ <;> simp [hset, Option.or_assoc]
  case seto => simp
  case load => simp
  case nop => simp

/-! ### Flags -/

/-- The write of a flag that is asked for; a word asks at most one. -/
def Requests.flagAsked (r : Requests) (k : BitVec 2) (v : Bool) : Bool :=
  if v then r.flagSet.getLsbD k.toNat else r.flagClr.getLsbD k.toNat

@[simp] theorem flagAsked_none (k : BitVec 2) (v : Bool) : Requests.none.flagAsked k v = false := by
  cases v <;> simp [Requests.flagAsked, Requests.none]

theorem flagAsked_flag (r : Requests) (j k : BitVec 2) (v w : Bool) :
    (r.flag j v).flagAsked k w = (r.flagAsked k w || (decide (j = k) && decide (v = w))) := by
  have hb : (flagBit j).getLsbD k.toNat = decide (j = k) := by revert j k; decide
  cases v <;> cases w <;> simp [Requests.flag, Requests.flagAsked, hb]

theorem flagAsked_congr {r t : Requests} (h1 : t.flagSet = r.flagSet) (h2 : t.flagClr = r.flagClr)
    (k : BitVec 2) (v : Bool) : t.flagAsked k v = r.flagAsked k v := by
  simp only [Requests.flagAsked, h1, h2]

@[simp] theorem flagAsked_sideAction (side : Side) (s : State) (k : BitVec 2) (v : Bool) :
    (sideAction side s).req.flagAsked k v = s.req.flagAsked k v :=
  flagAsked_congr (flagSet_sideAction _ _) (flagClr_sideAction _ _) k v

@[simp] theorem flagAsked_takeBits (u : Supply) (n : Nat) (s : State) (k : BitVec 2) (v : Bool) :
    (takeBits u n s).req.flagAsked k v = s.req.flagAsked k v :=
  flagAsked_congr (flagSet_takeBits _ _ _) (flagClr_takeBits _ _ _) k v

@[simp] theorem flagAsked_requestTxStall (s : State) (k : BitVec 2) (v : Bool) :
    (requestTxStall s).req.flagAsked k v = s.req.flagAsked k v := rfl

@[simp] theorem flagAsked_writePix (b : Bool) (s : State) (k : BitVec 2) (v : Bool) :
    (writePix b s).req.flagAsked k v = s.req.flagAsked k v := rfl

@[simp] theorem flagAsked_sampleBit (bit : Bool) (s : State) (k : BitVec 2) (v : Bool) :
    (sampleBit bit s).req.flagAsked k v = s.req.flagAsked k v := by
  unfold sampleBit deliver
  split
  · split <;> rfl
  · rfl

@[simp] theorem flagAsked_setTarget (target : SetTarget) (b : Bool) (s : State) (k : BitVec 2)
    (v : Bool) : (setTarget target b s).req.flagAsked k v =
      (s.req.flagAsked k v || decide (flagWrite target b k = some v)) := by
  cases target
  · simp only [setTarget, writeSidePin, flagWrite]; split <;> simp <;> rfl
  · simp [setTarget, flagWrite]
  · rename_i j
    simp only [setTarget, requestFlag, State.mapReq, setReq_req, flagAsked_flag, flagWrite]
    by_cases h : j = k <;> simp [h]

@[simp] theorem flagAsked_consumeFlag (src : WaitSrc) (consume : Bool) (s : State) (k : BitVec 2)
    (v : Bool) : (consumeFlag src consume s).req.flagAsked k v =
      (s.req.flagAsked k v || (consume && decide (src = .flag k) && !v)) := by
  cases consume
  · cases src <;> simp [consumeFlag]
  · cases src <;> simp [consumeFlag, requestFlag, State.mapReq, flagAsked_flag]

theorem flagAsked_runExecutable (x : Executable) (s : State) (k : BitVec 2) (v : Bool) :
    (runExecutable x s).req.flagAsked k v =
      (s.req.flagAsked k v || x.set.any fun tv => decide (flagWrite tv.1 tv.2 k = some v)) := by
  unfold runExecutable
  cases x.set <;> simp

/-- R126, R132, R133: the flags a word that acts asks for. -/
theorem exec_flagAsked {i : Instr} {s u : State} (hc : checkOf i s.me = none)
    (hu : exec i s = .next u) (k : BitVec 2) (v : Bool) :
    u.req.flagAsked k v = true ↔ flagValue s i k = some v := by
  cases i <;> simp only [checkOf] at hc <;>
    simp only [exec, execJmp, execWait, execShiftIn, execShiftOut, execGetX, execGetY, getField,
      execGetExec, execSeto, execLoad, execNop, hc, evaluate_ok, Host.Outcome.next.injEq] at hu <;>
    subst hu <;> simp only [commit_req, flagValue, setFlagOf]
  case jmp => simp
  case wait side dly level src consume =>
    have hv : ∀ s' : State, waitValue (s'.setReq Requests.none) src = waitValue s' src := fun _ => by
      cases src <;> rfl
    rw [hv]
    by_cases hk : src = .flag k
    · subst hk
      have hw : waitValue s (.flag k) = s.flags.getLsbD k.toNat := rfl
      by_cases h : waitValue s (.flag k) = level
      · rw [if_pos h]; cases consume <;> cases v <;> simp [← hw, h]
      · rw [if_neg h]; simp [← hw, h]
    · split <;> simp [hk]
  case shiftIn => split <;> simp
  case shiftOut => split <;> simp; split <;> simp
  case getX => simp only [me_setReq]; cases hs : supply s.me <;> simp
  case getY => simp only [me_setReq]; cases hs : supply s.me <;> simp
  case getExec side dly =>
    simp only [me_setReq, executedWord, headWord_eq]
    cases hs : supply s.me with
    | none => simp
    | some w =>
      cases hx : readExecutable s.me.config (execField w) with
      | error f => simp [checkExec, checkExec_get hc, hs, hx] at hc
      | ok x =>
        obtain ⟨j, hj, h⟩ := readExecutable_ok hx
        rw [execField_eq] at hj
        simp only [Option.map, hj, hx, flagAsked_runExecutable]
        rcases h with ⟨⟨tg, v⟩, hset, rfl⟩ | ⟨hset, rfl⟩ <;> simp [hset]
  case seto => simp
  case load => simp
  case nop => simp

/-! ### A turn -/

/-- An engine that evaluates has no fault (R120 c). -/
theorem activity_fault {s : State} {e : EngineId} (h : s.activity e = .evaluating) :
    (s.engine e).fault = none := by
  simp only [State.activity] at h
  split at h
  · cases h
  · split at h
    · cases h
    · rename_i hn
      by_contra hf
      exact hn (.inr hf)


/-- A word that passes its checks raises no fault (R122). -/
theorem faultless_of_check {s : State} {e : EngineId} {i : Instr} (hev : Evaluates s e i)
    (hc : checkOf i (s.focus e).me = none) : EvaluatesFaultless s e i := by
  obtain ⟨u, ho, ha, hu⟩ := exec_acts hc
  refine ⟨hev, _, hu, ?_⟩
  have hcur : u.cur = e := by rw [ho.state]; rfl
  have hm : (commit u).engine e = u.req.applyEngine u.me := by
    conv_lhs => rw [← hcur]
    exact commit_me u
  rw [hm, applyEngine_fault, ha.fault]
  exact activity_fault hev.1

/-- A turn with requests is the evaluation of a word that raises no fault. -/
theorem turn_word {s : State} {e : EngineId} {r : Turn} (h : s.turn exec e = .next r) :
    (r.req = Requests.none ∧ ∀ i, ¬ EvaluatesFaultless s e i) ∨
    ∃ i u, EvaluatesFaultless s e i ∧ checkOf i (s.focus e).me = none ∧
      exec i (s.focus e) = .next u ∧ r.req = u.req := by
  by_cases ha : s.activity e = .evaluating
  · cases hd : decode (fetch (s.engine e)) with
    | illegal f =>
      refine .inl ⟨?_, fun i hi => ?_⟩
      · rw [turn_fault (f := .illegalEncoding) ha (by simp only [evaluateFetched, hd]; rfl)] at h
        cases h; rfl
      · have := hi.1.2; rw [hd] at this; cases this
    | legal i =>
      have hev : evaluateFetched exec s e = exec i (s.focus e) := by simp only [evaluateFetched, hd]
      cases hc : checkOf i (s.focus e).me with
      | some f =>
        have hx := exec_fault hc
        refine .inl ⟨?_, fun j hj => ?_⟩
        · rw [turn_fault ha (hev.trans hx)] at h; cases h; rfl
        · obtain ⟨⟨_, hl⟩, u, hu, hf⟩ := hj
          rw [hd] at hl; cases hl
          rw [hx] at hu; cases hu
          rw [engine_faultedBy] at hf; cases hf
      | none =>
        obtain ⟨u, hu⟩ := exec_next i (s.focus e)
        refine .inr ⟨i, u, faultless_of_check ⟨ha, hd⟩ hc, hc, hu, ?_⟩
        rw [turn_evaluating ha (hev.trans hu)] at h; cases h; rfl
  · refine .inl ⟨?_, fun i hi => ha hi.1.1⟩
    obtain ⟨r', hr', hw⟩ := turn_next s e
    rw [h] at hr'; cases hr'
    exact hw.quiet ha

/-- R123: the pins that a turn asks for are those its word writes. -/
theorem turn_pinAsked {s : State} {e : EngineId} {r : Turn} (h : s.turn exec e = .next r)
    (p : OutPin) (v : Bool) : r.req.pinAsked p = some v ↔ WritesPin s e p v := by
  rcases turn_word h with ⟨hr, hn⟩ | ⟨i, u, hi, hc, hu, hr⟩
  · rw [hr, pinAsked_none]
    exact ⟨fun h => (by cases h), fun ⟨i, hi, _⟩ => absurd hi (hn i)⟩
  · rw [hr, exec_pinAsked hc hu]
    refine ⟨fun hw => ⟨i, hi, hw⟩, fun ⟨j, hj, hw⟩ => ?_⟩
    have := hi.1.2.symm.trans hj.1.2
    cases this
    exact hw

/-- R126, R133: the flags that a turn asks for are those its word writes. -/
theorem turn_flagAsked {s : State} {e : EngineId} {r : Turn} (h : s.turn exec e = .next r)
    (k : BitVec 2) (v : Bool) : r.req.flagAsked k v = true ↔ WritesFlag s e k v := by
  rcases turn_word h with ⟨hr, hn⟩ | ⟨i, u, hi, hc, hu, hr⟩
  · rw [hr, flagAsked_none]
    exact ⟨fun h => (by cases h), fun ⟨i, hi, _⟩ => absurd hi (hn i)⟩
  · rw [hr, exec_flagAsked hc hu]
    refine ⟨fun hw => ⟨i, hi, hw⟩, fun ⟨j, hj, hw⟩ => ?_⟩
    have := hi.1.2.symm.trans hj.1.2
    cases this
    exact hw

/-! ### Stall flags -/

theorem transferLeft_iff (s : State) (count : Count) :
    (∃ r, TransferLeft s count r) ↔ bitsLeft s count ≠ 0 := by
  constructor
  · rintro ⟨r, h⟩
    rw [bitsLeft_of h]; exact h.1
  · intro h
    refine ⟨bitsLeft s count, h, ?_⟩
    unfold bitsLeft
    split
    · exact countValue_toNat s count
    · rfl

@[simp] theorem rxStall_setTarget (target : SetTarget) (v : Bool) (s : State) :
    (setTarget target v s).req.rxStall = s.req.rxStall := (quiet_setTarget target v s).2.2.1
@[simp] theorem txStall_setTarget (target : SetTarget) (v : Bool) (s : State) :
    (setTarget target v s).req.txStall = s.req.txStall := (quiet_setTarget target v s).2.2.2
@[simp] theorem txStall_writePix (v : Bool) (s : State) :
    (writePix v s).req.txStall = s.req.txStall := rfl
@[simp] theorem txStall_requestTxStall (s : State) : (requestTxStall s).req.txStall = true := rfl
@[simp] theorem txStall_sampleBit (bit : Bool) (s : State) :
    (sampleBit bit s).req.txStall = s.req.txStall := by
  unfold sampleBit deliver
  split
  · split <;> rfl
  · rfl

theorem rxStall_sampleBit (bit : Bool) (s : State) :
    (sampleBit bit s).req.rxStall =
      if s.me.cnt + 1 = 32 ∧ ¬ s.me.fifo.length < s.params.fifoDepth then true
      else s.req.rxStall := by
  unfold sampleBit deliver
  by_cases h : s.me.cnt + 1 = 32
  · by_cases h2 : s.me.fifo.length < s.params.fifoDepth
    · rw [if_pos h, if_pos (by rw [me_mapMe]; exact h2), if_neg (fun hn => hn.2 h2)]; rfl
    · rw [if_pos h, if_neg (by rw [me_mapMe]; exact h2), if_pos ⟨h, h2⟩]; rfl
  · rw [if_neg h, if_neg (fun hn => h hn.1)]; rfl

/-- R128: a word that acts asks for `rx_stall` when it overruns. -/
theorem exec_rxAsked {i : Instr} {s u : State} (hc : checkOf i s.me = none)
    (hu : exec i s = .next u) :
    u.req.rxStall = true ↔ ∃ side dly count, i = .shiftIn side dly count ∧
      bitsLeft s count ≠ 0 ∧ s.me.cnt + 1 = 32 ∧ ¬ s.me.fifo.length < s.params.fifoDepth := by
  cases i <;> simp only [checkOf] at hc <;>
    simp only [exec, execJmp, execWait, execShiftIn, execShiftOut, execGetX, execGetY, getField,
      execGetExec, execSeto, execLoad, execNop, hc, evaluate_ok, Host.Outcome.next.injEq] at hu <;>
    subst hu <;> simp only [commit_req]
  case shiftIn side dly count =>
    have hb : bitsLeft (s.setReq Requests.none) count = bitsLeft s count := rfl
    rw [hb]
    by_cases h : bitsLeft s count = 0
    · rw [if_pos h]
      refine ⟨fun hr => ?_, fun ⟨_, _, _, he, hn, _⟩ => ?_⟩
      · simp [Requests.none] at hr
      · cases he; exact absurd h hn
    · rw [if_neg h, req_advanceTransfer, rxStall_sampleBit]
      simp only [me_sideAction, me_setReq, params_sideAction, setReq_params, rxStall_sideAction,
        setReq_req]
      constructor
      · intro hr
        split at hr
        · rename_i h2; exact ⟨_, _, _, rfl, h, h2⟩
        · cases hr
      · rintro ⟨_, _, _, he, _, h2⟩
        rw [if_pos h2]
  case wait => split <;> simp [quiet_consumeFlag, Requests.none]
  case shiftOut =>
    split
    · simp [Requests.none]
    · simp only [me_setReq]
      cases hs : supply s.me <;> simp [requestTxStall, State.mapReq, writePix, Requests.none]
  case getX => simp only [me_setReq]; cases hs : supply s.me <;> simp [requestTxStall, State.mapReq, Requests.none]
  case getY => simp only [me_setReq]; cases hs : supply s.me <;> simp [requestTxStall, State.mapReq, Requests.none]
  case getExec side dly =>
    simp only [me_setReq]
    cases hs : supply s.me with
    | none => simp [requestTxStall, State.mapReq, Requests.none]
    | some w =>
      cases hx : readExecutable s.me.config (execField w) with
      | error f => simp [checkExec, checkExec_get hc, hs, hx] at hc
      | ok x => simp only [hx, runExecutable]; cases x.set <;> simp [Requests.none]
  all_goals simp [Requests.none]

/-- R130: a word that acts asks for `tx_stall` when it runs dry. -/
theorem exec_txAsked {i : Instr} {s u : State} (hc : checkOf i s.me = none)
    (hu : exec i s = .next u) :
    u.req.txStall = true ↔ supply s.me = none ∧
      (i.op = .get ∨ ∃ side dly count, i = .shiftOut side dly count ∧ bitsLeft s count ≠ 0) := by
  cases i <;> simp only [checkOf] at hc <;>
    simp only [exec, execJmp, execWait, execShiftIn, execShiftOut, execGetX, execGetY, getField,
      execGetExec, execSeto, execLoad, execNop, hc, evaluate_ok, Host.Outcome.next.injEq] at hu <;>
    subst hu <;> simp only [commit_req, Instr.op]
  case wait => split <;> simp [quiet_consumeFlag, Requests.none]
  case shiftIn => split <;> simp [Requests.none]
  case shiftOut side dly count =>
    have hb : bitsLeft (s.setReq Requests.none) count = bitsLeft s count := rfl
    rw [hb]
    by_cases h : bitsLeft s count = 0
    · rw [if_pos h]
      refine ⟨fun hr => ?_, fun ⟨_, hn⟩ => ?_⟩
      · simp [Requests.none] at hr
      · rcases hn with hn | ⟨_, _, _, he, hn⟩
        · cases hn
        · cases he; exact absurd h hn
    · rw [if_neg h]
      simp only [me_setReq]
      cases hs : supply s.me with
      | none => exact ⟨fun _ => ⟨rfl, .inr ⟨_, _, _, rfl, h⟩⟩, fun _ => rfl⟩
      | some v => simp [Requests.none]
  case getX => simp only [me_setReq]; cases hs : supply s.me <;> simp [Requests.none]
  case getY => simp only [me_setReq]; cases hs : supply s.me <;> simp [Requests.none]
  case getExec side dly =>
    simp only [me_setReq]
    cases hs : supply s.me with
    | none => simp
    | some w =>
      cases hx : readExecutable s.me.config (execField w) with
      | error f => simp [checkExec, checkExec_get hc, hs, hx] at hc
      | ok x => simp only [hx, runExecutable]; cases x.set <;> simp [Requests.none]
  all_goals simp [Requests.none]

theorem supply_eq_none {en : Engine} : supply en = none ↔ en.cnt = 0 ∧ en.fifo = [] := by
  unfold supply
  split
  · rename_i h; cases en.fifo <;> simp [h]
  · rename_i h; exact ⟨fun hn => (by cases hn), fun hn => absurd hn.1 h⟩

theorem sideReady_of_check {side : Side} {need : Option Dir} {b : Bool} {s : State}
    (h : checkWord side need b s.me.config = none) : SideReady side s ∧ b = false := by
  unfold checkWord at h
  split at h
  · cases h
  · split at h
    · cases h
    · rename_i hn
      simp only [Bool.or_eq_true, Bool.and_eq_true, decide_eq_true_eq, not_or, not_and,
        Bool.not_eq_true] at hn
      refine ⟨?_, hn.1⟩
      by_cases hs : side = .none
      · exact .inl hs
      · exact .inr (hn.2 hs)

/-- R128: `rx_stall` is asked for by a turn that overruns. -/
theorem turn_rxAsked {s : State} {e : EngineId} {r : Turn} (h : s.turn exec e = .next r) :
    r.req.rxStall = true ↔ Overruns s e := by
  rcases turn_word h with ⟨hr, hn⟩ | ⟨i, u, hi, hc, hu, hr⟩
  · rw [hr]
    refine ⟨fun h => (by cases h), fun ⟨side, dly, count, t, hev, hs, hd, _⟩ => ?_⟩
    exact absurd (faultless_of_check hev (checkWord_some hs hd)) (hn _)
  · rw [hr, exec_rxAsked hc hu]
    constructor
    · rintro ⟨side, dly, count, rfl, hb, hcnt, hf⟩
      obtain ⟨t, ht⟩ := (transferLeft_iff _ _).2 hb
      exact ⟨side, dly, count, t, hi.1, (sideReady_of_check hc).1, checkWord_dir hc, ht, hcnt, hf⟩
    · rintro ⟨side, dly, count, t, hev, hs, hd, ht, hcnt, hf⟩
      have := hi.1.2.symm.trans hev.2
      cases this
      exact ⟨side, dly, count, rfl, (transferLeft_iff _ _).1 ⟨t, ht⟩, hcnt, hf⟩

/-- A word that would run dry passes its checks (R122, R130). -/
theorem check_of_dry {i : Instr} {s : State} (hs : SideReady i.side s)
    (hd : s.me.config.dir = .tx) (hu : supply s.me = none)
    (hi : i.op = .get ∨ ∃ side dly count, i = .shiftOut side dly count ∧
      s.me.config.pixDrv = true) : checkOf i s.me = none := by
  have hg : ∀ n, checkGet i.side n s.me = none := fun n =>
    checkGet_ok hs hd fun u h => by rw [hu] at h; cases h
  rcases hi with hi | ⟨side, dly, count, rfl, hp⟩
  · cases i <;> simp only [Instr.op, reduceCtorEq] at hi
    · exact hg _
    · exact hg _
    · rename_i side dly
      have : checkGet side 16 s.me = none := hg 16
      simp [checkOf, checkExec, this, hu]
  · have := checkWord_some (side := side) hs hd
    simpa [checkOf, hp] using this

/-- What the checks of such a word tell. -/
theorem dry_of_check {i : Instr} {s : State} (h : checkOf i s.me = none)
    (hi : i.op = .get ∨ ∃ side dly count, i = .shiftOut side dly count) :
    SideReady i.side s ∧ s.me.config.dir = .tx ∧
      ∀ side dly count, i = .shiftOut side dly count → s.me.config.pixDrv = true := by
  have hg : ∀ {side n}, checkGet side n s.me = none → SideReady side s := by
    intro side n h
    unfold checkGet at h
    split at h
    · cases h
    · rename_i hw; exact (sideReady_of_check hw).1
  rcases hi with hi | ⟨side, dly, count, rfl⟩
  · cases i <;> simp only [Instr.op, reduceCtorEq] at hi
    · exact ⟨hg h, (checkGet_dir h).1, by simp⟩
    · exact ⟨hg h, (checkGet_dir h).1, by simp⟩
    · exact ⟨hg (checkExec_get h), (checkGet_dir (checkExec_get h)).1, by simp⟩
  · obtain ⟨hs, hp⟩ := sideReady_of_check (h : checkWord _ _ _ _ = none)
    exact ⟨hs, checkWord_dir h, fun _ _ _ _ => by simpa using hp⟩

/-- R130: `tx_stall` is asked for by a turn that runs dry. -/
theorem turn_txAsked {s : State} {e : EngineId} {r : Turn} (h : s.turn exec e = .next r) :
    r.req.txStall = true ↔ RunsDry s e := by
  rcases turn_word h with ⟨hr, hn⟩ | ⟨i, u, hi, hc, hu, hr⟩
  · rw [hr]
    refine ⟨fun h => (by cases h), fun ⟨hd, h0, hf, i, hev, hs, hi⟩ => ?_⟩
    refine absurd (faultless_of_check hev (check_of_dry hs hd (supply_eq_none.2 ⟨h0, hf⟩) ?_)) (hn _)
    rcases hi with hi | ⟨side, dly, count, _, he, hp, _⟩
    · exact .inl hi
    · exact .inr ⟨side, dly, count, he, hp⟩
  · rw [hr, exec_txAsked hc hu]
    constructor
    · rintro ⟨hs, hop⟩
      obtain ⟨h0, hf⟩ := supply_eq_none.1 hs
      obtain ⟨hside, hd, hp⟩ := dry_of_check hc (hop.imp_right fun ⟨a, b, c, h, _⟩ => ⟨a, b, c, h⟩)
      refine ⟨hd, h0, hf, i, hi.1, hside, hop.imp_right ?_⟩
      rintro ⟨side, dly, count, he, hb⟩
      obtain ⟨t, ht⟩ := (transferLeft_iff _ _).2 hb
      exact ⟨side, dly, count, t, he, hp _ _ _ he, ht⟩
    · rintro ⟨hd, h0, hf, j, hev, hs, hop⟩
      have := hi.1.2.symm.trans hev.2
      cases this
      refine ⟨supply_eq_none.2 ⟨h0, hf⟩, hop.imp_right ?_⟩
      rintro ⟨side, dly, count, t, he, _, ht⟩
      exact ⟨side, dly, count, he, (transferLeft_iff _ _).1 ⟨t, ht⟩⟩

end Sys2Proof.Machine
end

