-- ==== Sys2Proof/Laws/View.lean ====
section
/-!
SUPPORT. Two states that a word cannot tell apart stay so under every shared operation (R8, R44): the
operations read the evaluated engine, the requests so far, the parameters, the pins, the edge
registers, the flags and the LUT, and nothing else.
-/

namespace Sys2Proof.Machine

/-- Two states that agree on all that a word being evaluated can read or has asked. -/
structure Alike (s t : State) : Prop where
  cur : t.cur = s.cur
  me : t.me = s.me
  req : t.req = s.req
  params : t.params = s.params
  pins : ∀ b, Input.pix t.input b = Input.pix s.input b ∧ Input.hs t.input b = Input.hs s.input b ∧
    Input.vs t.input b = Input.vs s.input b
  edges : ∀ b, t.edge b = s.edge b
  flags : t.flags = s.flags
  lut : t.lut = s.lut

/-- Agreement on the view of an engine is agreement as it evaluates a word. -/
theorem alike_focus {e : EngineId} {s t : State} (h : SameView e s t) :
    Alike ((s.focus e).setReq Requests.none) ((t.focus e).setReq Requests.none) :=
  ⟨rfl, h.engine, rfl, h.params, h.pins, h.edges, h.flags, h.lut⟩

theorem alike_mapMe {s t : State} (h : Alike s t) (f : Engine → Engine) :
    Alike (s.mapMe f) (t.mapMe f) := by
  refine ⟨h.cur, ?_, h.req, h.params, h.pins, h.edges, h.flags, h.lut⟩
  simp [h.me]

theorem alike_mapReq {s t : State} (h : Alike s t) (f : Requests → Requests) :
    Alike (s.mapReq f) (t.mapReq f) := by
  refine ⟨h.cur, h.me, ?_, h.params, h.pins, h.edges, h.flags, h.lut⟩
  show f t.req = f s.req
  rw [h.req]

theorem alike_writeSidePin {s t : State} (h : Alike s t) (v : Bool) :
    Alike (writeSidePin v s) (writeSidePin v t) := by
  simp only [writeSidePin, h.me]
  split
  · exact h
  · exact alike_mapReq h _
  · exact alike_mapReq h _

theorem alike_sideAction {s t : State} (h : Alike s t) (side : Side) :
    Alike (sideAction side s) (sideAction side t) := by
  cases side
  · exact h
  · exact alike_writeSidePin h _
  · exact alike_writeSidePin h _

theorem alike_setTarget {s t : State} (h : Alike s t) (target : SetTarget) (v : Bool) :
    Alike (setTarget target v s) (setTarget target v t) := by
  cases target
  · exact alike_writeSidePin h _
  · exact alike_mapReq h fun r => { r with pix := some v }
  · rename_i k; exact alike_mapReq h fun r => r.flag k v

theorem alike_completeAt {s t : State} (h : Alike s t) (target : Slot) (dly : BitVec 3) :
    Alike (completeAt target dly s) (completeAt target dly t) := alike_mapMe h _

theorem alike_complete {s t : State} (h : Alike s t) (dly : BitVec 3) :
    Alike (complete dly s) (complete dly t) := by
  simp only [complete, h.me]
  exact alike_completeAt h _ _

theorem alike_takeBits {s t : State} (h : Alike s t) (u : Supply) (n : Nat) :
    Alike (takeBits u n s) (takeBits u n t) := by
  simp only [takeBits]
  split
  · exact alike_mapReq (alike_mapMe h _) _
  · exact alike_mapMe h _

theorem alike_deliver {s t : State} (h : Alike s t) (w : Word) :
    Alike (deliver w s) (deliver w t) := by
  simp only [deliver, h.me, h.params]
  split <;> exact alike_mapReq h _

theorem alike_sampleBit {s t : State} (h : Alike s t) (bit : Bool) :
    Alike (sampleBit bit s) (sampleBit bit t) := by
  simp only [sampleBit, h.me]
  split
  · exact alike_deliver (alike_mapMe h _) _
  · exact alike_mapMe h _

theorem alike_advanceTransfer {s t : State} (h : Alike s t) (r : Word) (dly : BitVec 3) :
    Alike (advanceTransfer r dly s) (advanceTransfer r dly t) := by
  simp only [advanceTransfer]
  split
  · exact alike_complete (alike_mapMe h _) _
  · exact alike_mapMe h _

theorem alike_runExecutable {s t : State} (h : Alike s t) (x : Executable) :
    Alike (runExecutable x s) (runExecutable x t) := by
  unfold runExecutable
  refine alike_complete ?_ _
  cases x.set with
  | none => exact alike_sideAction h _
  | some p => exact alike_setTarget (alike_sideAction h _) _ _

theorem alike_decrementFor {s t : State} (h : Alike s t) (cond : Cond) :
    Alike (decrementFor cond s) (decrementFor cond t) := by
  cases cond
  case xDec => exact alike_mapMe h fun en => { en with x := en.x - 1 }
  case yDec => exact alike_mapMe h fun en => { en with y := en.y - 1 }
  all_goals exact h

theorem alike_consumeFlag {s t : State} (h : Alike s t) (src : WaitSrc) (consume : Bool) :
    Alike (consumeFlag src consume s) (consumeFlag src consume t) := by
  cases consume <;> cases src
  case true.flag k => exact alike_mapReq h fun r => r.flag k false
  all_goals exact h

/-! ### What the operands read -/

theorem waitValue_alike {s t : State} (h : Alike s t) (src : WaitSrc) :
    waitValue t src = waitValue s src := by
  cases src <;>
    simp [waitValue, h.me, h.pins, State.hsFall, State.hsRise, State.vsFall, State.vsRise, h.edges,
      State.flag, h.flags]

theorem jumpTaken_alike {s t : State} (h : Alike s t) (cond : Cond) :
    jumpTaken t cond = jumpTaken s cond := by
  cases cond <;> simp [jumpTaken, h.me, h.pins]

theorem bitsLeft_alike {s t : State} (h : Alike s t) (count : Count) :
    bitsLeft t count = bitsLeft s count := by
  cases count <;> simp [bitsLeft, countValue, h.me, State.lutAt, h.lut]

theorem loadValue_alike {s t : State} (h : Alike s t) (src : LoadSrc) :
    loadValue t src = loadValue s src := by
  cases src <;> simp [loadValue, State.lutAt, h.lut]

/-- The registers and requests that a turn takes from an evaluation are those of its state. -/
theorem alike_commit {s t : State} (h : Alike s t) :
    (commit t).me = (commit s).me ∧ (commit t).req = (commit s).req := by
  refine ⟨?_, h.req⟩
  rw [commit_me, commit_me, h.req, h.me]

end Sys2Proof.Machine
end

