-- ==== Sys2Proof/Machine/Recipes.lean ====
section
/-!
DEFINITION. What the host does with the machine: assembler text and pseudo-instructions (30 R107,
R108), loop-table entries and the self-generated sync recipe (R102, 44 R201, R206), the bring-up
sequences (70 R272 to R274), and the raster stimulus of 43 R172. No step calls any of it.
-/

namespace Sys2Proof.Machine

/-! ### Assembler text (R107) -/

/-- `side 0`, `side 1`, or nothing. -/
def Side.text : Side → String
  | .none => ""
  | .low => " side 0"
  | .high => " side 1"

/-- `dly d`, or nothing. -/
def dlyText (d : BitVec 3) : String := if d = 0 then "" else " dly " ++ toString d.toNat

/-- R94. -/
def Cond.text : Cond → String
  | .always => ""
  | .xDec => "X--, "
  | .yDec => "Y--, "
  | .vsHigh => "VS_HIGH, "
  | .vsLow => "VS_LOW, "
  | .hsHigh => "HS_HIGH, "
  | .hsLow => "HS_LOW, "

/-- R95. -/
def WaitSrc.text : WaitSrc → String
  | .pix => "PIX"
  | .hs => "HS"
  | .vs => "VS"
  | .hsFall => "HS_FALL"
  | .hsRise => "HS_RISE"
  | .vsFall => "VS_FALL"
  | .vsRise => "VS_RISE"
  | .flag k => "F" ++ toString k.toNat

/-- A LUT operand. -/
def lutText (k : BitVec 5) : String := "LUT[" ++ toString k.toNat ++ "]"

/-- R96. -/
def Count.text : Count → String
  | .imm m => toString (m.toNat + 1)
  | .lut k => lutText k

/-- R98. -/
def SetTarget.text : SetTarget → String
  | .pin => "PIN"
  | .pix => "PIX"
  | .flag k => "F" ++ toString k.toNat

/-- R99. -/
def LoadSrc.text : LoadSrc → String
  | .lut k => lutText k
  | .imm v => "#" ++ toString v.toNat

/-- 0 or 1. -/
def levelText (b : Bool) : String := if b then "1" else "0"

/-- A word in the assembler syntax of R107. -/
def Instr.text (i : Instr) : String :=
  (match i with
   | .jmp _ _ cond target => "JMP " ++ Cond.text cond ++ toString target.toNat
   | .wait _ _ level src consume =>
     "WAIT " ++ levelText level ++ ", " ++ WaitSrc.text src ++ (if consume then ", consume" else "")
   | .shiftIn _ _ c => "IN " ++ Count.text c
   | .shiftOut _ _ c => "OUT " ++ Count.text c
   | .getX _ _ m => "GET X, " ++ toString (m.toNat + 1)
   | .getY _ _ m => "GET Y, " ++ toString (m.toNat + 1)
   | .getExec _ _ => "GET EXEC, 16"
   | .seto _ _ t v => "SETO " ++ SetTarget.text t ++ ", " ++ levelText v
   | .load _ _ .x src => "LOAD X, " ++ LoadSrc.text src
   | .load _ _ .y src => "LOAD Y, " ++ LoadSrc.text src
   | .nop _ _ => "NOP")
  ++ Side.text i.side ++ dlyText i.delay

/-! ### Pseudo-instructions (R108) -/

/-- `HALT` in a slot: a jump to itself. -/
def pseudoHalt (slot : Slot) : Instr := .jmp .none 0 .always slot

/-- `DELAY d`, `1 ≤ d ≤ 8`: `NOP dly d-1`. -/
def pseudoDelay (d : Nat) : Instr := .nop .none (BitVec.ofNat 3 (d - 1))

/-- `WAIT_EDGE Fk`: the pair `WAIT 0, Fk`, `WAIT 1, Fk`. -/
def pseudoWaitEdge (k : BitVec 2) : List Instr :=
  [.wait .none 0 false (.flag k) false, .wait .none 0 true (.flag k) false]

/-- The counted busy-wait in a slot: `JMP X--, self`. -/
def pseudoBusyWait (slot : Slot) : Instr := .jmp .none 0 .xDec slot

/-! ### Loop tables -/

/-- A loop-table entry: the count in bits 31:16, the instruction in bits 15:0 (R102). -/
def tableEntry (count : BitVec 16) (code : OpWord) : Word := count ++ code

/-- `CLEAR` (R102). -/
def codeClear : OpWord := encode (.seto .none 0 .pin false)
/-- `SET` (R102). -/
def codeSet : OpWord := encode (.seto .none 0 .pin true)
/-- Pin high and flag cleared in one entry (R102, R206). -/
def codeInactive (k : BitVec 2) : OpWord := encode (.seto .high 0 (.flag k) false)
/-- Pin low and flag set in one entry (R102, R206). -/
def codeActive (k : BitVec 2) : OpWord := encode (.seto .low 0 (.flag k) true)

/-- The raw count of AUX_H for a nominal duration in cycles, 4 to 65539 (R201). -/
def rawCycles (nominal : Nat) : Option (BitVec 16) :=
  if auxHAdj ≤ nominal ∧ nominal ≤ 65535 + auxHAdj then some (BitVec.ofNat 16 (nominal - auxHAdj))
  else none

/-- The raw count of AUX_V for a nominal number of lines, 1 to 65536 (R201). -/
def rawLines (nominal : Nat) : Option (BitVec 16) :=
  if 1 ≤ nominal ∧ nominal ≤ 65536 then some (BitVec.ofNat 16 (nominal - 1)) else none

/-- The entry of one phase of the recipe (R206): a phase of length 0 is left out (log 21), and a length
that `raw` cannot express has no entry. -/
def phaseEntry (raw : Nat → Option (BitVec 16)) (nominal : Nat) (code : OpWord) :
    Option (List Word) :=
  if nominal = 0 then some [] else (raw nominal).map fun c => [tableEntry c code]

/-- A table of the recipe for self-generated sync (R206): front porch, sync, and the rest of the line or
frame, with flag `k`. -/
def recipeTable (raw : Nat → Option (BitVec 16)) (k : BitVec 2) (a : Axis) : Option (List Word) := do
  let front ← phaseEntry raw a.front (codeInactive k)
  let sync ← phaseEntry raw a.sync (codeActive k)
  let rest ← phaseEntry raw (a.back + a.active) (codeInactive k)
  some (front ++ sync ++ rest)

/-- The H table of the recipe (R206). -/
def recipeH (h : Axis) : Option (List Word) := recipeTable rawCycles 0 h

/-- The V table of the recipe (R206). -/
def recipeV (v : Axis) : Option (List Word) := recipeTable rawLines 1 v

/-! ### Bring-up (R272 to R274): one bus access per cycle -/

/-- Bring-up of capture, with nothing to change (R272). -/
def bringUpCapture : List HostAccess := [.write 0x0120 1, .write 0x0028 1]

/-- Consecutive writes from an address. -/
def writeBlock (base : Addr) : List Word → List HostAccess
  | [] => []
  | w :: ws => .write base w :: writeBlock (base + 1) ws

/-- The first frame loaded through the single-buffer window, then the feeder enabled (R273). -/
def loadFirstFrame (frame : List Word) : List HostAccess :=
  .write 0x0034 2 :: writeBlock 0x4000 frame ++ [.write 0x0034 1]

/-- Bring-up of true-sync generation with the reset LUT (R273). -/
def bringUpGeneration (frame : List Word) : List HostAccess :=
  loadFirstFrame frame ++ [.write 0x0160 1]

/-- Bring-up of self-generated-sync generation: GEN_IRQ, LUT writes, tables, arming, frame, start
(R274). -/
def bringUpSelfSync (lutWrites : List HostAccess) (tableH tableV frame : List Word) :
    List HostAccess :=
  writeBlock 0x0140 ((programGenIrq.toList.take 15).map (·.setWidth 32)) ++ lutWrites ++
    writeBlock 0x0200 tableH ++ writeBlock 0x0220 tableV ++
    [.write 0x0210 (0x100#32 ||| BitVec.ofNat 32 tableH.length),
     .write 0x0230 (0x100#32 ||| BitVec.ofNat 32 tableV.length)] ++
    loadFirstFrame frame ++ [.write 0x01E0 1, .write 0x01A0 1, .write 0x0160 1]

/-! ### The raster stimulus (R172) -/

/-- The position in a raster of cycle `t` after `idle` cycles: frame, line, column. -/
def rasterPosition (h v : Axis) (idle t : Nat) : Option (Nat × Nat × Nat) :=
  if t < idle then none
  else
    let u := t - idle
    some (u / (h.total * v.total), u % (h.total * v.total) / h.total, u % h.total)

/-- The capture pins of cycle `t` of a raster whose pixel (x, y) of frame f is `pix f y x` (R172). -/
def rasterInput (h v : Axis) (idle : Nat) (pix : Nat → Nat → Nat → Bool) (t : Nat) : Input :=
  match rasterPosition h v idle t with
  | none => Input.quiet
  | some (f, y, x) =>
    let y0 := v.front + v.sync + v.back
    let x0 := h.front + h.sync + h.back
    { Input.quiet with
      capHsync := !(decide (h.front ≤ x) && decide (x < h.front + h.sync))
      capVsync := !(decide (v.front ≤ y) && decide (y < v.front + v.sync))
      capPix := decide (y0 ≤ y) && decide (x0 ≤ x) && pix f (y - y0) (x - x0) }

end Sys2Proof.Machine
end

