-- ==== Sys2Proof/Tests/Slice0.lean ====
section
/-!
SUPPORT. Tests of the model against the worked examples of the spec (30_encoding R109, 95_test_vectors),
and for every statement of Certificates/Slice0/Obligations.lean with hypotheses a witness: a concrete
state and operands that meet them together, for each of its clauses.
-/

namespace Sys2Proof.Tests

open Sys2Proof Sys2Proof.Machine

/-! ### WellFormed refuses (R95) -/

theorem test_consume_needs_flag : consumeNamesFlag .hsFall true = false := by decide
theorem test_consume_on_pin_refused :
    Instr.wellFormed (.wait .none 0 true .hsFall true) = false := by decide
theorem test_consume_needs_level_one : consumeWaitsHigh false true = false := by decide
theorem test_consume_at_level_zero_refused :
    Instr.wellFormed (.wait .none 0 false (.flag 0) true) = false := by decide

/-! ### Decoding: the words of R109's table and of the vectors of 95 part 5 -/

theorem test_decode_jmp :
    decode 0x0083 = .legal (.jmp .none 0 .vsLow 3) ∧
    decode 0x002A = .legal (.jmp .none 0 .xDec 10) := by decide
theorem test_decode_wait :
    decode 0x20A0 = .legal (.wait .none 0 true .hsFall false) ∧
    decode 0x20B8 = .legal (.wait .none 0 true .vsRise false) ∧
    decode 0x2040 = .legal (.wait .none 0 false (.flag 0) false) ∧
    decode 0x20C4 = .legal (.wait .none 0 true (.flag 0) true) := by decide
theorem test_decode_in :
    decode 0x408F = .legal (.shiftIn .none 0 (.lut 15)) ∧
    decode 0x411F = .legal (.shiftIn .none 1 (.imm 31)) := by decide
theorem test_decode_out :
    decode 0x608F = .legal (.shiftOut .none 0 (.lut 15)) ∧
    decode 0x601F = .legal (.shiftOut .none 0 (.imm 31)) := by decide
theorem test_decode_get_x : decode 0x900F = .legal (.getX .low 0 15) := by decide
theorem test_decode_get_y : decode 0x805F = .legal (.getY .none 0 31) := by decide
theorem test_decode_get_exec : decode 0x808F = .legal (.getExec .none 0) := by decide
theorem test_decode_seto :
    decode 0xA020 = .legal (.seto .none 0 .pix false) ∧
    decode 0xB081 = .legal (.seto .low 0 (.flag 0) true) ∧
    decode 0xB900 = .legal (.seto .high 1 .pin false) := by decide
theorem test_decode_load :
    decode 0xC012 = .legal (.load .none 0 .x (.lut 18)) ∧
    decode 0xC091 = .legal (.load .none 0 .y (.lut 17)) ∧
    decode 0xC045 = .legal (.load .none 0 .x (.imm 5)) := by decide
theorem test_decode_nop :
    decode 0xE700 = .legal (.nop .none 7) ∧ decode 0xF300 = .legal (.nop .low 3) := by decide
/-- One word for each line of R101. -/
theorem test_decode_reserved :
    decode 0x0800 = .illegal .reservedSide ∧ decode 0x00E0 = .illegal .reservedCond ∧
    decode 0x2001 = .illegal .waitMustBeZero ∧ decode 0x2018 = .illegal .reservedWaitSource ∧
    decode 0x2044 = .illegal .consumeNotAllowed ∧ decode 0x40A0 = .illegal .reservedCount ∧
    decode 0x80C0 = .illegal .reservedGetDest ∧ decode 0x8020 = .illegal .reservedGetWidth ∧
    decode 0x808E = .illegal .execWidthNot16 ∧ decode 0xA002 = .illegal .setoMustBeZero ∧
    decode 0xA040 = .illegal .reservedSetoTarget ∧ decode 0xC020 = .illegal .reservedLoadIndex ∧
    decode 0xE001 = .illegal .nopMustBeZero := by decide
theorem test_decode_table_word :
    decodeTableWord 16 0xC045 = some (.load .none 0 .x (.imm 5)) ∧
    decodeTableWord 16 0xFFFF = none := by decide

/-! ### States for tests -/

/-- After reset, with `en` as engine `e`, whose word is evaluated with the inputs `i`. -/
def evalAt (e : EngineId) (en : Engine) (i : Input := Input.quiet) : State :=
  { State.reset with cur := e, eng := resetEngines.set e en, stim := [i] }

/-- After reset, with one input listed. -/
def withInput (i : Input) : State := { State.reset with stim := [i] }

/-- After reset, with one host access listed. -/
def withHost (h : HostAccess) : State := withInput { Input.quiet with host := h }

/-- Engine `e` replaced by a function of it. -/
def tuned (e : EngineId) (f : Engine → Engine) (s : State) : State := s.setEngine e (f (s.engine e))

/-- The outcome is a next state with a property. -/
def nextHas (o : Host.Outcome State Fault Refusal) (p : State → Bool) : Bool :=
  match o with
  | .next t => p t
  | .fault _ => false
  | .refused _ => false

/-- The reset state of an engine, running. -/
def going (e : EngineId) : Engine := { resetEngine e with run := true }

/-! ### One evaluation of each word (rows of 95 part 5) -/

/-- M1 cycle 2. -/
theorem test_jmp_taken : nextHas (exec (.jmp .none 0 .xDec 1) (evalAt .cap { going .cap with pc := 1, x := 2 }))
    (fun t => t.me.pc == 1 && t.me.x == 1) = true := by decide
/-- M1 cycle 4. -/
theorem test_jmp_not_taken_wraps :
    nextHas (exec (.jmp .none 0 .xDec 1) (evalAt .cap { going .cap with pc := 1, x := 0 }))
    (fun t => t.me.pc == 2 && t.me.x == 0xFFFFFFFF) = true := by decide
/-- M2 cycle 4. -/
theorem test_wait_consumes :
    nextHas (exec (.wait .none 0 true (.flag 0) true)
      { evalAt .cap { going .cap with pc := 1 } with flags := 1 })
    (fun t => t.me.pc == 2 && t.flags == 0) = true := by decide
/-- M2b cycle 3: the falling strobe. -/
theorem test_wait_strobe :
    nextHas (exec (.wait .none 0 true .vsFall false)
      (evalAt .cap (going .cap) { Input.quiet with capVsync := false }))
    (fun t => t.me.pc == 1) = true := by decide
/-- M3 cycle 32: the 32nd bit. -/
theorem test_in_delivers :
    nextHas (exec (.shiftIn .none 0 (.imm 28))
      (evalAt .cap { going .cap with pc := 1, sr := 0x5CCCCCCC, cnt := 31, rem := 1 }
        { Input.quiet with capPix := true }))
    (fun t => t.me.pc == 2 && t.me.fifo == [0xB9999999] && t.me.sr == 0 && t.me.cnt == 0) = true := by
  decide
/-- M3 cycle 33: a count of 0. -/
theorem test_in_count_zero :
    nextHas (exec (.shiftIn .none 0 (.lut 22)) (evalAt .cap { going .cap with pc := 2 }))
    (fun t => t.me.pc == 3 && t.me.cnt == 0) = true := by decide
/-- M4 cycle 23: the refill. -/
theorem test_out_refills :
    nextHas (exec (.shiftOut .none 0 (.imm 3))
      (evalAt .gen { going .gen with pc := 4, fifo := [0xF0000000] }))
    (fun t => t.me.pc == 4 && t.me.sr == 0xE0000000 && t.me.cnt == 31 && t.me.rem == 3 &&
      t.me.fifo == [] && t.out.pix) = true := by decide
/-- M6: `OUT` on an engine without the pixel pin. -/
theorem test_out_no_pin :
    nextHas (exec (.shiftOut .none 0 (.imm 0)) (evalAt .hs (going .hs)))
    (fun t => t.me.fault == some .noPin && t.me.pc == 0) = true := by decide
/-- M4 cycle 4. -/
theorem test_get_x :
    nextHas (exec (.getX .none 0 7) (evalAt .gen { going .gen with fifo := [0x12A5C3F0] }))
    (fun t => t.me.x == 0x12 && t.me.sr == 0xA5C3F000 && t.me.cnt == 24 && t.me.fifo == []) = true := by
  decide
/-- M8 cycle 1: held, with the side action done. -/
theorem test_get_x_held :
    nextHas (exec (.getX .low 0 15) (evalAt .vs (going .vs)))
    (fun t => t.me.pc == 0 && t.me.txStall && !t.out.vsync) = true := by decide
/-- M4 cycle 5. -/
theorem test_get_y :
    nextHas (exec (.getY .none 0 7) (evalAt .gen { going .gen with sr := 0xA5C3F000, cnt := 24 }))
    (fun t => t.me.y == 0xA5 && t.me.x == 0 && t.me.cnt == 16) = true := by decide
/-- M4 cycle 27. -/
theorem test_get_y_underflow :
    nextHas (exec (.getY .none 0 31) (evalAt .gen { going .gen with pc := 5, cnt := 28 }))
    (fun t => t.me.fault == some .fieldUnderflow && t.me.cnt == 28 && t.me.pc == 5) = true := by decide
/-- M5 cycle 3. -/
theorem test_get_exec :
    nextHas (exec (.getExec .none 0) (evalAt .hs { going .hs with pc := 1, sr := 0xB0810000, cnt := 16 }))
    (fun t => t.me.pc == 2 && !t.out.hsync && t.flags == 1 && t.me.cnt == 0) = true := by decide
/-- M5 cycle 8. -/
theorem test_get_exec_not_allowed :
    nextHas (exec (.getExec .none 0) (evalAt .hs { going .hs with pc := 1, sr := 0xC0450000, cnt := 16 }))
    (fun t => t.me.fault == some .execNotAllowed && t.me.sr == 0xC0450000 && t.me.pc == 1) = true := by
  decide
/-- M7 cycle 7: the operation's value wins. -/
theorem test_seto_over_side :
    nextHas (exec (.seto .high 1 .pin false) (evalAt .vs { going .vs with pc := 3 }))
    (fun t => t.me.pc == 4 && t.me.dly == 1 && !t.out.vsync) = true := by decide
/-- M6b: the pin is checked before anything is done. -/
theorem test_seto_no_pin :
    nextHas (exec (.seto .low 0 .pix true) (evalAt .hs (going .hs)))
    (fun t => t.me.fault == some .noPin && t.out.hsync) = true := by decide
/-- P1: `LOAD X, LUT[18]` of the reset LUT (R157), evaluated at slot 9. -/
theorem test_load_lut :
    nextHas (exec (.load .none 0 .x (.lut 18)) (evalAt .cap { going .cap with pc := 9 }))
    (fun t => t.me.x == 175 && t.me.y == 0 && t.me.pc == 10) = true := by decide
/-- M1 cycle 5. -/
theorem test_load_immediate :
    nextHas (exec (.load .none 0 .y (.imm 0)) (evalAt .cap { going .cap with pc := 2, y := 9 }))
    (fun t => t.me.y == 0 && t.me.pc == 3) = true := by decide
/-- M7 cycle 1. -/
theorem test_nop_side_delay :
    nextHas (exec (.nop .low 3) (evalAt .vs (going .vs)))
    (fun t => t.me.pc == 1 && t.me.dly == 3 && !t.out.vsync) = true := by decide
/-- M6b: a side action without a pin. -/
theorem test_nop_no_pin :
    nextHas (exec (.nop .high 0) (evalAt .cap (going .cap)))
    (fun t => t.me.fault == some .noPin && t.me.pc == 0) = true := by decide

/-! ### One cycle of the machine -/

/-- B1, B8. -/
theorem test_bus_reads :
    (withHost (.read 0x0004)).busReadData = some 690 ∧
    (withHost (.read 0x0024)).busReadData = some 0x636 := by decide
/-- B10. -/
theorem test_unmapped_read_refused :
    nextHas (step (withHost (.read 0x0025))) (fun t => t.busData == some 0 && t.busErr) = true := by
  decide
/-- Every step from a word placed by `withFetchWord` runs that word: here `SETO PIX, 0`. -/
theorem test_fetch_word :
    (State.reset.withFetchWord 16 0xA020).activity .gen = .evaluating ∧
    fetch ((State.reset.withFetchWord 16 0xA020).engine .gen) = 0xA020 := by decide
/-- The canonical form of memory, kept by writing two words out of order. -/
theorem test_memory_canonical :
    Memory.wf (Memory.writeWord (Memory.writeWord [] 3 0x01020304) 1 5) ∧
    Memory.readWord (.cbank false) (Memory.writeWord [] 3 0x01020304) 3 = 0x01020304 := by decide
/-- R106: a write of `CAP_XCTRL` with neither bit does nothing, in a recovery too (log 9); a command is
refused then (R245). -/
theorem test_empty_command_in_recovery :
    let s := fun d => tuned .cap (fun en => { en with rxStall := true }) (withHost (.write 0x0028 d))
    (s 0).busCmd = .none ∧ (s 1).busCmd = .refused := by decide
/-- R10, R11: a frame that does not fit a bank, or is no whole number of words, is no parameter. -/
theorem test_params_wf :
    Params.reference.wf = true ∧ { Params.reference with activeH := 343 }.wf = false ∧
    { Params.reference with activeW := 511 }.wf = false := by decide
/-- R167: slot 12 of CAP leads to the line wait, slot 13 to the frame wait. -/
theorem test_sync_state_loop_back :
    (tuned .cap (fun en => { en with pc := 12 }) State.reset).captureSyncState =
      some (.loopBack .hSyncWait) ∧
    (tuned .cap (fun en => { en with pc := 13 }) State.reset).captureSyncState =
      some (.loopBack .awaitingVSync) := by decide
/-- R206: a phase of length 0 is left out. -/
theorem test_recipe_without_sync :
    recipeH ⟨10, 0, 5, 20⟩ = some [0x0006B880, 0x0015B880] ∧
    recipeV ⟨0, 2, 1, 3⟩ = some [0x0001B0A1, 0x0003B8A0] := by decide
theorem test_reset_memory_canonical : Memory.wf State.reset.cap.bank0 := by decide

/-! ### The Timing Calculator (95 part 3) -/

/-- T1. -/
theorem test_compute_reference :
    let t := compute (referenceMode 1) 1
    t.hTotal = 690 ∧ t.vTotal = 255300 ∧ t.vActive = 235980 ∧ t.delay = 178 := by decide +kernel
/-- T1: the derived constants fill the reset LUT (R157, R158). -/
theorem test_reset_lut :
    lutWords (referenceMode 1) 1 true 0 0 = some resetLut.toList := by decide +kernel
/-- T4. -/
theorem test_compute_total_rounded_alone :
    let t := compute { pixelClock := 2, h := ⟨1, 1, 1, 1⟩, v := ⟨0, 1, 1, 2⟩ } 3
    t.hFront = 2 ∧ t.hActive = 2 ∧ t.hTotal = 6 ∧ t.vTotal = 24 := by decide +kernel
/-- T5: `rhe(252.5) = 252`. -/
theorem test_rhe_ties_to_even : rhe (505 / 2) = 252 ∧ rhe (15 / 2) = 8 := by decide +kernel
/-- F2. -/
theorem test_frame_format :
    pixelWord (pixelIndex 512 511 341) = 5471 ∧ pixelBit (pixelIndex 512 100 7) = 27 := by decide

/-! ### Witnesses: encoding and engine step -/

theorem witness_round_trip : Instr.wellFormed (.wait .none 0 true (.flag 0) true) = true := by decide

/-- `E_CAP` running, its slot 0 replaced by a reserved word. -/
def reservedAtCap : State := evalAt .cap { going .cap with prog := (going .cap).prog.set 0 0x0800 }

theorem witness_ReservedWordsAreIllegal :
    reservedAtCap.activity .cap = .evaluating ∧ reservedWord (fetch (reservedAtCap.engine .cap)) := by
  exact ⟨by decide, by unfold reservedWord; decide⟩

/-- All four engines running in their reset programs, the feeder on, a frame being captured. -/
def busy : State :=
  { withInput Input.quiet with
    eng := { cap := going .cap, gen := going .gen, hs := going .hs, vs := going .vs }
    cap := { resetCapture [] [] with x := .transferring, wdOn := true, wdCtr := 5 }
    gen := { resetGeneration [] [] with feedEn := true } }

/-- A cycle with `rst = 1`. -/
def inReset : State := { busy with stim := [{ Input.quiet with rst := true }] }

theorem inv_busy : MachineInv busy where
  params := by decide
  engines := by intro e; cases e <;> exact ⟨by decide, by decide⟩
  capture := ⟨by decide, by decide, by decide, by decide, by decide, by decide⟩
  generation := ⟨by decide, by decide, by decide, by decide, by decide⟩
  players := by intro g; cases g <;> exact ⟨by decide, by decide, by decide⟩
  requests := rfl

theorem witness_InvariantKeptByStep : MachineInv busy := inv_busy

theorem witness_StepRunsDecodedInstruction :
    MachineInv busy ∧ busy.input.rst = false ∧ Evaluates busy .cap (.jmp .none 0 .vsLow 3) :=
  ⟨inv_busy, by decide, by decide, by decide⟩

/-- `E_CAP` alone, running its reset program. -/
def alone : State := evalAt .cap (going .cap)

theorem witness_SoleEngineStepIsExec :
    SoleEngine alone .cap ∧ decode (fetch (alone.engine .cap)) = .legal (.jmp .none 0 .vsLow 3) := by
  refine ⟨⟨by decide, by decide, by decide, ?_, by decide, by decide, ?_, by decide, by decide⟩,
    by decide⟩
  · intro e h; cases e <;> first | exact absurd rfl h | decide
  · intro g; cases g <;> decide

theorem witness_EngineTurn :
    inReset.input.rst = true ∧
    (reservedAtCap.restartsEngine .cap = false ∧ (reservedAtCap.engine .cap).run = true ∧
      (reservedAtCap.engine .cap).fault = none ∧ (reservedAtCap.engine .cap).dly = 0 ∧
      decode (fetch (reservedAtCap.engine .cap)) = .illegal .reservedSide) ∧
    (withHost (.write 0x0120 2)).restartsEngine .cap = true ∧
    (State.reset.engine .cap).run = false ∧
    ((evalAt .cap { going .cap with fault := some .noPin }).engine .cap).fault ≠ none ∧
    (let s := evalAt .cap { going .cap with dly := 7 }
     s.restartsEngine .cap = false ∧ (s.engine .cap).run = true ∧ (s.engine .cap).fault = none ∧
       (s.engine .cap).dly ≠ 0) ∧
    (alone.restartsEngine .cap = false ∧ (alone.engine .cap).run = true ∧
      (alone.engine .cap).fault = none ∧ (alone.engine .cap).dly = 0 ∧
      decode (fetch (alone.engine .cap)) = .legal (.jmp .none 0 .vsLow 3)) := by decide

/-- Two different states that `E_CAP` cannot tell apart. -/
theorem witness_ExecDependsOnlyOnItsView :
    SameView .cap alone (tuned .vs (fun en => { en with x := 7 }) alone) ∧
    tuned .vs (fun en => { en with x := 7 }) alone ≠ alone := by
  refine ⟨⟨by decide, by decide, ?_, ?_, by decide, by decide⟩, by decide⟩ <;>
    (intro b; cases b <;> decide)

/-- `E_HS` with 16 bits of a field in the shift register. -/
def fieldAt (w : Word) (c : BitVec 6) : State := evalAt .hs { going .hs with sr := w, cnt := c }

theorem witness_FaultChecksInOrder :
    (reservedAtCap.activity .cap = .evaluating ∧
      decode (fetch (reservedAtCap.engine .cap)) = .illegal .reservedSide) ∧
    ¬ DirectionReady (.shiftIn .none 0 (.imm 0)) (resetConfig .gen) ∧
    (DirectionReady (.shiftOut .none 0 (.imm 0)) (resetConfig .hs) ∧
      PinMissing (.shiftOut .none 0 (.imm 0)) (resetConfig .hs)) ∧
    (DirectionReady (.getX .none 0 15) (resetConfig .hs) ∧
      ¬ PinMissing (.getX .none 0 15) (resetConfig .hs) ∧
      (fieldAt 0 15).me.cnt ≠ 0 ∧ (fieldAt 0 15).me.cnt.toNat < (15#5).toNat + 1) ∧
    (DirectionReady (.getExec .none 0) (resetConfig .hs) ∧
      ¬ PinMissing (.getExec .none 0) (resetConfig .hs) ∧
      (fieldAt 0 15).me.cnt ≠ 0 ∧ (fieldAt 0 15).me.cnt.toNat < 16) ∧
    (Supplies (fieldAt 0x08000000 16).me 0x08000000 16 [] ∧
      decode ((0x08000000 : Word).extractLsb' 16 16) = .illegal .reservedSide) ∧
    (Supplies (fieldAt 0xC0450000 16).me 0xC0450000 16 [] ∧
      decode ((0xC0450000 : Word).extractLsb' 16 16) = .legal (.load .none 0 .x (.imm 5)) ∧
      ¬ MayBeExecuted (.load .none 0 .x (.imm 5))) ∧
    (Supplies (fieldAt 0xA0200000 16).me 0xA0200000 16 [] ∧
      decode ((0xA0200000 : Word).extractLsb' 16 16) = .legal (.seto .none 0 .pix false) ∧
      MayBeExecuted (.seto .none 0 .pix false) ∧
      PinMissing (.seto .none 0 .pix false) (resetConfig .hs)) := by
  refine ⟨⟨by decide, by decide⟩, ?_, ⟨?_, ?_⟩, ⟨?_, ?_, by decide, by decide⟩,
    ⟨?_, ?_, by decide, by decide⟩, ⟨?_, by decide⟩, ⟨?_, by decide, ?_⟩, ?_, by decide, ?_, ?_⟩ <;>
  first
    | (simp [DirectionReady, Instr.op, resetConfig]; done)
    | (unfold PinMissing; decide)
    | (unfold Supplies; decide)
    | (unfold MayBeExecuted; decide)

/-! ### Witnesses: results of the words -/

/-- A side action on an engine with a pin, and none on an engine without. -/
theorem sideReady_hs : SideReady .low (evalAt .hs (going .hs)) := Or.inr (by decide)

theorem sideReady_none (s : State) : SideReady .none s := Or.inl rfl

theorem witness_JmpResult :
    (SideReady .low (evalAt .hs { going .hs with x := 1 }) ∧
      ConditionHolds (evalAt .hs { going .hs with x := 1 }) .xDec) ∧
    (SideReady .low (evalAt .hs (going .hs)) ∧ ¬ ConditionHolds (evalAt .hs (going .hs)) .xDec) := by
  refine ⟨⟨Or.inr (by decide), ?_⟩, Or.inr (by decide), ?_⟩ <;>
    (unfold ConditionHolds; decide)

theorem witness_WaitCompletes :
    (Instr.wait .none 0 true (.flag 3) true).wellFormed = true ∧ SideReady .none alone ∧
    WaitOver { alone with flags := 8 } true (.flag 3) := by
  refine ⟨by decide, Or.inl rfl, ?_⟩
  unfold WaitOver SourceHigh; decide

theorem witness_WaitHolds :
    (Instr.wait .none 0 true .hsFall false).wellFormed = true ∧ SideReady .none alone ∧
    ¬ WaitOver alone true .hsFall := by
  refine ⟨by decide, Or.inl rfl, ?_⟩
  unfold WaitOver SourceHigh; decide

/-- The first sample of a transfer, and its 32nd bit with room in the FIFO and without. -/
theorem witness_InSamplesOneBit :
    (SideReady .none alone ∧ alone.me.config.dir = .rx ∧ TransferLeft alone (.imm 127) 128 ∧
      alone.me.cnt + 1 ≠ 32) ∧
    (let s := evalAt .cap { going .cap with cnt := 31, rem := 1 }
     SideReady .none s ∧ s.me.config.dir = .rx ∧ TransferLeft s (.lut 15) 1 ∧ s.me.cnt + 1 = 32 ∧
       s.me.fifo.length < s.params.fifoDepth) ∧
    (let s := evalAt .cap { going .cap with cnt := 31, rem := 1, fifo := [1, 2, 3, 4, 5, 6, 7, 8] }
     SideReady .none s ∧ s.me.config.dir = .rx ∧ TransferLeft s (.lut 15) 1 ∧ s.me.cnt + 1 = 32 ∧
       ¬ s.me.fifo.length < s.params.fifoDepth) := by
  refine ⟨⟨Or.inl rfl, ?_, ?_, ?_⟩, ⟨Or.inl rfl, ?_, ?_, ?_, ?_⟩, ⟨Or.inl rfl, ?_, ?_, ?_, ?_⟩⟩ <;>
    first | decide | (unfold TransferLeft; decide)

/-- The last bit of the shift register, and a refill. -/
theorem witness_OutDrivesOneBit :
    (let s := evalAt .gen { going .gen with sr := 0x80000000, cnt := 1, rem := 5 }
     SideReady .none s ∧ s.me.config.dir = .tx ∧ s.me.config.pixDrv = true ∧
       TransferLeft s (.lut 15) 5 ∧ Supplies s.me 0x80000000 1 []) ∧
    (let s := evalAt .gen { going .gen with fifo := [7, 8] }
     SideReady .none s ∧ s.me.config.dir = .tx ∧ s.me.config.pixDrv = true ∧
       TransferLeft s (.lut 15) 512 ∧ Supplies s.me 7 32 [8]) := by
  refine ⟨⟨Or.inl rfl, ?_, ?_, ?_, ?_⟩, Or.inl rfl, ?_, ?_, ?_, ?_⟩ <;>
    first | decide | (unfold TransferLeft; decide) | (unfold Supplies; decide)

theorem witness_EmptyTransferCompletes :
    (SideReady .none alone ∧ alone.me.config.dir = .rx ∧ alone.me.rem = 0 ∧ alone.lutAt 22 = 0) ∧
    (let s := evalAt .gen (going .gen)
     SideReady .none s ∧ s.me.config.dir = .tx ∧ s.me.config.pixDrv = true ∧ s.me.rem = 0 ∧
       s.lutAt 22 = 0) := by
  refine ⟨⟨Or.inl rfl, ?_, ?_, ?_⟩, Or.inl rfl, ?_, ?_, ?_, ?_⟩ <;> decide

/-- The same state serves `GET` and `OUT`. -/
theorem witness_EmptyFifoHolds :
    let s := evalAt .gen (going .gen)
    SideReady .none s ∧ s.me.config.dir = .tx ∧ s.me.cnt = 0 ∧ s.me.fifo = [] ∧
      s.me.config.pixDrv = true ∧ TransferLeft s (.imm 0) 1 := by
  refine ⟨Or.inl rfl, ?_, ?_, ?_, ?_, ?_⟩ <;> first | decide | (unfold TransferLeft; decide)

/-- A field of all the bits there are, from the FIFO (`n = 32`) and from the shift register. -/
theorem witness_GetCounterResult :
    (let s := evalAt .gen { going .gen with fifo := [0xDEADBEEF] }
     SideReady .none s ∧ s.me.config.dir = .tx ∧ Supplies s.me 0xDEADBEEF 32 [] ∧
       (31#5).toNat + 1 ≤ (32#6).toNat) ∧
    (let s := fieldAt 0xBEEF0000 16
     SideReady .low s ∧ s.me.config.dir = .tx ∧ Supplies s.me 0xBEEF0000 16 [] ∧
       (15#5).toNat + 1 ≤ (16#6).toNat) := by
  refine ⟨⟨Or.inl rfl, ?_, ?_, ?_⟩, Or.inr ?_, ?_, ?_, ?_⟩ <;>
    first | decide | (unfold Supplies; decide)

theorem witness_GetExecResult :
    (SideReady .high (fieldAt 0xB0810000 16) ∧ (fieldAt 0xB0810000 16).me.config.dir = .tx ∧
      Supplies (fieldAt 0xB0810000 16).me 0xB0810000 16 [] ∧ 16 ≤ (16#6).toNat ∧
      decode ((0xB0810000 : Word).extractLsb' 16 16) = .legal (.seto .low 0 (.flag 0) true) ∧
      ¬ PinMissing (.seto .low 0 (.flag 0) true) (fieldAt 0xB0810000 16).me.config) ∧
    (SideReady .high (fieldAt 0xF3000000 16) ∧ (fieldAt 0xF3000000 16).me.config.dir = .tx ∧
      Supplies (fieldAt 0xF3000000 16).me 0xF3000000 16 [] ∧
      decode ((0xF3000000 : Word).extractLsb' 16 16) = .legal (.nop .low 3) ∧
      ¬ PinMissing (.nop .low 3) (fieldAt 0xF3000000 16).me.config) := by
  refine ⟨⟨Or.inr ?_, ?_, ?_, ?_, ?_, ?_⟩, Or.inr ?_, ?_, ?_, ?_, ?_⟩ <;>
    first | decide | (unfold Supplies; decide) | (unfold PinMissing; decide)

/-- The side pin, the pixel pin, and a flag on an engine without pins. -/
theorem witness_SetoResult :
    ¬ PinMissing (.seto .high 0 .pin false) (evalAt .hs (going .hs)).me.config ∧
    ¬ PinMissing (.seto .none 0 .pix true) (evalAt .gen (going .gen)).me.config ∧
    ¬ PinMissing (.seto .none 0 (.flag 3) true) (evalAt .cap (going .cap)).me.config := by
  refine ⟨?_, ?_, ?_⟩ <;> (unfold PinMissing; decide)

/-- For `LoadResult` and `NopResult`. -/
theorem witness_LoadResult_NopResult :
    SideReady .none alone ∧ SideReady .high (evalAt .vs (going .vs)) :=
  ⟨Or.inl rfl, Or.inr (by decide)⟩

theorem witness_BusyWaitTakesCountPlusOne :
    (2 : Nat) ≤ (evalAt .cap { going .cap with x := 2 }).me.x.toNat := by decide

/-! ### Witnesses: reset, restart, start -/

theorem witness_ResetState :
    inReset.input.rst = true ∧ inReset.input.host = .idle ∧ inReset.moverActs = false := by decide

theorem witness_EdgeRegistersFollowPins :
    (Safe busy ∧ busy.input.rst = false) ∧ (Safe inReset ∧ inReset.input.rst = true) :=
  ⟨⟨safe_of_bankFault (by decide), by decide⟩, ⟨_, steps_reset (by decide)⟩, by decide⟩

/-- A running engine that the host restarts (and, with data 3, also starts). -/
def hostRestarts : State :=
  { tuned .hs (fun en => { en with run := true, fault := some .noPin, pc := 3 })
      (withHost (.write (engineAddr .hs 0x20) 2)) with
    stim := [{ Input.quiet with host := .write (engineAddr .hs 0x20) 2 }, Input.quiet] }

theorem witness_RestartByHost :
    hostRestarts.input.rst = false ∧ hostRestarts.input.host = .write (engineAddr .hs 0x20) 2 ∧
    (2 : Word).getLsbD 1 = true ∧ (2 : Word).getLsbD 0 = false ∧
    nextHas (step hostRestarts)
      (fun t => (t.engine .hs).run && !t.restartsEngine .hs) = true ∧ Safe hostRestarts :=
  ⟨by decide, by decide, by decide, by decide, by decide, safe_of_bankFault (by decide)⟩

/-- The host starts `E_VS`. -/
def hostStarts (run : Bool) : State :=
  tuned .vs (fun en => { en with run := run })
    { State.reset with
      stim := [{ Input.quiet with host := .write (engineAddr .vs 0x20) 1 }, Input.quiet] }

theorem witness_StartByHost :
    ((hostStarts false).input.rst = false ∧
      (hostStarts false).input.host = .write (engineAddr .vs 0x20) 1 ∧ Safe (hostStarts false) ∧
      ((hostStarts false).engine .vs).run = false ∧
      nextHas (step (hostStarts false)) (fun t => !t.restartsEngine .vs) = true) ∧
    ((hostStarts true).input.host = .write (engineAddr .vs 0x20) 1 ∧ Safe (hostStarts true) ∧
      ((hostStarts true).engine .vs).run = true ∧
      (hostStarts true).stim =
        { Input.quiet with host := .write (engineAddr .vs 0x20) 1 } :: [Input.quiet]) :=
  ⟨⟨by decide, by decide, safe_of_bankFault (by decide), by decide, by decide⟩,
    by decide, safe_of_bankFault (by decide), by decide, by decide⟩

/-! ### Witnesses: FIFOs, flags, pins -/

theorem witness_FifoKeepsOrder : Safe busy := safe_of_bankFault (by decide)

/-- `E_CAP` evaluates `w`, the others are stopped. -/
def wordAt (e : EngineId) (w : OpWord) : State :=
  evalAt e { going e with prog := (going e).prog.set 0 w }

/-- The turn of an engine asks for a write of a flag. -/
def flagTurn (s : State) (e : EngineId) (k : BitVec 2) (v : Bool) : Bool :=
  match s.turn exec e with
  | .next r => r.req.flagAsked k v
  | .fault _ => false
  | .refused _ => false

theorem writesFlag_iff (s : State) (e : EngineId) (k : BitVec 2) (v : Bool) :
    WritesFlag s e k v ↔ flagTurn s e k v = true := by
  obtain ⟨r, hr, _⟩ := turn_next s e
  rw [← turn_flagAsked hr]
  simp only [flagTurn, hr]

/-- The write of a pin that the turn of an engine asks for. -/
def pinTurn (s : State) (e : EngineId) (p : OutPin) : Option Bool :=
  match s.turn exec e with
  | .next r => r.req.pinAsked p
  | .fault _ => none
  | .refused _ => none

theorem writesPin_iff (s : State) (e : EngineId) (p : OutPin) (v : Bool) :
    WritesPin s e p v ↔ pinTurn s e p = some v := by
  obtain ⟨r, hr, _⟩ := turn_next s e
  rw [← turn_pinAsked hr]
  simp only [pinTurn, hr]

/-- `E_HS` executes the field `0xB081` of the recipe: pin low, `F[0]` set. -/
def fieldExecuted : State :=
  evalAt .hs { going .hs with prog := (going .hs).prog.set 0 0x808F, sr := 0xB0810000, cnt := 16 }

/-- Sets by `SETO` with a side action and by `GET EXEC`; a clear by a consuming `WAIT` that no set meets;
a flag that nobody writes. -/
theorem witness_FlagSetWins :
    ((wordAt .hs 0xB081).input.rst = false ∧ Safe (wordAt .hs 0xB081) ∧
      WritesFlag (wordAt .hs 0xB081) .hs 0 true) ∧
    (Safe fieldExecuted ∧ WritesFlag fieldExecuted .hs 0 true) ∧
    (Safe { wordAt .cap 0x20C4 with flags := 1 } ∧
      WritesFlag { wordAt .cap 0x20C4 with flags := 1 } .cap 0 false ∧
      ∀ e, ¬ WritesFlag { wordAt .cap 0x20C4 with flags := 1 } e 0 true) ∧
    (Safe alone ∧ ∀ e v, ¬ WritesFlag alone e 0 v) := by
  simp only [writesFlag_iff]
  refine ⟨⟨by decide, safe_of_bankFault (by decide), by decide⟩,
    ⟨safe_of_bankFault (by decide), by decide⟩,
    ⟨safe_of_bankFault (by decide), by decide, ?_⟩, safe_of_bankFault (by decide), ?_⟩
  · intro e; cases e <;> decide
  · intro e v; cases e <;> cases v <;> decide

/-- `E_HS` and `E_VS`, both on the pin `hsync_out`, write it in one cycle. -/
def twoOnHsync : State :=
  { wordAt .hs 0xA001 with
    eng := { resetEngines with
      hs := { going .hs with prog := (going .hs).prog.set 0 0xA001 }
      vs := { going .vs with
        prog := (going .vs).prog.set 0 0xF000
        config := { resetConfig .vs with sideSel := .hsync } } } }

/-- A side action wins over the `SETO` of an engine of smaller index; a pixel from `OUT` below an engine
that evaluates but does not write the pin; the pin of a `GET EXEC`; a pin that nobody writes. -/
theorem witness_HighestEngineDrivesPin :
    (twoOnHsync.input.rst = false ∧ Safe twoOnHsync ∧ WritesPin twoOnHsync .hs .hsync true ∧
      WritesPin twoOnHsync .vs .hsync false ∧
      ∀ e' v', EngineId.vs.index < e'.index → ¬ WritesPin twoOnHsync e' .hsync v') ∧
    (let s := tuned .vs (fun _ => going .vs) (evalAt .gen { going .gen with
        prog := (going .gen).prog.set 0 0x6000, fifo := [0x80000000] })
     Safe s ∧ WritesPin s .gen .pix true ∧ s.activity .vs = .evaluating ∧
      ∀ e' v', EngineId.gen.index < e'.index → ¬ WritesPin s e' .pix v') ∧
    (Safe fieldExecuted ∧ WritesPin fieldExecuted .hs .hsync false) ∧
    (Safe alone ∧ ∀ e v, ¬ WritesPin alone e .vsync v) := by
  simp only [writesPin_iff]
  refine ⟨⟨by decide, safe_of_bankFault (by decide), by decide, by decide, ?_⟩,
    ⟨safe_of_bankFault (by decide), by decide, by decide, ?_⟩,
    ⟨safe_of_bankFault (by decide), by decide⟩, safe_of_bankFault (by decide), ?_⟩
  all_goals intro e v; cases e <;> cases v <;> decide

/-- The host writes `CTRL` of an engine with a stall flag set and a FIFO. -/
def hostCtrl (e : EngineId) (d : Word) (q : List Word) : State :=
  tuned e (fun en => { en with rxStall := true, txStall := true, fifo := q })
    (withHost (.write (engineAddr e 0x20) d))

/-- A clear of each stall flag; a set that wins over it; a flush while the engine takes the head of its
FIFO; a clear of the event bits, without and with a recovery in the same cycle; no clear. -/
theorem witness_HostClears :
    ((hostCtrl .hs 0xC [1]).input.rst = false ∧ Safe (hostCtrl .hs 0xC [1]) ∧
      (hostCtrl .hs 0xC [1]).input.host = .write (engineAddr .hs 0x20) 0xC) ∧
    (let s := tuned .hs (fun en => { en with run := true }) (hostCtrl .hs 8 [])
     Safe s ∧ RunsDry s .hs ∧ s.input.host = .write (engineAddr .hs 0x20) 8) ∧
    (let s := tuned .hs (fun en => { en with run := true }) (hostCtrl .hs 0x10 [7])
     Safe s ∧ (0x10 : Word).getLsbD 4 = true ∧ Evaluates s .hs (.getX .none 0 15)) ∧
    (Safe (withHost (.write 0x0022 7)) ∧ (withHost (.write 0x0022 7)).input.host = .write 0x0022 7) ∧
    (let s := tuned .cap (fun en => { en with rxStall := true }) (withHost (.write 0x0022 2))
     Safe s ∧ s.input.host = .write 0x0022 2 ∧ (s.engine .cap).rxStall = true) ∧
    (Safe alone ∧ ∀ d, alone.input.host ≠ .write 0x0022 d) := by
  refine ⟨⟨by decide, safe_of_bankFault (by decide), by decide⟩,
    ⟨safe_of_bankFault (by decide), ⟨by decide, by decide, by decide, .getX .none 0 15,
      ⟨by decide, by decide⟩, .inl rfl, .inl rfl⟩, by decide⟩,
    ⟨safe_of_bankFault (by decide), by decide, by decide, by decide⟩,
    ⟨safe_of_bankFault (by decide), by decide⟩,
    ⟨safe_of_bankFault (by decide), by decide, by decide⟩,
    safe_of_bankFault (by decide), fun _ h => (by cases h)⟩

/-- An overrun in the cycle in which the host clears `rx_stall`. -/
theorem witness_HostClears_overrun :
    let s := tuned .cap (fun en => { en with
        run := true, prog := en.prog.set 0 0x4000, sr := 0, cnt := 31
        fifo := [1, 2, 3, 4, 5, 6, 7, 8] }) (withHost (.write (engineAddr .cap 0x20) 4))
    Safe s ∧ Overruns s .cap := by
  refine ⟨safe_of_bankFault (by decide), .none, 0, .imm 0, 1, ⟨by decide, by decide⟩, .inl rfl,
    by decide, ?_, by decide, by decide⟩
  unfold TransferLeft; decide

/-! ### Witnesses: the host bus -/

theorem witness_AddressMap :
    Params.reference.wf = true ∧ ¬ mapped Params.reference (0x0025 : Addr).toNat ∧
    (withHost (.read 0x0025)).params = Params.reference ∧
    (withHost (.read 0x0025)).input.host = .read 0x0025 ∧
    (5471 : Nat) < Params.reference.bankWords ∧
    readOnlyAddr Params.reference (0x355F : Addr).toNat ∧
    readOnlyAddr Params.reference (engineAddr .vs 0x27).toNat ∧
    (withHost (.write 0x355F 1)).input.host = .write 0x355F 1 ∧
    writeOnlyAddr (engineAddr .vs 0x20).toNat ∧
    (withHost (.read (engineAddr .vs 0x20))).input.host = .read (engineAddr .vs 0x20) := by
  refine ⟨by decide, ?_, by decide, by decide, by decide, ?_, ?_, by decide, ?_, by decide⟩
  · unfold mapped; decide
  · exact .inr (.inr (.inr (.inr (.inr (.inr (.inr (by decide)))))))
  · exact .inr (.inr (.inr (.inr (.inr (.inr (.inl ⟨.vs, by decide⟩))))))
  · exact .inr (.inr ⟨.vs, by decide⟩)

theorem witness_RefusedAccessOnlySetsBusErr :
    ((withHost (.write 0x2000 1)).stim = { Input.quiet with host := .write 0x2000 1 } :: [] ∧
      (withHost (.write 0x2000 1)).busCmd = .refused ∧
      Safe ((withHost (.write 0x2000 1)).withoutHost { Input.quiet with host := .write 0x2000 1 } [])) ∧
    ((withHost (.read 0x0120)).busCmd = .refused ∧
      Safe ((withHost (.read 0x0120)).withoutHost { Input.quiet with host := .read 0x0120 } [])) :=
  ⟨⟨rfl, by decide, safe_of_bankFault (by decide)⟩, by decide, safe_of_bankFault (by decide)⟩

theorem witness_LutWrittenByHost :
    ((withHost (.write (BitVec.ofNat 16 (31#5).toNat) 9)).input.rst = false ∧
      Safe (withHost (.write (BitVec.ofNat 16 (31#5).toNat) 9))) ∧
    (Safe (withHost (.write 0x0020 9)) ∧ ∀ (k : BitVec 5) (d : Word),
      (withHost (.write 0x0020 9)).input.host ≠ .write (BitVec.ofNat 16 k.toNat) d) := by
  refine ⟨⟨by decide, safe_of_bankFault (by decide)⟩, safe_of_bankFault (by decide), ?_⟩
  intro k d h
  have ha : (0x0020 : Addr) = BitVec.ofNat 16 k.toNat := by injection h
  clear h
  revert ha; revert k; decide

/-- The host writes at an engine's address, the engine running or not. -/
def hostAtEngine (e : EngineId) (run : Bool) (off : Nat) (d : Word) : State :=
  tuned e (fun en => { en with run := run }) (withHost (.write (engineAddr e off) d))

theorem witness_ProgramWrittenByHost :
    (Safe (hostAtEngine .vs true 31 7) ∧ ((hostAtEngine .vs true 31 7).engine .vs).run = true ∧
      (hostAtEngine .vs true 31 7).input.host = .write (engineAddr .vs (31#5).toNat) 7) ∧
    (Safe (hostAtEngine .vs false 31 7) ∧ ((hostAtEngine .vs false 31 7).engine .vs).run = false ∧
      (hostAtEngine .vs false 31 7).input.host = .write (engineAddr .vs (31#5).toNat) 7) ∧
    (Safe alone ∧ ∀ (k : Slot) (d : Word), alone.input.host ≠ .write (engineAddr .vs k.toNat) d) :=
  ⟨⟨safe_of_bankFault (by decide), by decide, by decide⟩,
    ⟨safe_of_bankFault (by decide), by decide, by decide⟩,
    safe_of_bankFault (by decide), fun _ _ h => (by cases h)⟩

theorem witness_ConfigWrittenByHost :
    (Safe (hostAtEngine .cap true 0x22 1) ∧ ((hostAtEngine .cap true 0x22 1).engine .cap).run = true) ∧
    (Safe (hostAtEngine .cap false 0x22 0x0C) ∧ (0x0C : Word).extractLsb' 2 2 = 3) ∧
    (Safe (hostAtEngine .cap false 0x22 0x1B) ∧
      ((hostAtEngine .cap false 0x22 0x1B).engine .cap).run = false ∧
      (0x1B : Word).extractLsb' 2 2 ≠ 3 ∧
      (hostAtEngine .cap false 0x22 0x1B).input.host = .write (engineAddr .cap 0x22) 0x1B) ∧
    (Safe alone ∧ ∀ d : Word, alone.input.host ≠ .write (engineAddr .cap 0x22) d) :=
  ⟨⟨safe_of_bankFault (by decide), by decide⟩, ⟨safe_of_bankFault (by decide), by decide⟩,
    ⟨safe_of_bankFault (by decide), by decide, by decide, by decide⟩,
    safe_of_bankFault (by decide), fun _ h => (by cases h)⟩

/-- The host reads word 5471 of the generation window. -/
def hostReadsWindow (single : Bool) (x : XState) : State :=
  { withHost (.read (BitVec.ofNat 16 (0x4000 + 5471))) with
    gen := { resetGeneration [] [] with single := single, x := x } }

/-- The ends of the map's ranges are read; `STATUS` of a FIFO at its depth; the generation window in
each of its modes. -/
theorem witness_HostReads :
    ((withHost (.read (BitVec.ofNat 16 (31#5).toNat))).params.wf = true ∧
      (withHost (.read (BitVec.ofNat 16 (31#5).toNat))).input.rst = false ∧
      Safe (withHost (.read (BitVec.ofNat 16 (31#5).toNat)))) ∧
    (∀ a : Addr, Safe (withHost (.read a)) ∧ (withHost (.read a)).input.host = .read a) ∧
    (let s := tuned .gen (fun en => { en with fifo := [1, 2, 3, 4, 5, 6, 7, 8] })
        (withHost (.read (engineAddr .gen 0x21)))
     Safe s ∧ (s.engine .gen).fifo.length = s.params.fifoDepth ∧
      s.input.host = .read (engineAddr .gen 0x21)) ∧
    (Safe (hostReadsWindow false .settled) ∧ (hostReadsWindow false .settled).gen.x ≠ .transferring ∧
      (5471 : Nat) < (hostReadsWindow false .settled).params.bankWords) ∧
    (Safe (hostReadsWindow true .transferring) ∧
      (hostReadsWindow true .transferring).gen.single = true) ∧
    (Safe (hostReadsWindow false .transferring) ∧
      (hostReadsWindow false .transferring).gen.x = .transferring) :=
  ⟨⟨by decide, by decide, safe_of_bankFault (by decide)⟩,
    fun _ => ⟨safe_of_bankFault rfl, rfl⟩,
    ⟨safe_of_bankFault (by decide), by decide, by decide⟩,
    ⟨safe_of_bankFault (by decide), by decide, by decide⟩,
    ⟨safe_of_bankFault (by decide), by decide⟩, safe_of_bankFault (by decide), by decide⟩

/-- `E_GEN` with a FIFO, the host pushing to it. -/
def hostPushes (q : List Word) : State :=
  tuned .gen (fun en => { en with fifo := q }) (withHost (.write (engineAddr .gen 0x23) 9))

/-- `E_CAP` with a FIFO, the host popping it. -/
def hostPops (q : List Word) : State :=
  tuned .cap (fun en => { en with fifo := q }) (withHost (.read (engineAddr .cap 0x23)))

theorem witness_HostFifoAccess :
    (Safe (hostPops [5, 6]) ∧ (hostPops [5, 6]).input.host = .read (engineAddr .cap 0x23) ∧
      ((hostPops [5, 6]).engine .cap).fifo = 5 :: [6] ∧
      ((hostPops [5, 6]).engine .cap).config.dir = .rx ∧ (hostPops [5, 6]).fifoOwned .cap = false ∧
      (hostPops [5, 6]).flushed .cap = false ∧ (hostPops [5, 6]).activity .cap ≠ .evaluating) ∧
    (Safe (hostPops []) ∧ ((hostPops []).engine .cap).fifo = []) ∧
    (Safe (hostPushes []) ∧ (hostPushes []).input.host = .write (engineAddr .gen 0x23) 9 ∧
      ((hostPushes []).engine .gen).config.dir = .tx ∧
      ((hostPushes []).engine .gen).fifo.length < (hostPushes []).params.fifoDepth ∧
      (hostPushes []).fifoOwned .gen = false ∧
      (hostPushes []).activity .gen ≠ .evaluating ∧ (hostPushes []).flushed .gen = false) ∧
    (Safe (hostPushes [1, 2, 3, 4, 5, 6, 7, 8]) ∧
      ¬ ((hostPushes [1, 2, 3, 4, 5, 6, 7, 8]).engine .gen).fifo.length <
        (hostPushes [1, 2, 3, 4, 5, 6, 7, 8]).params.fifoDepth) := by
  refine ⟨⟨safe_of_bankFault (by decide), ?_, ?_, ?_, ?_, ?_, ?_⟩,
    ⟨safe_of_bankFault (by decide), ?_⟩,
    ⟨safe_of_bankFault (by decide), ?_, ?_, ?_, ?_, ?_, ?_⟩, safe_of_bankFault (by decide), ?_⟩ <;>
  decide

/-- The host writes the last word of the generation window. -/
def hostWindow (single : Bool) (x : XState) : State :=
  { withHost (.write (BitVec.ofNat 16 (0x4000 + 5471)) 3) with
    gen := { resetGeneration [] [] with single := single, x := x, buf := true } }

theorem witness_GenerationWindowWrite :
    ((hostWindow false .transferring).params.wf = true ∧ Safe (hostWindow false .transferring) ∧
      (5471 : Nat) < (hostWindow false .transferring).params.bankWords ∧
      (hostWindow false .transferring).gen.x = .transferring) ∧
    (Safe (hostWindow false .idle) ∧ (hostWindow false .idle).gen.x ≠ .transferring) ∧
    (Safe (hostWindow true .transferring) ∧ (hostWindow true .transferring).gen.single = true) ∧
    (Safe alone ∧ ∀ (i : Nat) (d : Word), i < alone.params.bankWords →
      alone.input.host ≠ .write (BitVec.ofNat 16 (0x4000 + i)) d) :=
  ⟨⟨by decide, safe_of_bankFault (by decide), by decide, by decide⟩,
    ⟨safe_of_bankFault (by decide), by decide⟩, ⟨safe_of_bankFault (by decide), by decide⟩,
    safe_of_bankFault (by decide), fun _ _ _ h => (by cases h)⟩

/-! ### Witnesses: frame exchange -/

/-- The host writes `CAP_XCTRL` with the capture exchange in a state. -/
def hostCap (d : Word) (x : XState) (stall : Bool) : State :=
  { tuned .cap (fun en => { en with rxStall := stall }) (withHost (.write 0x0028 d)) with
    cap := { resetCapture [] [] with x := x } }

theorem witness_CaptureCommands :
    ((1 : Word).getLsbD 0 = true ∧ (1 : Word).getLsbD 1 = false ∧ Safe (hostCap 1 .idle false) ∧
      (hostCap 1 .idle false).cap.x = .idle ∧ ((hostCap 1 .idle false).engine .cap).rxStall = false) ∧
    (Safe (hostCap 1 .settled false) ∧ ¬ (hostCap 1 .settled false).cap.x = .idle) ∧
    (Safe (hostCap 1 .idle true) ∧ ((hostCap 1 .idle true).engine .cap).rxStall = true) ∧
    ((2 : Word).getLsbD 0 = false ∧ (2 : Word).getLsbD 1 = true ∧ Safe (hostCap 2 .settled false) ∧
      (hostCap 2 .settled false).cap.x = .settled) ∧
    (Safe (hostCap 2 .transferring false) ∧
      ¬ (hostCap 2 .transferring false).cap.x = .settled) ∧
    ((3 : Word).getLsbD 0 = true ∧ (3 : Word).getLsbD 1 = true ∧ Safe (hostCap 3 .idle false)) ∧
    ((4 : Word).getLsbD 0 = false ∧ (4 : Word).getLsbD 1 = false ∧ Safe (hostCap 4 .idle false)) :=
  ⟨⟨by decide, by decide, safe_of_bankFault (by decide), by decide, by decide⟩,
    ⟨safe_of_bankFault (by decide), by decide⟩, ⟨safe_of_bankFault (by decide), by decide⟩,
    ⟨by decide, by decide, safe_of_bankFault (by decide), by decide⟩,
    ⟨safe_of_bankFault (by decide), by decide⟩,
    ⟨by decide, by decide, safe_of_bankFault (by decide)⟩,
    by decide, by decide, safe_of_bankFault (by decide)⟩

/-- The host writes `GEN_XCTRL` with the generation exchange in a state. -/
def hostGen (d : Word) (x : XState) (single : Bool) : State :=
  { withHost (.write 0x0030 d) with
    gen := { resetGeneration [] [] with x := x, single := single } }

theorem witness_GenerationCommands :
    (Safe (hostGen 1 .idle false) ∧ (hostGen 1 .idle false).gen.x = .idle ∧
      (hostGen 1 .idle false).gen.single = false ∧
      ((hostGen 1 .idle false).engine .gen).txStall = false) ∧
    (Safe (hostGen 1 .idle true) ∧ (hostGen 1 .idle true).gen.single = true) ∧
    (Safe (hostGen 2 .settled false) ∧ (hostGen 2 .settled false).gen.x = .settled) ∧
    (Safe (hostGen 2 .idle false) ∧ ¬ (hostGen 2 .idle false).gen.x = .settled) ∧
    (Safe (hostGen 2 .settled true) ∧ (hostGen 2 .settled true).gen.single = true) ∧
    (Safe (hostGen 3 .idle false) ∧ Safe (hostGen 4 .idle false)) :=
  ⟨⟨safe_of_bankFault (by decide), by decide, by decide, by decide⟩,
    ⟨safe_of_bankFault (by decide), by decide⟩, ⟨safe_of_bankFault (by decide), by decide⟩,
    ⟨safe_of_bankFault (by decide), by decide⟩, ⟨safe_of_bankFault (by decide), by decide⟩,
    safe_of_bankFault (by decide), safe_of_bankFault (by decide)⟩

/-- A change of `cx` and one of `gx`. -/
theorem witness_HandshakeTransitions :
    (Safe (hostCap 1 .idle false) ∧
      nextHas (step (hostCap 1 .idle false)) (fun t => t.cap.x != .idle) = true) ∧
    (Safe (hostGen 1 .idle false) ∧
      nextHas (step (hostGen 1 .idle false)) (fun t => t.gen.x != .idle) = true) :=
  ⟨⟨safe_of_bankFault (by decide), by decide⟩, safe_of_bankFault (by decide), by decide⟩

/-- Word `ptr` of a frame of `n` words waits for the mover. -/
def moving (ptr : BitVec 16) (n : Word) : State :=
  { tuned .cap (fun en => { en with fifo := [0xAB] }) (withInput Input.quiet) with
    cap := { resetCapture [] [] with x := .transferring, ptr := ptr }
    lut := resetLut.set 25 n }

theorem witness_CaptureMoverMovesWord :
    ((moving 0 4).input.rst = false ∧ Safe (moving 0 4) ∧ (moving 0 4).capRecovery = false ∧
      (moving 0 4).cap.x = .transferring ∧ ((moving 0 4).engine .cap).config.dir = .rx ∧
      ((moving 0 4).engine .cap).fifo = 0xAB :: [] ∧ (moving 0 4).busCmd.flushes .cap = false ∧
      (moving 0 4).cap.ptr.toNat + 1 < min (max ((moving 0 4).lutAt 25).toNat 1) 5472 ∧
      (moving 0 4).cap.ptr = 0) ∧
    (Safe (moving 3 4) ∧ ((moving 3 4).engine .cap).fifo = 0xAB :: [] ∧
      min (max ((moving 3 4).lutAt 25).toNat 1) 5472 ≤ (moving 3 4).cap.ptr.toNat + 1) :=
  ⟨⟨by decide, safe_of_bankFault (by decide), by decide, by decide, by decide, by decide, by decide,
      by decide, by decide⟩,
    safe_of_bankFault (by decide), by decide, by decide⟩

/-- The feeder at word `ptr` of a frame of `n` words. -/
def feeding (ptr : BitVec 16) (n : Word) (x : XState) : State :=
  { withInput Input.quiet with
    gen := { resetGeneration [] [] with feedEn := true, ptr := ptr, x := x, buf := true }
    lut := resetLut.set 25 n }

theorem witness_FeederPushesWord :
    ((feeding 0 4 .idle).input.rst = false ∧ Safe (feeding 0 4 .idle) ∧
      (feeding 0 4 .idle).genRecovery = false ∧ (feeding 0 4 .idle).gen.feedEn = true ∧
      ((feeding 0 4 .idle).engine .gen).config.dir = .tx ∧
      ((feeding 0 4 .idle).engine .gen).fifo.length < (feeding 0 4 .idle).params.fifoDepth ∧
      (feeding 0 4 .idle).busCmd.flushes .gen = false ∧
      (feeding 0 4 .idle).gen.ptr.toNat + 1 < min (max ((feeding 0 4 .idle).lutAt 25).toNat 1) 5472) ∧
    (Safe (feeding 3 4 .transferring) ∧ (feeding 3 4 .transferring).gen.x = .transferring ∧
      min (max ((feeding 3 4 .transferring).lutAt 25).toNat 1) 5472 ≤
        (feeding 3 4 .transferring).gen.ptr.toNat + 1) ∧
    (Safe (feeding 3 4 .idle) ∧ (feeding 3 4 .idle).gen.x ≠ .transferring) :=
  ⟨⟨by decide, safe_of_bankFault (by decide), by decide, by decide, by decide, by decide, by decide,
      by decide⟩,
    ⟨safe_of_bankFault (by decide), by decide, by decide⟩, safe_of_bankFault (by decide), by decide⟩

theorem witness_GenXcfgWrite :
    (withHost (.write 0x0034 3)).input.rst = false ∧
    (withHost (.write 0x0034 3)).input.host = .write 0x0034 3 ∧
    Safe (withHost (.write 0x0034 3)) ∧ (withHost (.write 0x0034 3)).gen.feedEn = false ∧
    (3 : Word).getLsbD 0 = true ∧
    (Safe alone ∧ ∀ d : Word, alone.input.host ≠ .write 0x0034 d) :=
  ⟨by decide, by decide, safe_of_bankFault (by decide), by decide, by decide,
    safe_of_bankFault (by decide), fun _ h => (by cases h)⟩

theorem witness_OwnershipOnlyAtBoundary :
    (Safe (moving 3 4) ∧ nextHas (step (moving 3 4)) (fun t => t.cap.sel != (moving 3 4).cap.sel) = true) ∧
    (Safe (feeding 3 4 .transferring) ∧ nextHas (step (feeding 3 4 .transferring))
      (fun t => t.gen.sel != (feeding 3 4 .transferring).gen.sel) = true) :=
  ⟨⟨safe_of_bankFault (by decide), by decide⟩, safe_of_bankFault (by decide), by decide⟩

theorem witness_BanksWrittenByOwnerOnly :
    (Safe (moving 3 4) ∧ ∀ a d, (moving 3 4).input.host ≠ .write a d) ∧
    (Safe inReset ∧ inReset.input.rst = true) :=
  ⟨⟨safe_of_bankFault (by decide), fun _ _ h => by cases h⟩, ⟨_, steps_reset (by decide)⟩, by decide⟩

/-- With an empty bank and with another content. -/
theorem witness_InFlightCaptureIsHidden :
    Safe (moving 3 4) ∧ (moving 3 4).withInFlight [(0, 1)] ≠ moving 3 4 :=
  ⟨safe_of_bankFault (by decide), by decide⟩

theorem witness_PeriodMeters :
    (Safe (moving 3 4) ∧ (moving 3 4).capBoundary = true) ∧
    (Safe (moving 0 4) ∧ (moving 0 4).capBoundary = false) ∧
    (Safe (feeding 3 4 .idle) ∧ (feeding 3 4 .idle).genBoundary = true) ∧
    (Safe (feeding 0 4 .idle) ∧ (feeding 0 4 .idle).genBoundary = false) :=
  ⟨⟨safe_of_bankFault (by decide), by decide⟩, ⟨safe_of_bankFault (by decide), by decide⟩,
    ⟨safe_of_bankFault (by decide), by decide⟩, safe_of_bankFault (by decide), by decide⟩

/-! ### Witnesses: stalls and recovery -/

/-- A capture stall in the middle of a transfer. -/
def capStalled : State := tuned .cap (fun en => { en with rxStall := true }) (moving 2 4)

theorem witness_CaptureRecovery :
    (capStalled.input.rst = false ∧ (capStalled.engine .cap).rxStall = true ∧ Safe capStalled ∧
      capStalled.cap.x = .transferring) ∧
    (Safe (hostCap 1 .idle true) ∧ ((hostCap 1 .idle true).engine .cap).rxStall = true ∧
      (hostCap 1 .idle true).cap.x ≠ .transferring ∧
      (hostCap 1 .idle true).input.host = .write 0x0028 1 ∧ (1 : Word).getLsbD 0 = true) :=
  ⟨⟨by decide, by decide, safe_of_bankFault (by decide), by decide⟩,
    safe_of_bankFault (by decide), by decide, by decide, by decide, by decide⟩

/-- A generation stall. -/
def genStalled (h : HostAccess) : State :=
  tuned .gen (fun en => { en with run := true, txStall := true }) (withHost h)

theorem witness_GenerationRecovery :
    ((genStalled .idle).input.rst = false ∧ ((genStalled .idle).engine .gen).txStall = true ∧
      Safe (genStalled .idle) ∧ (∀ d, (genStalled .idle).input.host ≠ .write 0x0034 d) ∧
      ∀ e, e ≠ .gen → (genStalled .idle).activity e ≠ .evaluating) ∧
    (Safe (genStalled (.write 0x0030 1)) ∧
      (genStalled (.write 0x0030 1)).input.host = .write 0x0030 1) := by
  refine ⟨⟨by decide, by decide, safe_of_bankFault (by decide), fun _ h => (by cases h), ?_⟩,
    safe_of_bankFault (by decide), by decide⟩
  intro e _; cases e <;> decide

theorem witness_ErrorCounter :
    (Safe capStalled ∧ capStalled.input.rst = false) ∧ (Safe inReset ∧ inReset.input.rst = true) :=
  ⟨⟨safe_of_bankFault (by decide), by decide⟩, ⟨_, steps_reset (by decide)⟩, by decide⟩

/-- The watchdog on at `n`, with no word to move. -/
def watching (n : Word) : State :=
  { withInput Input.quiet with
    cap := { resetCapture [] [] with x := .transferring, wdOn := true, wdCtr := n } }

/-- The watchdog on at `n`, while word 2 of 4 is moved. -/
def watchingMove (n : Word) : State :=
  { moving 2 4 with cap := { (moving 2 4).cap with wdOn := true, wdCtr := n } }

theorem witness_WatchdogCounts :
    ((watching 0).input.rst = false ∧ Safe (watching 0) ∧ (watching 0).cap.x = .transferring ∧
      (watching 0).cap.wdOn = true ∧ ((watching 0).engine .cap).rxStall = false ∧
      (watching 0).moverActs = false ∧ (watching 0).capBoundary = false ∧
      (watching 0).cap.wdCtr = 0) ∧
    (Safe (watching 1) ∧ (watching 1).moverActs = false ∧ (watching 1).cap.wdCtr ≠ 0 ∧
      (watching 1).activity .cap ≠ .evaluating) ∧
    (Safe (watchingMove 0) ∧ (watchingMove 0).cap.wdOn = true ∧
      (watchingMove 0).moverActs = true ∧ (watchingMove 0).cap.ptr ≠ 0 ∧
      (watchingMove 0).capBoundary = false ∧ (watchingMove 0).cap.wdCtr = 0) :=
  ⟨⟨by decide, safe_of_bankFault (by decide), by decide, by decide, by decide, by decide, by decide,
      by decide⟩,
    ⟨safe_of_bankFault (by decide), by decide, by decide, by decide⟩,
    safe_of_bankFault (by decide), by decide, by decide, by decide, by decide, by decide⟩

/-! ### Witnesses: loop tables -/

/-- The player of `E_HS` at the last of 16 entries. -/
def playing : State :=
  { withInput Input.quiet with playerH := { mem := [], len := 16, armed := true, idx := 15 } }

theorem witness_PlayerPushesEntry :
    playing.input.rst = false ∧ Safe playing ∧ PlayerInv (playing.player .h) ∧
    (playing.player .h).armed = true ∧ (playing.engine (playerEngine .h)).config.dir = .tx ∧
    (playing.engine (playerEngine .h)).fifo.length < playing.params.fifoDepth ∧
    (∀ d, playing.input.host ≠ .write (tableAddr .h 0x10) d) ∧
    (∀ d, playing.input.host ≠ .write (engineAddr (playerEngine .h) 0x20) d) :=
  ⟨by decide, safe_of_bankFault (by decide), ⟨by decide, by decide, by decide⟩, by decide, by decide,
    by decide, fun _ h => (by cases h), fun _ h => (by cases h)⟩

/-- The host writes `LT_CTRL` of the table of `E_VS`. -/
def hostTable (d : Word) : State := withHost (.write (tableAddr .v 0x10) d)

theorem witness_LoopTableWrites :
    (Safe (hostTable 0x111) ∧ (0x111 : Word).getLsbD 8 = true ∧
      16 < ((0x111 : Word).extractLsb' 0 5).toNat) ∧
    (Safe (hostTable 0x100) ∧ (0x100 : Word).extractLsb' 0 5 = 0) ∧
    (Safe (hostTable 0x110) ∧ (0x110 : Word).extractLsb' 0 5 ≠ 0 ∧
      ((0x110 : Word).extractLsb' 0 5).toNat ≤ 16) ∧
    (Safe (hostTable 0) ∧ (0 : Word).getLsbD 8 = false) ∧
    (Safe (withHost (.write (tableAddr .v (15#4).toNat) 9)) ∧
      (withHost (.write (tableAddr .v (15#4).toNat) 9)).input.rst = false) ∧
    (Safe playing ∧ (∀ d : Word, playing.input.host ≠ .write (tableAddr .h 0x10) d) ∧
      ∀ (i : BitVec 4) (d : Word), playing.input.host ≠ .write (tableAddr .h i.toNat) d) :=
  ⟨⟨safe_of_bankFault (by decide), by decide, by decide⟩, ⟨safe_of_bankFault (by decide), by decide⟩,
    ⟨safe_of_bankFault (by decide), by decide, by decide⟩,
    ⟨safe_of_bankFault (by decide), by decide⟩, ⟨safe_of_bankFault (by decide), by decide⟩,
    safe_of_bankFault (by decide), fun _ h => (by cases h), fun _ _ h => (by cases h)⟩

/-! ### Witnesses: Timing Calculator and frame format -/

theorem witness_RoundHalfToEven :
    (0 : Rat) ≤ 5 / 2 ∧ |(5 / 2 : Rat) - ((2 : Nat) : Rat)| = 1 / 2 := by norm_num

theorem witness_PhasesSumToTotal : (referenceMode 15700000).valid 15700000 := by
  unfold VideoMode.valid referenceMode; norm_num

/-- The reference mode at one engine cycle per pixel. -/
theorem witness_RefreshRateError :
    (referenceMode 15700000).valid 15700000 ∧
    (1001 / 2 : Rat) <
      ((referenceMode 15700000).h.total : Rat) * (referenceMode 15700000).ratio 15700000 := by
  unfold VideoMode.valid referenceMode VideoMode.ratio Axis.total; norm_num

theorem witness_PackerMatchesFrameFormat : (List.replicate 32 true).length = 32 := by decide

end Sys2Proof.Tests
end

/-!
PROOFS. The scope of one step (00_scope R8): the step runs the decoded word of an evaluating engine
(O5), a word reads its view alone (O8), and a cycle with one active engine is that word and the passing
of the cycle (O6).
-/

namespace Sys2Proof.Machine

/-! ### The evaluation of a legal word in a step (O5) -/

/-- An engine that fetches a legal word evaluates that word (R120 e). -/
theorem evaluateFetched_legal {ex : Meaning} {s : State} {e : EngineId} {i : Instr}
    (h : decode (fetch (s.engine e)) = .legal i) : evaluateFetched ex s e = ex i (s.focus e) := by
  simp only [evaluateFetched, h]

/-- The turn of an engine that evaluates a legal word is what `exec` leaves of it and asks. -/
theorem turn_of_evaluates {s : State} {e : EngineId} {i : Instr} {u : State}
    (h : Evaluates s e i) (hu : exec i (s.focus e) = .next u) :
    s.turn exec e = .next { eng := u.engine e, req := u.req } :=
  turn_evaluating h.1 ((evaluateFetched_legal h.2).trans hu)

/-- The turn taken from a cycle is the one the engine answers. -/
theorem turns_get_of_turn {s : State} {ts : Turns} {e : EngineId} {r : Turn}
    (hts : s.turns exec = .next ts) (hr : s.turn exec e = .next r) : ts.get e = r := by
  obtain ⟨hget, _⟩ := turns_within hts e
  exact Host.Outcome.next.inj (hget.symm.trans hr)

/-- Settles O5: `exec` and the four turns always answer, and the invariant keeps every agent inside
its bank, so that the step is the merge of those turns. -/
theorem stepRunsDecodedInstruction : Obligations.StepRunsDecodedInstruction := by
  intro s e i hinv hrst hev
  obtain ⟨u, hu⟩ := exec_next i (s.focus e)
  obtain ⟨ts, hts, _⟩ := turns_next s
  exact ⟨u, ts, hu, hts, turns_get_of_turn hts (turn_of_evaluates hev hu),
    steps_merge hrst hts (bankFault_of_inv hinv), merge_engine s ts e⟩

/-! ### What one word leaves behind -/

/-- A raised fault is within the frame of a word (R122). -/
theorem wordFrame_faultedBy (f : EngineFault) (s : State) : WordFrame s (faultedBy f s) := by
  have hme : (faultedBy f s).me = { s.me with fault := some f } := engines_get_set_self _ _ _
  exact ⟨rfl, fun _ _ => rfl, fun e he => engines_get_set_ne _ _ _ _ he, by rw [hme], by rw [hme],
    by rw [hme]⟩

/-- Between `s` and `u` one word was evaluated: within its frame, what `u.req` asks of the pins, the
flags, the stall flags and the FIFO has been done to those of `s`, and nothing else to them. -/
structure WordApplied (s u : State) : Prop where
  frame : WordFrame s u
  out : u.out = u.req.drive s.out
  flags : u.flags = resolveFlags s.flags u.req.flagSet u.req.flagClr
  fifo : u.me.fifo = nextFifo false u.req.pop u.req.push s.me.fifo
  rxStall : u.me.rxStall = resolveSticky s.me.rxStall u.req.rxStall false
  txStall : u.me.txStall = resolveSticky s.me.txStall u.req.txStall false

theorem wordApplied_faultedBy (f : EngineFault) (s : State) : WordApplied s (faultedBy f s) := by
  have hme : (faultedBy f s).me = { s.me with fault := some f } := engines_get_set_self _ _ _
  refine ⟨wordFrame_faultedBy f s, rfl, (resolveFlags_none s.flags).symm, ?_, ?_, ?_⟩ <;>
    rw [hme] <;> simp [faultedBy, Requests.none, nextFifo, resolveSticky]

theorem wordApplied_commit {s t : State} (ho : OwnWord s t) (ha : ActsWithin s t) :
    WordApplied s (commit t) := by
  have hout : t.out = s.out := by rw [ho.state]
  have hflags : t.flags = s.flags := by rw [ho.state]
  refine ⟨wordFrame_commit ho, ?_, ?_, ?_, ?_, ?_⟩
  · rw [commit_out, commit_req, hout]
  · rw [commit_flags, commit_req, hflags]
  · rw [commit_me, commit_req, ← ha.fifo]; rfl
  · rw [commit_me, commit_req, ← ha.rxStall]; rfl
  · rw [commit_me, commit_req, ← ha.txStall]; rfl

/-- R122, R123: every word is applied, whether it raises a fault or acts. -/
theorem exec_applied {i : Instr} {s u : State} (hu : exec i s = .next u) : WordApplied s u := by
  rcases exec_cases i s with ⟨f, hf⟩ | ⟨t, ho, ha, ht⟩
  · cases hu.symm.trans hf
    exact wordApplied_faultedBy f s
  · cases hu.symm.trans ht
    exact wordApplied_commit ho ha

/-- A word does not change which engine evaluates it. -/
theorem exec_cur {i : Instr} {s u : State} (hu : exec i s = .next u) : u.cur = s.cur := by
  rw [(exec_applied hu).frame.state]

/-! ### Two states that a word cannot tell apart (O8) -/

theorem alike_raiseFault {s t : State} (h : Alike s t) (f : EngineFault) :
    Alike (raiseFault f s) (raiseFault f t) := alike_mapMe h _

/-- The effects of the requests keep agreement: they read the requests, the engine and the flags. -/
theorem alike_commit_state {s t : State} (h : Alike s t) : Alike (commit s) (commit t) := by
  obtain ⟨hme, hreq⟩ := alike_commit h
  refine ⟨h.cur, hme, hreq, h.params, h.pins, h.edges, ?_, h.lut⟩
  rw [commit_flags, commit_flags, h.flags, h.req]

/-- Two evaluations answer, in states that agree. -/
def AnswerAlike (o p : Host.Outcome State Fault Refusal) : Prop :=
  ∃ u v, o = .next u ∧ p = .next v ∧ Alike u v

/-- An evaluation whose checks find the same keeps agreement when its body does. -/
theorem evaluate_alike {s t : State} {fault : Option EngineFault} {body : State → State}
    (h : Alike (s.setReq Requests.none) (t.setReq Requests.none))
    (hb : ∀ {s' t' : State}, Alike s' t' → Alike (body s') (body t')) :
    AnswerAlike (evaluate fault body s) (evaluate fault body t) := by
  cases fault with
  | none => exact ⟨_, _, rfl, rfl, alike_commit_state (hb h)⟩
  | some f => exact ⟨_, _, rfl, rfl, alike_raiseFault h f⟩

/-- `GET` into a counter keeps agreement (R131). -/
theorem getField_alike {s t : State} (h : Alike (s.setReq Requests.none) (t.setReq Requests.none))
    (side : Side) (dly : BitVec 3) (n : Nat) (store : Word → Engine → Engine) :
    AnswerAlike (getField side dly n store s) (getField side dly n store t) := by
  have hme : t.me = s.me := h.me
  simp only [getField, hme]
  refine evaluate_alike h fun {s' t'} k => ?_
  rw [k.me]
  cases supply s'.me with
  | none => exact alike_mapReq (alike_sideAction k side) _
  | some u => exact alike_complete (alike_mapMe (alike_takeBits (alike_sideAction k side) u n) _) dly

/-- R8, R44: a word reads its view alone, so that in states that agree on it the word leaves states
that agree. -/
theorem exec_alike (i : Instr) {s t : State}
    (h : Alike (s.setReq Requests.none) (t.setReq Requests.none)) :
    AnswerAlike (exec i s) (exec i t) := by
  have hme : t.me = s.me := h.me
  cases i with
  | jmp side dly cond target =>
    simp only [exec, execJmp, hme]
    refine evaluate_alike h fun {s' t'} k => ?_
    rw [jumpTaken_alike k, k.me]
    exact alike_completeAt (alike_decrementFor (alike_sideAction k side) cond) _ dly
  | wait side dly level src consume =>
    simp only [exec, execWait, hme]
    refine evaluate_alike h fun {s' t'} k => ?_
    rw [waitValue_alike k]
    split
    · exact alike_complete (alike_consumeFlag (alike_sideAction k side) src consume) dly
    · exact alike_sideAction k side
  | shiftIn side dly count =>
    simp only [exec, execShiftIn, hme]
    refine evaluate_alike h fun {s' t'} k => ?_
    simp only [bitsLeft_alike k, k.me, k.pins]
    split
    · exact alike_complete (alike_sideAction k side) dly
    · exact alike_advanceTransfer (alike_sampleBit (alike_sideAction k side) _) _ dly
  | shiftOut side dly count =>
    simp only [exec, execShiftOut, hme]
    refine evaluate_alike h fun {s' t'} k => ?_
    simp only [bitsLeft_alike k, k.me]
    split
    · exact alike_complete (alike_sideAction k side) dly
    · cases supply s'.me with
      | none => exact alike_mapReq (alike_sideAction k side) _
      | some u =>
        exact alike_advanceTransfer
          (alike_mapReq (alike_takeBits (alike_sideAction k side) u 1) _) _ dly
  | getX side dly m =>
    simp only [exec, execGetX]
    exact getField_alike h side dly _ _
  | getY side dly m =>
    simp only [exec, execGetY]
    exact getField_alike h side dly _ _
  | getExec side dly =>
    simp only [exec, execGetExec, hme]
    refine evaluate_alike h fun {s' t'} k => ?_
    rw [k.me]
    cases supply s'.me with
    | none => exact alike_mapReq (alike_sideAction k side) _
    | some u =>
      cases hx : readExecutable s'.me.config (execField u) with
      | error f => simpa only [hx] using alike_raiseFault k f
      | ok x =>
        simpa only [hx] using
          alike_runExecutable (alike_sideAction (alike_takeBits k u 16) side) x
  | seto side dly target value =>
    simp only [exec, execSeto, hme]
    refine evaluate_alike h fun {s' t'} k => ?_
    exact alike_complete (alike_setTarget (alike_sideAction k side) target value) dly
  | load side dly dest src =>
    simp only [exec, execLoad, hme]
    refine evaluate_alike h fun {s' t'} k => ?_
    rw [loadValue_alike k]
    exact alike_complete (alike_mapMe (alike_sideAction k side) _) dly
  | nop side dly =>
    simp only [exec, execNop, hme]
    exact evaluate_alike h fun k => alike_complete (alike_sideAction k side) dly

/-- Settles O8: the word leaves states that agree on the evaluating engine and the requests
(`exec_alike`), and that engine is `e` still. -/
theorem execDependsOnlyOnItsView : Obligations.ExecDependsOnlyOnItsView := by
  intro i s t e h
  obtain ⟨u, v, hu, hv, huv⟩ :=
    exec_alike i (s := s.focus e) (t := t.focus e) (alike_focus h)
  have hcu : u.cur = e := exec_cur hu
  have hcv : v.cur = e := exec_cur hv
  have hme : v.engine v.cur = u.engine u.cur := huv.me
  rw [hcu, hcv] at hme
  exact ⟨u, v, hu, hv, hme, huv.req⟩

/-! ### A cycle with one active engine (O6) -/

section sole
variable {s : State} {e : EngineId} (h : SoleEngine s e)
include h

theorem sole_busCmd : s.busCmd = .none := busCmd_idle h.noHost

theorem sole_busReadData : s.busReadData = none := by simp [State.busReadData, h.noHost]

theorem sole_flushed (e' : EngineId) : s.flushed e' = false := by
  cases e' <;>
    simp [State.flushed, sole_busCmd h, BusCmd.flushes, h.noCapRecovery, h.noGenRecovery]

theorem sole_startsEngine (e' : EngineId) : s.startsEngine e' = false := by
  simp [State.startsEngine, sole_busCmd h, BusCmd.starts]

theorem sole_clearsRx (e' : EngineId) : s.clearsRx e' = false := by
  simp [State.clearsRx, sole_busCmd h, BusCmd.clearsRx, h.noCapRecovery]

theorem sole_clearsTx (e' : EngineId) : s.clearsTx e' = false := by
  simp [State.clearsTx, sole_busCmd h, BusCmd.clearsTx, h.noGenRecovery]

/-- Outside `Transferring` the mover is still (R220). -/
theorem sole_moverWord : s.moverWord = none := by simp [State.moverWord, h.capture]

theorem sole_moverActs : s.moverActs = false := by simp [State.moverActs, sole_moverWord h]

theorem sole_capBoundary : s.capBoundary = false := by simp [State.capBoundary, sole_moverActs h]

theorem sole_armed : s.armed = false := by simp [State.armed, sole_busCmd h]

theorem sole_watchdogLoad : s.watchdogLoad = none := by
  simp [State.watchdogLoad, sole_armed h, sole_moverActs h]

/-- Outside `Transferring` the watchdog is still (R244). -/
theorem sole_watchdogCounts : s.watchdogCounts = false := by
  simp [State.watchdogCounts, h.capture]

theorem sole_watchdogTimeout : s.watchdogTimeout = false := by
  simp [State.watchdogTimeout, sole_watchdogCounts h]

/-- A feeder that is not enabled is still (R228). -/
theorem sole_feederWord : s.feederWord = none := by simp [State.feederWord, h.feeder]

theorem sole_feederActs : s.feederActs = false := by simp [State.feederActs, sole_feederWord h]

theorem sole_genBoundary : s.genBoundary = false := by
  simp [State.genBoundary, sole_feederActs h]

/-- A player that is not armed is still (R198). -/
theorem sole_playerWord (g : SyncGen) : s.playerWord g = none := by
  simp [State.playerWord, h.players]

theorem sole_agentPops (e' : EngineId) : s.agentPops e' = false := by
  cases e' <;> simp [State.agentPops, sole_moverActs h]

theorem sole_agentPush (e' : EngineId) : s.agentPush e' = none := by
  cases e' <;> simp [State.agentPush, sole_feederWord h, sole_playerWord h]

theorem sole_bankFault : s.bankFault = none := by
  simp [State.bankFault, sole_moverActs h, sole_feederActs h]

/-- Of the capture side the meter alone goes on (R233). -/
theorem sole_nextCapture : s.nextCapture = { s.cap with measCtr := meterTick s.cap.measCtr } := by
  simp [State.nextCapture, State.moverWrites, State.nextCx, State.nextWptr, State.nextWdOn,
    State.nextWdCtr, sole_moverWord h, sole_capBoundary h, sole_armed h, sole_watchdogLoad h,
    sole_watchdogCounts h, sole_moverActs h, sole_busCmd h, h.noCapRecovery]

/-- Of the generation side the meter alone goes on (R233). -/
theorem sole_nextGeneration :
    s.nextGeneration = { s.gen with measCtr := meterTick s.gen.measCtr } := by
  simp [State.nextGeneration, State.windowWrites, State.nextGx, State.nextRptr, State.nextFeedEn,
    State.nextSingle, State.genSwap, State.enablesFeeder, sole_genBoundary h, sole_feederActs h,
    sole_busCmd h, h.noGenRecovery]

theorem sole_nextPlayer (g : SyncGen) : s.nextPlayer g = s.player g := by
  simp [State.nextPlayer, State.advancedPlayer, sole_busCmd h, sole_playerWord h]

theorem sole_nextErr : s.nextErr = s.err := by
  simp [State.nextErr, errTick, h.noCapRecovery, h.noGenRecovery]

/-- No other agent writes an engine's stall flags and FIFO: its own word's requests are merged
alone (R262). -/
theorem sole_nextEngine (e' : EngineId) (r : Turn) :
    s.nextEngine e' r =
      { r.eng with
        prog := (s.engine e').prog
        config := (s.engine e').config
        run := (s.engine e').run
        rxStall := resolveSticky (s.engine e').rxStall r.req.rxStall false
        txStall := resolveSticky (s.engine e').txStall r.req.txStall false
        fifo := nextFifo false r.req.pop r.req.push (s.engine e').fifo } := by
  simp [State.nextEngine, sole_busCmd h, BusCmd.nextProg, BusCmd.nextConfig, BusCmd.pops,
    BusCmd.pushes, sole_startsEngine h, sole_watchdogTimeout h, sole_clearsRx h, sole_clearsTx h,
    sole_flushed h, sole_agentPops h, sole_agentPush h]

/-- The merge when one engine alone is active: the four turns, and the passing of a cycle (R8, R112,
R233). -/
theorem sole_merge (ts : Turns) :
    s.merge ts = passTime s { s with
      eng := (s.merge ts).eng, out := ts.drive s.out, flags := ts.flags s.flags } := by
  simp [State.merge, passTime, sole_busCmd h, BusCmd.nextLut, BusCmd.eventClears,
    sole_busReadData h, sole_nextCapture h, sole_nextGeneration h, sole_nextPlayer h,
    sole_nextErr h, h.noCapRecovery, h.noGenRecovery, resolveSticky, State.edgeNext, Input.hs,
    Input.vs, State.player]

end sole

/-- The passing of a cycle reads of the word's state what a word can change. -/
theorem passTime_of_frame {s u : State} {e : EngineId} (h : WordFrame (s.focus e) u) :
    passTime s u = passTime s { s with eng := u.eng, out := u.out, flags := u.flags } := by
  rw [h.state]
  rfl

/-- The turns of a cycle in which one engine evaluates a word: no other engine asks anything. -/
theorem sole_turns_get {s : State} {e : EngineId} (h : SoleEngine s e) {ts : Turns}
    (hts : s.turns exec = .next ts) {e' : EngineId} (hne : e' ≠ e) :
    ts.get e' = { eng := s.engine e', req := Requests.none } :=
  turns_get_of_turn hts (turn_stopped (h.others e' hne))

/-- The pins after a cycle in which one engine alone asks for writes. -/
theorem drive_of_sole {ts : Turns} {e : EngineId}
    (hq : ∀ e', e' ≠ e → (ts.get e').req = Requests.none) (o : OutPins) :
    ts.drive o = (ts.get e).req.drive o := by
  have hc := hq .cap; have hg := hq .gen; have hh := hq .hs; have hv := hq .vs
  cases e <;> simp_all [Turns.drive, Turns.get]

/-- The flags after a cycle in which one engine alone asks for writes. -/
theorem flags_of_sole {ts : Turns} {e : EngineId}
    (hq : ∀ e', e' ≠ e → (ts.get e').req = Requests.none) (f : BitVec 4) :
    ts.flags f = resolveFlags f (ts.get e).req.flagSet (ts.get e).req.flagClr := by
  have hc := hq .cap; have hg := hq .gen; have hh := hq .hs; have hv := hq .vs
  cases e <;> simp_all [Turns.flags, Turns.get, Requests.none]

/-- An engine without a turn of its own is as before when nothing else is active. -/
theorem sole_nextEngine_idle {s : State} {e : EngineId} (h : SoleEngine s e) (e' : EngineId) :
    s.nextEngine e' { eng := s.engine e', req := Requests.none } = s.engine e' := by
  simp [sole_nextEngine h, Requests.none, resolveSticky, nextFifo]

/-- The engine whose word was applied is, after the merge, as the word left it. -/
theorem sole_nextEngine_applied {s u : State} {e : EngineId} (h : SoleEngine s e)
    (hu : WordApplied (s.focus e) u) (hcur : u.cur = e) :
    s.nextEngine e { eng := u.engine e, req := u.req } = u.engine e := by
  have hme : u.me = u.engine e := by rw [me_eq, hcur]
  obtain ⟨⟨_, _, _, hprog, hconfig, hrun⟩, _, _, hfifo, hrx, htx⟩ := hu
  rw [hme, me_focus] at hprog hconfig hrun hfifo hrx htx
  rw [sole_nextEngine h, ← hprog, ← hconfig, ← hrun, ← hfifo, ← hrx, ← htx]

/-- Settles O6: the merge is the passing of a cycle over the engines, pins and flags it computes
(`sole_merge`), and those are the ones the word left: the evaluating engine takes its own result, the
others ask for nothing. -/
theorem soleEngineStepIsExec : Obligations.SoleEngineStepIsExec := by
  intro s e i h hdec
  obtain ⟨u, hu⟩ := exec_next i (s.focus e)
  obtain ⟨ts, hts, _⟩ := turns_next s
  have happ := exec_applied hu
  have hcur : u.cur = e := exec_cur hu
  have hown : ts.get e = { eng := u.engine e, req := u.req } :=
    turns_get_of_turn hts (turn_of_evaluates ⟨h.evaluates, hdec⟩ hu)
  have hquiet : ∀ e', e' ≠ e → (ts.get e').req = Requests.none := fun e' hne => by
    rw [sole_turns_get h hts hne]
  have hout : ts.drive s.out = u.out := by
    rw [drive_of_sole hquiet, hown]; exact happ.out.symm
  have hflags : ts.flags s.flags = u.flags := by
    rw [flags_of_sole hquiet, hown]; exact happ.flags.symm
  have heng : (s.merge ts).eng = u.eng := engines_ext fun e' => by
    change (s.merge ts).engine e' = u.engine e'
    rw [merge_engine]
    by_cases hne : e' = e
    · subst hne
      rw [hown, sole_nextEngine_applied h happ hcur]
    · rw [sole_turns_get h hts hne, sole_nextEngine_idle h]
      exact (happ.frame.others e' hne).symm
  have hstep : s.merge ts = passTime s u := by
    rw [sole_merge h, heng, hout, hflags, ← passTime_of_frame happ.frame]
  exact ⟨u, hu, hstep ▸ steps_merge h.noReset hts (sole_bankFault h)⟩

end Sys2Proof.Machine

/-!
PROOFS. The state of 10_state.md: the reset state (O23), the invariant at reset and over every step
(O59, O60), and the merge of the writers of a FIFO, a flag and an output pin (O27, O28, O29).
-/

namespace Sys2Proof.Machine

/-! ### The state after a cycle with reset (R58, R59) -/

section resetCycle
variable (s : State)

@[simp] theorem resetCycle_edge (b : Bank) :
    s.resetCycle.edge b = { hsQ := true, vsQ := true } := by cases b <;> rfl
@[simp] theorem resetCycle_engine (e : EngineId) : s.resetCycle.engine e = resetEngine e := by
  cases e <;> rfl
@[simp] theorem resetCycle_player (g : SyncGen) :
    s.resetCycle.player g = resetPlayer (s.player g).mem := by cases g <;> rfl

/-- Reset fills no memory (R59). -/
theorem resetCycle_memory (sp : Space) : s.resetCycle.memory sp = s.memory sp := by
  cases sp with
  | cbank b => cases b <;> rfl
  | gbank b => cases b <;> rfl
  | loopTable g => cases g <;> rfl

theorem resetCycle_byteAt (sp : Space) (a : Nat) : s.resetCycle.byteAt sp a = s.byteAt sp a := by
  rw [State.byteAt, resetCycle_memory, State.byteAt]

end resetCycle

/-- The registers of R59 that all engines have in common. -/
theorem resetEngine_registers (e : EngineId) :
    (resetEngine e).pc = 0 ∧ (resetEngine e).x = 0 ∧ (resetEngine e).y = 0 ∧
    (resetEngine e).sr = 0 ∧ (resetEngine e).cnt = 0 ∧ (resetEngine e).dly = 0 ∧
    (resetEngine e).rem = 0 ∧ (resetEngine e).run = false ∧ (resetEngine e).fault = none ∧
    (resetEngine e).rxStall = false ∧ (resetEngine e).txStall = false ∧ (resetEngine e).fifo = [] :=
  ⟨rfl, rfl, rfl, rfl, rfl, rfl, rfl, rfl, rfl, rfl, rfl, rfl⟩

/-- The reset values of `CONFIG` as its words (R59, R104). -/
theorem resetConfig_words :
    (resetConfig .cap).word = 0 ∧ (resetConfig .gen).word = 0x13 ∧ (resetConfig .hs).word = 7 ∧
    (resetConfig .vs).word = 0xB := by decide

/-- Settles O23: the state after a cycle with `rst` is `resetCycle`, which holds the reset values and
the memories of the state before. -/
theorem resetState : Obligations.ResetState := by
  intro s hrst
  obtain ⟨hcap, hgen, hhs, hvs⟩ := resetConfig_words
  have hregs := fun e => resetCycle_engine s e ▸ resetEngine_registers e
  have hplayers : ∀ g, (s.resetCycle.player g).len = 0 ∧ (s.resetCycle.player g).armed = false ∧
      (s.resetCycle.player g).idx = 0 := fun g => by simp [resetPlayer]
  exact ⟨s.resetCycle, steps_reset hrst, rfl, resetCycle_edge s, rfl, rfl, hregs,
    rfl, rfl, rfl, rfl, hcap, hgen, hhs, hvs, fun _ _ => resetCycle_byteAt s,
    rfl, rfl, rfl, rfl, rfl, rfl, rfl, rfl, rfl, rfl, hplayers,
    rfl, rfl, rfl, rfl, rfl, rfl, rfl, rfl, rfl, rfl, rfl, rfl⟩

/-! ### The invariant at reset -/

/-- R10: a bank holds a frame, and a frame at least one word. -/
theorem bankWords_pos {p : Params} (h : p.wf = true) : 0 < p.bankWords := by
  simp only [Params.wf, Bool.and_eq_true, decide_eq_true_eq] at h
  omega

theorem engineInv_reset (p : Params) (e : EngineId) : EngineInv p (resetEngine e) :=
  ⟨Nat.zero_le _, (by decide : (0 : BitVec 6).toNat < 32)⟩

theorem captureInv_reset {p : Params} (hp : p.wf = true) {m0 m1 : Memory} (h0 : Memory.wf m0)
    (h1 : Memory.wf m1) : CaptureInv p (resetCapture m0 m1) where
  memory0 := h0
  memory1 := h1
  pointer := bankWords_pos hp
  transferring := fun _ => rfl
  settled := nofun
  watchdog := nofun

theorem genInv_reset {p : Params} (hp : p.wf = true) {m0 m1 : Memory} (h0 : Memory.wf m0)
    (h1 : Memory.wf m1) : GenInv p (resetGeneration m0 m1) where
  memory0 := h0
  memory1 := h1
  pointer := bankWords_pos hp
  transferring := nofun
  settled := fun _ => rfl

theorem playerInv_reset {m : Memory} (h : Memory.wf m) : PlayerInv (resetPlayer m) :=
  ⟨h, nofun, nofun⟩

/-- A cycle with `rst` leads to the invariant from every state whose parameters are in range and whose
memories are in canonical form. -/
theorem inv_resetCycle {s : State} (hp : s.params.wf = true) (hm : ∀ sp, Memory.wf (s.memory sp)) :
    MachineInv s.resetCycle where
  params := hp
  engines e := resetCycle_engine s e ▸ engineInv_reset s.params e
  capture := captureInv_reset hp (hm (.cbank false)) (hm (.cbank true))
  generation := genInv_reset hp (hm (.gbank false)) (hm (.gbank true))
  players g := resetCycle_player s g ▸ playerInv_reset (hm (.loopTable g))
  requests := rfl

theorem reset_params_wf : State.reset.params.wf = true := by decide

/-- Settles O59: each part of the reset state has its part of the invariant. -/
theorem invariantAtReset : Obligations.InvariantAtReset where
  params := reset_params_wf
  engines e := by cases e <;> exact engineInv_reset _ _
  capture := captureInv_reset reset_params_wf .nil .nil
  generation := genInv_reset reset_params_wf .nil .nil
  players g := by cases g <;> exact playerInv_reset .nil
  requests := rfl

/-! ### A FIFO with several writers (O27) -/

/-- Settles O27: a step is a reset, which empties the FIFO, or a merge, which is `nextFifo`. -/
theorem fifoKeepsOrder : Obligations.FifoKeepsOrder := by
  intro s t e hstep
  rcases steps_cases hstep with ⟨_, rfl⟩ | ⟨ts, _, _, _, rfl⟩
  · left
    rw [resetCycle_engine]
    rfl
  · rw [merge_engine, nextEngine_fifo]
    refine (nextFifo_form _ _ _ _).imp_right fun ⟨k, hk, hq⟩ => ⟨k, _, hk, ?_, hq⟩
    exact Option.length_toList_le

/-! ### A flag with several writers (O28) -/

/-- Some turn asks for a write of `v` to `F[k]`. -/
def Turns.flagAsked (ts : Turns) (k : BitVec 2) (v : Bool) : Prop :=
  ∃ e, (ts.get e).req.flagAsked k v = true

/-- What holds of some engine holds of one of the four. -/
theorem exists_engine_iff {P : EngineId → Prop} :
    (∃ e, P e) ↔ P .cap ∨ P .gen ∨ P .hs ∨ P .vs := by
  constructor
  · rintro ⟨e, h⟩
    cases e <;> simp [h]
  · rintro (h | h | h | h) <;> exact ⟨_, h⟩

/-- R262: of the requests of all turns any set wins, else any clear, else the flag holds. -/
theorem flags_getLsbD_iff (ts : Turns) (f : BitVec 4) (k : BitVec 2) :
    (ts.flags f).getLsbD k.toNat = true ↔
      ts.flagAsked k true ∨ (f.getLsbD k.toNat = true ∧ ¬ ts.flagAsked k false) := by
  have hk : k.toNat < 4 := k.isLt
  simp only [Turns.flagAsked, exists_engine_iff, Turns.get, Requests.flagAsked, Turns.flags,
    resolveFlags, BitVec.getLsbD_or, BitVec.getLsbD_and, BitVec.getLsbD_not, hk, decide_true,
    if_true, Bool.or_eq_true, Bool.and_eq_true, Bool.true_and, Bool.not_eq_true',
    Bool.false_eq_true, if_false, not_or, Bool.not_eq_true, Bool.or_eq_false_iff]
  tauto

/-- The flags that the turns of a step ask for are those that its engines write. -/
theorem flagAsked_iff_writes {s : State} {ts : Turns} (hts : s.turns exec = .next ts)
    (k : BitVec 2) (v : Bool) : ts.flagAsked k v ↔ ∃ e, WritesFlag s e k v :=
  exists_congr fun e => turn_flagAsked (turns_within hts e).1 k v

/-- Settles O28: a flag after the merge is 1 exactly when some engine sets it, or it was 1 and none
clears it. -/
theorem flagSetWins : Obligations.FlagSetWins := by
  intro s t k hrst hstep
  obtain ⟨ts, _, hts, rfl⟩ := steps_cases_merge hstep hrst
  have hflag : ((s.merge ts).flags.getLsbD k.toNat = true) ↔ (∃ e, WritesFlag s e k true) ∨
      (s.flags.getLsbD k.toNat = true ∧ ¬ ∃ e, WritesFlag s e k false) := by
    rw [merge_flags, flags_getLsbD_iff, flagAsked_iff_writes hts, flagAsked_iff_writes hts]
  refine ⟨fun hset => hflag.2 (.inl hset), fun hclear hnoset => ?_, fun hnone => ?_⟩
  · rw [← Bool.not_eq_true, hflag]
    rintro (⟨e, hset⟩ | ⟨_, hnoclear⟩)
    · exact hnoset e hset
    · exact hnoclear hclear
  · rw [Bool.eq_iff_iff, hflag]
    simp [hnone]

/-! ### An output pin with several writers (O29) -/

/-- The pins that the turns of a step ask for are those that its engines write. -/
theorem pinAsked_iff_writes {s : State} {ts : Turns} (hts : s.turns exec = .next ts) (e : EngineId)
    (p : OutPin) (v : Bool) : (ts.get e).req.pinAsked p = some v ↔ WritesPin s e p v :=
  turn_pinAsked (turns_within hts e).1 p v

/-- R21, R262: a pin after the merge is what the last of the engines that ask gives it. -/
theorem level_turns_drive (ts : Turns) (o : OutPins) (p : OutPin) :
    (ts.drive o).level p =
      ((ts.get .vs).req.pinAsked p).getD (((ts.get .hs).req.pinAsked p).getD
        (((ts.get .gen).req.pinAsked p).getD (((ts.get .cap).req.pinAsked p).getD (o.level p)))) := by
  simp only [Turns.drive, Turns.get, level_drive]

/-- R21: the engine with the largest index among those that ask drives the pin. -/
theorem level_drive_of_highest {ts : Turns} {e : EngineId} {p : OutPin} {v : Bool}
    (he : (ts.get e).req.pinAsked p = some v)
    (hhigher : ∀ e', e.index < e'.index → (ts.get e').req.pinAsked p = none) (o : OutPins) :
    (ts.drive o).level p = v := by
  rw [level_turns_drive]
  cases e with
  | cap => simp [he, hhigher .gen (by decide), hhigher .hs (by decide), hhigher .vs (by decide)]
  | gen => simp [he, hhigher .hs (by decide), hhigher .vs (by decide)]
  | hs => simp [he, hhigher .vs (by decide)]
  | vs => simp [he]

/-- A pin that no engine asks for holds. -/
theorem level_drive_of_none {ts : Turns} {p : OutPin}
    (hnone : ∀ e, (ts.get e).req.pinAsked p = none) (o : OutPins) :
    (ts.drive o).level p = o.level p := by
  simp [level_turns_drive, hnone]

/-- Settles O29: the turns are merged in the order of the engines' indices, and a turn asks for what its
word writes. -/
theorem highestEngineDrivesPin : Obligations.HighestEngineDrivesPin := by
  intro s t p hrst hstep
  obtain ⟨ts, _, hts, rfl⟩ := steps_cases_merge hstep hrst
  have hquiet : ∀ {e}, (∀ v, ¬ WritesPin s e p v) → (ts.get e).req.pinAsked p = none :=
    fun {e} h => Option.eq_none_iff_forall_ne_some.2 fun v hv =>
      h v ((pinAsked_iff_writes hts e p v).1 hv)
  refine ⟨fun e v hwrite hhigher => ?_, fun hnone => ?_⟩
  · exact level_drive_of_highest ((pinAsked_iff_writes hts e p v).2 hwrite)
      (fun e' hlt => hquiet fun v' => hhigher e' v' hlt) s.out
  · exact level_drive_of_none (fun e => hquiet (hnone e)) s.out

/-! ### The handshakes in a cycle -/

/-- The mover acts only while a frame is being captured (R220). -/
theorem moverActs_eq_false {s : State} (h : s.cap.x ≠ .transferring) : s.moverActs = false := by
  rw [← Bool.not_eq_true]
  exact fun ha => h (moverActs_facts ha).2.1

theorem capBoundary_eq_false {s : State} (h : s.cap.x ≠ .transferring) : s.capBoundary = false := by
  rw [State.capBoundary, moverActs_eq_false h, Bool.false_and]

/-- In a recovery the mover is still and `ARM` is refused (R245). -/
theorem capBoundary_of_recovery {s : State} (h : s.capRecovery = true) : s.capBoundary = false := by
  rw [← Bool.not_eq_true]
  intro hb
  obtain ⟨hr, _⟩ := moverActs_facts (capBoundary_facts hb).1
  simp [hr] at h

theorem armed_of_recovery {s : State} (h : s.capRecovery = true) : s.armed = false := by
  rw [← Bool.not_eq_true]
  intro ha
  obtain ⟨_, _, hr⟩ := armed_facts ha
  simp [hr] at h

/-- The watchdog is loaded by `ARM`, or while a frame is being captured (R244). -/
theorem watchdogLoad_eq_none {s : State} (ha : s.armed = false) (h : s.cap.x ≠ .transferring) :
    s.watchdogLoad = none := by
  simp [State.watchdogLoad, ha, moverActs_eq_false h]

/-- The handshake of the capture side in one cycle, from `c` to `d`. -/
inductive CaptureMove (c d : CaptureSide) : Prop
  /-- R245. -/
  | recovered (x : d.x = if c.x = .transferring then .idle else c.x) (sel : d.sel = c.sel)
      (buf : d.buf = c.buf) (wdOn : d.wdOn = false)
  /-- R219. -/
  | armed (old : c.x = .idle) (x : d.x = .transferring) (sel : d.sel = c.sel) (buf : d.buf = c.sel)
  /-- R223. -/
  | taken (old : c.x = .settled) (x : d.x = .idle) (sel : d.sel = c.sel) (buf : d.buf = c.buf)
      (wdOn : d.wdOn = c.wdOn)
  /-- R222. -/
  | completed (old : c.x = .transferring) (x : d.x = .settled) (sel : d.sel = !c.sel)
      (buf : d.buf = c.buf) (wdOn : d.wdOn = false)
  /-- None of these: the watchdog may be loaded while a frame is captured (R244). -/
  | held (x : d.x = c.x) (sel : d.sel = c.sel) (buf : d.buf = c.buf)
      (wdOn : c.x ≠ .transferring → d.wdOn = c.wdOn)

/-- R219, R222, R223, R244, R245: all that a cycle can do to the capture handshake. -/
theorem nextCapture_move (s : State) : CaptureMove s.cap s.nextCapture := by
  cases hr : s.capRecovery with
  | true =>
    have hb := capBoundary_of_recovery hr
    have ha := armed_of_recovery hr
    exact .recovered (by simp [State.nextCx, hr]) (by simp [hb]) (by simp [ha])
      (by simp [State.nextWdOn, hr])
  | false =>
    cases ha : s.armed with
    | true =>
      obtain ⟨_, hx, _⟩ := armed_facts ha
      have hb : s.capBoundary = false := capBoundary_eq_false (by simp [hx])
      exact .armed hx (by simp [State.nextCx, hr, ha]) (by simp [hb]) (by simp [ha])
    | false =>
      have hwd : s.capBoundary = false → s.cap.x ≠ .transferring → s.nextWdOn = s.cap.wdOn :=
        fun hb hx => by simp [State.nextWdOn, hr, hb, watchdogLoad_eq_none ha hx]
      by_cases ht : s.busCmd = .capTake
      · obtain ⟨hx, _⟩ := busCmd_capTake ht
        have hne : s.cap.x ≠ .transferring := by simp [hx]
        have hb := capBoundary_eq_false hne
        exact .taken hx (by simp [State.nextCx, hr, ha, ht]) (by simp [hb]) (by simp [ha])
          (hwd hb hne)
      · cases hb : s.capBoundary with
        | true =>
          obtain ⟨_, hx, _⟩ := moverActs_facts (capBoundary_facts hb).1
          exact .completed hx (by simp [State.nextCx, hr, ha, ht, hb]) (by simp [hb])
            (by simp [ha]) (by simp [State.nextWdOn, hb])
        | false =>
          exact .held (by simp [State.nextCx, hr, ha, ht, hb]) (by simp [hb]) (by simp [ha])
            (hwd hb)

/-- The handshake of the generation side in one cycle, from `g` to `k`. -/
inductive GenMove (g k : GenSide) : Prop
  /-- R227. -/
  | committed (old : g.x = .idle) (x : k.x = .transferring) (sel : k.sel = g.sel) (buf : k.buf = !g.sel)
  /-- R231. -/
  | taken (old : g.x = .settled) (x : k.x = .idle) (sel : k.sel = g.sel) (buf : k.buf = g.buf)
  /-- R230. -/
  | swapped (old : g.x = .transferring) (x : k.x = .settled) (sel : k.sel = !g.sel)
      (buf : k.buf = g.buf)
  /-- None of these. -/
  | held (x : k.x = g.x) (sel : k.sel = g.sel) (buf : k.buf = g.buf)

/-- R227, R230, R231: all that a cycle can do to the generation handshake. -/
theorem nextGeneration_move (s : State) : GenMove s.gen s.nextGeneration := by
  by_cases hc : s.busCmd = .commitFrame
  · obtain ⟨hx, _⟩ := busCmd_commitFrame hc
    exact .committed hx (by simp [State.nextGx, hc]) (by simp [State.genSwap, hx]) (by simp [hc])
  · by_cases ht : s.busCmd = .genTake
    · obtain ⟨hx, _⟩ := busCmd_genTake ht
      exact .taken hx (by simp [State.nextGx, ht]) (by simp [State.genSwap, hx]) (by simp [hc])
    · cases hs : s.genSwap with
      | true =>
        obtain ⟨_, hx⟩ := genSwap_facts hs
        exact .swapped hx (by simp [State.nextGx, hc, ht, hs]) (by simp [hs]) (by simp [hc])
      | false => exact .held (by simp [State.nextGx, hc, ht, hs]) (by simp [hs]) (by simp [hc])

/-! ### The pointers stay inside their banks (R220, R228) -/

/-- A pointer moved on to a word of the frame. -/
theorem succ_ptr_lt {ptr : BitVec 16} {n m : Nat} (h : ptr.toNat + 1 < n) (hn : n ≤ m) :
    (ptr + 1).toNat < m := by
  have := Nat.mod_le (ptr.toNat + 1) (2 ^ 16)
  rw [BitVec.toNat_add]
  show (ptr.toNat + 1) % 2 ^ 16 < m
  omega

theorem nextWptr_lt {s : State} (hpos : 0 < s.params.bankWords)
    (h : s.cap.ptr.toNat < s.params.bankWords) : s.nextWptr.toNat < s.params.bankWords := by
  unfold State.nextWptr
  split
  · exact hpos
  · split
    · exact hpos
    · split
      next hmove =>
        obtain ⟨ha, hb⟩ : s.moverActs = true ∧ s.capBoundary = false := by simpa using hmove
        exact succ_ptr_lt (capBoundary_false ha hb) (frameWords_le s)
      next => exact h

theorem nextRptr_lt {s : State} (hpos : 0 < s.params.bankWords)
    (h : s.gen.ptr.toNat < s.params.bankWords) : s.nextRptr.toNat < s.params.bankWords := by
  unfold State.nextRptr
  split
  · exact hpos
  · split
    · exact hpos
    · split
      · exact hpos
      next hb =>
        split
        next ha => exact succ_ptr_lt (genBoundary_false ha (by simpa using hb)) (frameWords_le s)
        next => exact h

/-! ### The memories stay in canonical form -/

theorem wf_nextCapture_bank {s : State} (h : ∀ b, Memory.wf (s.cap.bank b)) (b : Bool) :
    Memory.wf (s.nextCapture.bank b) := by
  rw [nextCapture_bank, moverWrites_bank]
  split
  · split
    · exact wf_writeWord _ _ _ (h b)
    · exact h b
  · exact h b

theorem wf_nextGeneration_bank {s : State} (h : ∀ b, Memory.wf (s.gen.bank b)) (b : Bool) :
    Memory.wf (s.nextGeneration.bank b) := by
  rw [nextGeneration_bank]
  rcases windowWrites_bank s b with hw | ⟨i, d, _, _, hw⟩ <;> rw [hw]
  · exact h b
  · exact wf_writeWord _ _ _ (h b)

/-! ### The parts of the invariant over a cycle -/

theorem captureInv_bank {p : Params} {c : CaptureSide} (h : CaptureInv p c) (b : Bool) :
    Memory.wf (c.bank b) := by
  cases b
  · exact h.memory0
  · exact h.memory1

theorem genInv_bank {p : Params} {g : GenSide} (h : GenInv p g) (b : Bool) :
    Memory.wf (g.bank b) := by
  cases b
  · exact h.memory0
  · exact h.memory1

/-- The memories of a state with the invariant. -/
theorem inv_memory {s : State} (h : MachineInv s) (sp : Space) : Memory.wf (s.memory sp) := by
  cases sp with
  | cbank b => exact captureInv_bank h.capture b
  | gbank b => exact genInv_bank h.generation b
  | loopTable g => exact (h.players g).memory

/-- R28, R31: no writer fills a FIFO beyond its depth, and no word leaves 32 bits in `SR`. -/
theorem engineInv_next {s : State} {e : EngineId} {r : Turn} (hw : TurnWithin s e r)
    (h : EngineInv s.params (s.engine e)) : EngineInv s.params (s.nextEngine e r) :=
  ⟨nextEngine_level hw h.level, hw.bits h.bits⟩

/-- R218, R244: what `cx` says of `cbuf` and of the watchdog holds after every move of the handshake. -/
theorem captureMove_keeps {p : Params} {c d : CaptureSide} (hmove : CaptureMove c d)
    (h : CaptureInv p c) :
    (d.x = .transferring → d.buf = d.sel) ∧ (d.x = .settled → d.buf = !d.sel) ∧
      (d.wdOn = true → d.x = .transferring) := by
  have htrans := h.transferring
  have hsettled := h.settled
  have hwd := h.watchdog
  cases hmove with
  | recovered x sel buf wdOn =>
    rw [x, sel, buf, wdOn]
    split
    · exact ⟨nofun, nofun, nofun⟩
    · exact ⟨htrans, hsettled, nofun⟩
  | armed _ x sel buf =>
    rw [x, sel, buf]
    exact ⟨fun _ => rfl, nofun, fun _ => rfl⟩
  | taken old x _ _ wdOn =>
    rw [x, wdOn]
    exact ⟨nofun, nofun, fun hon => by simp [hwd hon] at old⟩
  | completed old x sel buf wdOn =>
    rw [x, sel, buf, wdOn]
    exact ⟨nofun, fun _ => by simp [htrans old], nofun⟩
  | held x sel buf wdOn =>
    rw [x, sel, buf]
    refine ⟨htrans, hsettled, fun hon => ?_⟩
    by_contra hx
    exact hx (hwd (wdOn hx ▸ hon))

theorem captureInv_next {s : State} (hp : s.params.wf = true) (h : CaptureInv s.params s.cap) :
    CaptureInv s.params s.nextCapture := by
  have hwf := wf_nextCapture_bank (captureInv_bank h)
  obtain ⟨htrans, hsettled, hwd⟩ := captureMove_keeps (nextCapture_move s) h
  exact ⟨hwf false, hwf true, nextWptr_lt (bankWords_pos hp) h.pointer, htrans, hsettled, hwd⟩

/-- R226: what `gx` says of `gbuf` holds after every move of the handshake. -/
theorem genMove_keeps {p : Params} {g k : GenSide} (hmove : GenMove g k) (h : GenInv p g) :
    (k.x = .transferring → k.buf = !k.sel) ∧ (k.x = .settled → k.buf = k.sel) := by
  have htrans := h.transferring
  have hsettled := h.settled
  cases hmove with
  | committed _ x sel buf =>
    rw [x, sel, buf]
    exact ⟨fun _ => rfl, nofun⟩
  | taken _ x _ _ =>
    rw [x]
    exact ⟨nofun, nofun⟩
  | swapped old x sel buf =>
    rw [x, sel, buf]
    exact ⟨nofun, fun _ => htrans old⟩
  | held x sel buf =>
    rw [x, sel, buf]
    exact ⟨htrans, hsettled⟩

theorem genInv_next {s : State} (hp : s.params.wf = true) (h : GenInv s.params s.gen) :
    GenInv s.params s.nextGeneration := by
  have hwf := wf_nextGeneration_bank (genInv_bank h)
  obtain ⟨htrans, hsettled⟩ := genMove_keeps (nextGeneration_move s) h
  exact ⟨hwf false, hwf true, nextRptr_lt (bankWords_pos hp) h.pointer, htrans, hsettled⟩

/-- R198: the index of an armed table goes round its entries. -/
theorem playerInv_advanced {s : State} {g : SyncGen} (h : PlayerInv (s.player g)) :
    PlayerInv (s.advancedPlayer g) := by
  obtain ⟨hmem, hlen, hidx⟩ := h
  rw [advancedPlayer_form]
  refine ⟨hmem, hlen, fun ha => ?_⟩
  obtain ⟨h1, h16⟩ := hlen ha
  split
  · have := Nat.mod_lt ((s.player g).idx.toNat + 1) h1
    rw [BitVec.toNat_ofNat, Nat.mod_eq_of_lt (by omega)]
    exact this
  · exact hidx ha

theorem playerInv_next {s : State} {g : SyncGen} (h : PlayerInv (s.player g)) :
    PlayerInv (s.nextPlayer g) := by
  have hadv := playerInv_advanced h
  rcases nextPlayer_cases s g with hn | ⟨i, d, _, hn⟩ | ⟨len, armed, hc, hn⟩ <;> rw [hn]
  · exact hadv
  · exact ⟨wf_writeWord _ _ _ h.memory, hadv.length, hadv.index⟩
  · have hpos : armed = true → 1 ≤ len.toNat := fun ha =>
      Nat.one_le_iff_ne_zero.2 fun h0 => (busCmd_ltCtrl hc ha).1 (BitVec.eq_of_toNat_eq h0)
    exact ⟨h.memory, fun ha => ⟨hpos ha, (busCmd_ltCtrl hc ha).2⟩, hpos⟩

/-- A merge keeps the invariant. -/
theorem inv_merge {s : State} {ts : Turns} (h : MachineInv s) (hts : s.turns exec = .next ts) :
    MachineInv (s.merge ts) where
  params := h.params
  engines e := merge_engine s ts e ▸ engineInv_next (turns_within hts e).2 (h.engines e)
  capture := captureInv_next h.params h.capture
  generation := genInv_next h.params h.generation
  players g := merge_player s ts g ▸ playerInv_next (h.players g)
  requests := rfl

/-- Settles O60: the invariant keeps both agents inside their banks, so the step is a reset or a merge,
and both keep the invariant. -/
theorem invariantKeptByStep : Obligations.InvariantKeptByStep := by
  intro s hinv
  obtain ⟨t, hstep⟩ := safe_of_bankFault (bankFault_of_inv hinv)
  refine ⟨t, hstep, ?_⟩
  rcases steps_cases hstep with ⟨_, rfl⟩ | ⟨ts, _, _, hts, rfl⟩
  · exact inv_resetCycle hinv.params (inv_memory hinv)
  · exact inv_merge hinv hts

end Sys2Proof.Machine

/-!
PROOFS. The memories and the host bus of 20_memory.md: what the host does not see (O47), what a refused
access does (O32), the address map (O31), what the host clears, reads and writes (O30, O33 to O38), and
the packed form of pixels (O58).
-/

namespace Sys2Proof.Machine

/-! ### Two states that one cycle cannot tell apart (R66, R77)

The agents of a cycle read no capture bank, and of the host's access only what it asks of them, which is
nothing when it is refused. -/

/-- Between `s` and `s'` only the content of the capture banks and the listed stimulus may differ, and
the host of `s'` asks what the host of `s` asks, or nothing where that one is refused. -/
structure CycleAlike (s s' : State) : Prop where
  state : s' = { s with
    stim := s'.stim
    cap := { s.cap with bank0 := s'.cap.bank0, bank1 := s'.cap.bank1 } }
  rst : s'.input.rst = s.input.rst
  pins : ∀ b, Input.pix s'.input b = Input.pix s.input b ∧ Input.hs s'.input b = Input.hs s.input b ∧
    Input.vs s'.input b = Input.vs s.input b
  cmd : s'.busCmd = s.busCmd ∨ (s.busCmd = .refused ∧ s'.busCmd = .none)

namespace CycleAlike
variable {s s' : State} (h : CycleAlike s s')
include h

/-! #### The registers that agree -/

theorem engine (e : EngineId) : s'.engine e = s.engine e := by rw [h.state]; rfl
theorem params : s'.params = s.params := by rw [h.state]
theorem edge (b : Bank) : s'.edge b = s.edge b := by rw [h.state]; rfl
theorem flags : s'.flags = s.flags := by rw [h.state]
theorem lut : s'.lut = s.lut := by rw [h.state]
theorem lutAt (k : BitVec 5) : s'.lutAt k = s.lutAt k := by rw [h.state]; rfl
theorem gen : s'.gen = s.gen := by rw [h.state]
theorem player (g : SyncGen) : s'.player g = s.player g := by rw [h.state]; rfl
theorem cap_sel : s'.cap.sel = s.cap.sel := by rw [h.state]
theorem cap_x : s'.cap.x = s.cap.x := by rw [h.state]
theorem cap_buf : s'.cap.buf = s.cap.buf := by rw [h.state]
theorem cap_ptr : s'.cap.ptr = s.cap.ptr := by rw [h.state]
theorem cap_wdOn : s'.cap.wdOn = s.cap.wdOn := by rw [h.state]
theorem cap_wdCtr : s'.cap.wdCtr = s.cap.wdCtr := by rw [h.state]
theorem cap_frames : s'.cap.frames = s.cap.frames := by rw [h.state]
theorem cap_meas : s'.cap.meas = s.cap.meas := by rw [h.state]
theorem cap_measCtr : s'.cap.measCtr = s.cap.measCtr := by rw [h.state]

/-! #### The command, as each agent sees it -/

/-- What reads the command of the cycle, and takes a refusal for no access, reads the same. -/
theorem of_cmd {α : Type} (f : BusCmd → α) (hf : f .refused = f .none) : f s'.busCmd = f s.busCmd := by
  rcases h.cmd with hc | ⟨hc, hc'⟩
  · rw [hc]
  · rw [hc, hc', hf]

theorem cmd_iff {c : BusCmd} (hn : c ≠ .none) (hr : c ≠ .refused) :
    s'.busCmd = c ↔ s.busCmd = c := by
  rcases h.cmd with hc | ⟨hc, hc'⟩
  · rw [hc]
  · rw [hc, hc']
    exact ⟨fun he => absurd he.symm hn, fun he => absurd he.symm hr⟩

theorem capRecovery : s'.capRecovery = s.capRecovery := by simp only [State.capRecovery, h.engine]
theorem genRecovery : s'.genRecovery = s.genRecovery := by simp only [State.genRecovery, h.engine]

theorem flushed (e : EngineId) : s'.flushed e = s.flushed e := by
  simp only [State.flushed, h.of_cmd (·.flushes e) rfl, h.capRecovery, h.genRecovery]

theorem startsEngine (e : EngineId) : s'.startsEngine e = s.startsEngine e := by
  simp only [State.startsEngine, h.of_cmd (·.starts e) rfl, h.engine]

theorem restartsEngine (e : EngineId) : s'.restartsEngine e = s.restartsEngine e := by
  simp only [State.restartsEngine, h.of_cmd (·.restarts e) rfl, h.startsEngine, h.capRecovery,
    h.genRecovery]

theorem activity (e : EngineId) : s'.activity e = s.activity e := by
  simp only [State.activity, h.restartsEngine, h.engine]

theorem clearsRx (e : EngineId) : s'.clearsRx e = s.clearsRx e := by
  simp only [State.clearsRx, h.of_cmd (·.clearsRx e) rfl, h.capRecovery]

theorem clearsTx (e : EngineId) : s'.clearsTx e = s.clearsTx e := by
  simp only [State.clearsTx, h.of_cmd (·.clearsTx e) rfl, h.genRecovery]

/-! #### The capture mover and the watchdog -/

theorem moverWord : s'.moverWord = s.moverWord := by
  simp only [State.moverWord, h.engine, h.capRecovery, h.cap_x, h.flushed]

theorem moverActs : s'.moverActs = s.moverActs := by simp only [State.moverActs, h.moverWord]

theorem frameWords : s'.frameWords = s.frameWords := by
  simp only [State.frameWords, h.lutAt, h.params]

theorem capBoundary : s'.capBoundary = s.capBoundary := by
  simp only [State.capBoundary, h.moverActs, h.frameWords, h.cap_ptr]

theorem armed : s'.armed = s.armed := by
  simp only [State.armed, h.cmd_iff (c := .arm) (by simp) (by simp)]

theorem watchdogLoad : s'.watchdogLoad = s.watchdogLoad := by
  simp only [State.watchdogLoad, h.armed, h.lutAt, h.moverActs, h.capBoundary, h.cap_ptr]

theorem watchdogCounts : s'.watchdogCounts = s.watchdogCounts := by
  simp only [State.watchdogCounts, h.cap_x, h.cap_wdOn, h.watchdogLoad, h.capBoundary, h.capRecovery]

theorem watchdogTimeout : s'.watchdogTimeout = s.watchdogTimeout := by
  simp only [State.watchdogTimeout, h.watchdogCounts, h.cap_wdCtr]

theorem nextCx : s'.nextCx = s.nextCx := by
  simp only [State.nextCx, h.capRecovery, h.cap_x, h.armed,
    h.cmd_iff (c := .capTake) (by simp) (by simp), h.capBoundary]

theorem nextWptr : s'.nextWptr = s.nextWptr := by
  simp only [State.nextWptr, h.capRecovery, h.armed, h.moverActs, h.capBoundary, h.cap_ptr]

theorem nextWdOn : s'.nextWdOn = s.nextWdOn := by
  simp only [State.nextWdOn, h.capRecovery, h.capBoundary, h.watchdogLoad, h.cap_wdOn]

theorem nextWdCtr : s'.nextWdCtr = s.nextWdCtr := by
  simp only [State.nextWdCtr, h.watchdogLoad, h.cap_wdCtr, h.watchdogCounts, h.watchdogTimeout]

/-- The capture side goes on alike, but for the content of its banks. -/
theorem nextCapture : s'.nextCapture = { s.nextCapture with
    bank0 := s'.nextCapture.bank0, bank1 := s'.nextCapture.bank1 } := by
  simp only [State.nextCapture, h.capBoundary, h.cap_sel, h.nextCx, h.armed, h.cap_buf, h.nextWptr,
    h.nextWdOn, h.nextWdCtr, h.cap_frames, h.cap_meas, h.cap_measCtr]

/-- A bank with the same content has the same content after the cycle. -/
theorem nextCapture_bank {b : Bool} (hb : s'.cap.bank b = s.cap.bank b) :
    s'.nextCapture.bank b = s.nextCapture.bank b := by
  simp only [Machine.nextCapture_bank, moverWrites_bank, h.moverWord, h.cap_sel, h.cap_ptr, hb]

/-- Where the banks have the same content, the capture side goes on the same. -/
theorem nextCapture_of_banks (hb : ∀ b, s'.cap.bank b = s.cap.bank b) :
    s'.nextCapture = s.nextCapture := by
  have h0 : s'.nextCapture.bank0 = s.nextCapture.bank0 := h.nextCapture_bank (hb false)
  have h1 : s'.nextCapture.bank1 = s.nextCapture.bank1 := h.nextCapture_bank (hb true)
  rw [h.nextCapture, h0, h1]

/-! #### The generation side and the players -/

theorem feederWord : s'.feederWord = s.feederWord := by
  simp only [State.feederWord, h.engine, h.genRecovery, h.gen, h.params, h.flushed, State.gbankWord]

theorem feederActs : s'.feederActs = s.feederActs := by simp only [State.feederActs, h.feederWord]

theorem genBoundary : s'.genBoundary = s.genBoundary := by
  simp only [State.genBoundary, h.feederActs, h.frameWords, h.gen]

theorem genSwap : s'.genSwap = s.genSwap := by simp only [State.genSwap, h.genBoundary, h.gen]

theorem nextGx : s'.nextGx = s.nextGx := by
  simp only [State.nextGx, h.cmd_iff (c := .commitFrame) (by simp) (by simp),
    h.cmd_iff (c := .genTake) (by simp) (by simp), h.genSwap, h.gen]

theorem enablesFeeder : s'.enablesFeeder = s.enablesFeeder := by
  rcases h.cmd with hc | ⟨hc, hc'⟩ <;> simp only [State.enablesFeeder, h.gen, *]

theorem nextRptr : s'.nextRptr = s.nextRptr := by
  simp only [State.nextRptr, h.genRecovery, h.enablesFeeder, h.genBoundary, h.feederActs, h.gen]

theorem windowWrites : s'.windowWrites = s.windowWrites := by
  rcases h.cmd with hc | ⟨hc, hc'⟩ <;> simp only [State.windowWrites, h.gen, *]

theorem nextFeedEn : s'.nextFeedEn = s.nextFeedEn := by
  rcases h.cmd with hc | ⟨hc, hc'⟩ <;> simp only [State.nextFeedEn, h.gen, *]

theorem nextSingle : s'.nextSingle = s.nextSingle := by
  rcases h.cmd with hc | ⟨hc, hc'⟩ <;> simp only [State.nextSingle, h.gen, *]

theorem nextGeneration : s'.nextGeneration = s.nextGeneration := by
  simp only [State.nextGeneration, h.windowWrites, h.nextFeedEn, h.nextSingle, h.genSwap, h.gen,
    h.nextGx, h.nextRptr, h.cmd_iff (c := .commitFrame) (by simp) (by simp), h.genBoundary]

theorem playerWord (g : SyncGen) : s'.playerWord g = s.playerWord g := by
  simp only [State.playerWord, h.engine, h.player, h.params, h.of_cmd (·.controls g) rfl, h.flushed,
    State.ltWord]

theorem advancedPlayer (g : SyncGen) : s'.advancedPlayer g = s.advancedPlayer g := by
  simp only [advancedPlayer_form, h.player, h.playerWord]

theorem nextPlayer (g : SyncGen) : s'.nextPlayer g = s.nextPlayer g := by
  rcases h.cmd with hc | ⟨hc, hc'⟩ <;> simp only [State.nextPlayer, h.advancedPlayer, h.player, *]

/-! #### The engines -/

theorem sameView (e : EngineId) : SameView e s s' :=
  ⟨h.engine e, h.params, h.pins, h.edge, h.flags, h.lut⟩

/-- R8: a word reads its view alone, so every engine takes the same turn. -/
theorem turn (e : EngineId) : s'.turn exec e = s.turn exec e := by
  simp only [State.turn, h.activity, h.engine]
  cases s.activity e with
  | restarted => rfl
  | stopped => rfl
  | delaying => rfl
  | evaluating =>
    cases hd : decode (fetch (s.engine e)) with
    | illegal f =>
      simp only [evaluateFetched, h.engine, hd]
      rw [raiseFault_eq, raiseFault_eq]
      simp only [engine_faultedBy, h.engine]
      rfl
    | legal i =>
      obtain ⟨u, v, hu, hv, heng, hreq⟩ := execDependsOnlyOnItsView i s s' e (h.sameView e)
      rw [evaluateFetched_legal hd, evaluateFetched_legal ((h.engine e).symm ▸ hd), hu, hv]
      simp only [heng, hreq]

theorem turns : s'.turns exec = s.turns exec := by simp only [State.turns, h.turn]

theorem agentPops (e : EngineId) : s'.agentPops e = s.agentPops e := by
  cases e <;> simp only [State.agentPops, h.moverActs]

theorem agentPush (e : EngineId) : s'.agentPush e = s.agentPush e := by
  cases e <;> simp only [State.agentPush, h.feederWord, h.playerWord]

theorem nextEngine (e : EngineId) (r : Turn) : s'.nextEngine e r = s.nextEngine e r := by
  simp only [State.nextEngine, h.of_cmd (·.nextProg e (s.engine e).prog) rfl,
    h.of_cmd (·.nextConfig e (s.engine e).config) rfl, h.of_cmd (·.pops e) rfl,
    h.of_cmd (·.pushes e) rfl, h.engine, h.startsEngine, h.watchdogTimeout, h.clearsRx, h.clearsTx,
    h.flushed, h.agentPops, h.agentPush]

/-! #### The cycle -/

theorem bankFault : s'.bankFault = s.bankFault := by
  simp only [State.bankFault, h.moverActs, h.feederActs, h.params, h.cap_ptr, h.gen]

/-- The merge leaves alike what it left alike: the stimulus, the bus and the capture banks apart. -/
theorem merge (ts : Turns) : s'.merge ts = { s.merge ts with
    stim := s'.stim.tail
    busData := s'.busReadData
    busErr := (s'.merge ts).busErr
    cap := s'.nextCapture } := by
  have hedge : ∀ b, s'.edgeNext b = s.edgeNext b := fun b => by simp only [State.edgeNext, h.pins]
  have herr : s'.nextErr = s.nextErr := by
    simp only [State.nextErr, h.genRecovery, h.capRecovery]; rw [h.state]
  simp only [State.merge, hedge, herr, h.of_cmd (·.nextLut s.lut) rfl,
    h.of_cmd (·.eventClears) rfl, h.nextEngine, h.nextGeneration, h.nextPlayer, h.capRecovery,
    h.genRecovery, h.flags, h.lut]
  rw [h.state]

/-- R8, R58: the cycle goes on in both states or in none. -/
theorem steps {ts : Turns} (hrst : s.input.rst = false) (hts : s.turns exec = .next ts)
    (hb : s.bankFault = none) : Steps s' (s'.merge ts) :=
  steps_merge (h.rst.trans hrst) (h.turns.trans hts) (h.bankFault.trans hb)

end CycleAlike

/-! ### The capture bank in flight (O47) -/

/-- The settled bank is not the one in flight. -/
theorem withInFlight_settled (s : State) (m : Memory) :
    (s.withInFlight m).cap.bank (!s.cap.sel) = s.cap.bank (!s.cap.sel) := by
  cases hsel : s.cap.sel <;> simp [State.withInFlight, CaptureSide.bank, hsel]

/-- R68, R77: a read reaches the settled capture bank alone. -/
theorem readTarget_withInFlight (s : State) (m : Memory) (tg : BusTarget) :
    (s.withInFlight m).readTarget tg = s.readTarget tg := by
  cases tg with
  | capWindow i =>
    exact congrArg (fun bank => some (Memory.readWord (.cbank (!s.cap.sel)) bank i))
      (withInFlight_settled s m)
  | _ => rfl

theorem writeTarget_withInFlight (s : State) (m : Memory) (d : Word) (tg : BusTarget) :
    (s.withInFlight m).writeTarget d tg = s.writeTarget d tg := rfl

theorem busCmd_withInFlight (s : State) (m : Memory) :
    (s.withInFlight m).busCmd = s.busCmd := by
  simp only [State.busCmd, readTarget_withInFlight, writeTarget_withInFlight]
  rfl

theorem busReadData_withInFlight (s : State) (m : Memory) :
    (s.withInFlight m).busReadData = s.busReadData := by
  simp only [State.busReadData, readTarget_withInFlight]
  rfl

theorem cycleAlike_withInFlight (s : State) (m : Memory) : CycleAlike s (s.withInFlight m) where
  state := rfl
  rst := rfl
  pins _ := ⟨rfl, rfl, rfl⟩
  cmd := .inl (busCmd_withInFlight s m)

/-- Capture sides that differ in their banks alone, and agree on bank `!b`, are the same but for
bank `b`. -/
theorem sameButBank_of {b : Bool} {c d : CaptureSide}
    (hd : d = { c with bank0 := d.bank0, bank1 := d.bank1 }) (hb : d.bank (!b) = c.bank (!b)) :
    SameButBank b c d := by
  cases b
  · have h1 : d.bank1 = c.bank1 := hb
    simpa [SameButBank, h1] using hd
  · have h0 : d.bank0 = c.bank0 := hb
    simpa [SameButBank, h0] using hd

/-- A cycle with `rst` keeps both banks (R59). -/
theorem resetCycle_withInFlight (s : State) (m : Memory) :
    (s.withInFlight m).resetCycle = { s.resetCycle with cap := (s.withInFlight m).resetCycle.cap } := by
  simp only [State.resetCycle, busReadData_withInFlight]
  rfl

/-- Settles O47: no agent reads a capture bank and a read reaches the settled one alone, so that the
cycles are alike, and the bank in flight is the only one whose content can differ after them. -/
theorem inFlightCaptureIsHidden : Obligations.InFlightCaptureIsHidden := by
  intro s t m hstep
  have hbus := busReadData_withInFlight s m
  refine ⟨hbus, ?_⟩
  rcases steps_cases hstep with ⟨hrst, rfl⟩ | ⟨ts, hrst, hfault, hts, rfl⟩
  · exact ⟨_, steps_reset hrst, sameButBank_of rfl (withInFlight_settled s m),
      resetCycle_withInFlight s m⟩
  · have h := cycleAlike_withInFlight s m
    refine ⟨_, h.steps hrst hts hfault,
      sameButBank_of h.nextCapture (h.nextCapture_bank (withInFlight_settled s m)), ?_⟩
    have hmerge := h.merge ts
    rw [merge_busErr, busCmd_withInFlight, hbus] at hmerge
    exact hmerge

/-! ### A refused access (O32) -/

section withoutHost
variable {s : State} {i : Input} {rest : List Input} (hstim : s.stim = i :: rest)
include hstim

theorem input_of_stim : s.input = i := by simp only [State.input, hstim]

theorem cycleAlike_withoutHost (hc : s.busCmd = .refused) :
    CycleAlike s (s.withoutHost i rest) where
  state := rfl
  rst := by rw [input_of_stim hstim]; rfl
  pins b := by rw [input_of_stim hstim]; cases b <;> exact ⟨rfl, rfl, rfl⟩
  cmd := .inr ⟨hc, busCmd_idle rfl⟩

end withoutHost

/-- R66: a refused read returns 0. -/
theorem busReadData_of_refused {s : State} {a : Addr} (ha : s.input.host = .read a)
    (hc : s.busCmd = .refused) : s.busReadData = some 0 := by
  cases ht : decodeAddr s.params a with
  | none => simp [State.busReadData, ha, ht]
  | some tg =>
    cases hr : s.readTarget tg with
    | none => simp [State.busReadData, ha, ht, hr]
    | some w =>
      rw [busCmd_read ha ht hr] at hc
      cases tg <;> cases hc

/-- R66: the cycle of a refused access is the cycle without it, but for `bus_err` and what the bus
returns. -/
theorem steps_of_refused {s t : State} {i : Input} {rest : List Input} (hstim : s.stim = i :: rest)
    (hrst : i.rst = false) (hc : s.busCmd = .refused) (hstep : Steps (s.withoutHost i rest) t) :
    Steps s { t with busErr := true, busData := s.busReadData } := by
  have h := cycleAlike_withoutHost hstim hc
  have hrst' : s.input.rst = false := by rw [input_of_stim hstim, hrst]
  obtain ⟨ts, hfault, hts, rfl⟩ := steps_cases_merge hstep hrst
  have hmerge : s.merge ts =
      { (s.withoutHost i rest).merge ts with busErr := true, busData := s.busReadData } := by
    have herr : (s.merge ts).busErr = true := by simp [hc, resolveSticky]
    rw [h.merge ts, h.nextCapture_of_banks fun _ => rfl, ← herr]
    simp only [State.merge, State.withoutHost, hstim, List.tail_cons]
  rw [← hmerge]
  exact steps_merge hrst' (h.turns.symm.trans hts) (h.bankFault.symm.trans hfault)

/-- Settles O32: `steps_of_refused`, with what the bus returns in the cycle. -/
theorem refusedAccessOnlySetsBusErr : Obligations.RefusedAccessOnlySetsBusErr := by
  intro s t i rest hstim hrst hc hstep
  have hs := steps_of_refused hstim hrst hc hstep
  have hin := input_of_stim hstim
  refine ⟨fun a d ha => ?_, fun a ha => ?_⟩
  · have hidle : t.busData = s.busReadData := by
      obtain ⟨ts, _, _, rfl⟩ := steps_cases_merge hstep hrst
      simp [State.busReadData, State.withoutHost, State.input, hstim, ha]
    rw [← hidle] at hs
    exact hs
  · rw [busReadData_of_refused (by rw [hin, ha]) hc] at hs
    exact hs

/-! ### Addresses and the writes that a command comes from -/

theorem bankWords_le {p : Params} (h : p.wf = true) : p.bankWords ≤ 8192 := by
  simp only [Params.wf, Bool.and_eq_true, decide_eq_true_eq] at h
  exact h.2

theorem engineIndex_lt (e : EngineId) : e.index < 4 := by cases e <;> decide

theorem engineAddr_toNat {e : EngineId} {off : Nat} (h : off < 0x40) :
    (engineAddr e off).toNat = 0x100 + 0x40 * e.index + off := by
  have := engineIndex_lt e
  rw [engineAddr, BitVec.toNat_ofNat, Nat.mod_eq_of_lt (by omega)]

theorem decodeAddr_inv_prog {p : Params} {a : Addr} {e : EngineId} {k : Slot}
    (h : decodeAddr p a = some (.prog e k)) : a = engineAddr e k.toNat := by
  have hk := k.isLt
  apply BitVec.eq_of_toNat_eq
  rw [decodeAddr_inv h, engineAddr_toNat (by omega)]
  rfl

theorem decodeAddr_inv_config {p : Params} {a : Addr} {e : EngineId}
    (h : decodeAddr p a = some (.config e)) : a = engineAddr e 0x22 := by
  apply BitVec.eq_of_toNat_eq
  rw [decodeAddr_inv h, engineAddr_toNat (by decide)]
  rfl

theorem decodeAddr_inv_gstat {p : Params} {a : Addr} (h : decodeAddr p a = some .gstat) :
    a = 0x0022 :=
  BitVec.eq_of_toNat_eq (decodeAddr_inv h)

/-- R73: what the generation window names is a word of the bank. -/
theorem decodeAddr_inv_genWindow {p : Params} {a : Addr} {i : Nat}
    (h : decodeAddr p a = some (.genWindow i)) :
    i < p.bankWords ∧ a = BitVec.ofNat 16 (0x4000 + i) := by
  have hn : a.toNat = 0x4000 + i := decodeAddr_inv h
  have ha := a.isLt
  refine ⟨?_, BitVec.eq_of_toNat_eq (by rw [BitVec.toNat_ofNat, Nat.mod_eq_of_lt (by omega), hn])⟩
  simp only [decodeAddr, hn] at h
  rw [if_neg (by omega), if_neg (by omega), if_neg (by omega), if_neg (by omega)] at h
  split_ifs at h with h5 h6
  · cases h
  · omega

theorem busCmd_lut {s : State} {k : BitVec 5} {d : Word} (h : s.busCmd = .lut k d) :
    s.input.host = .write (BitVec.ofNat 16 k.toNat) d := by
  obtain ⟨a, d', tg, ha, htg, hw⟩ := busCmd_accepted h (by simp) (by simp) (by simp)
  obtain ⟨rfl, rfl⟩ := hw.lut _ _ rfl
  rw [ha, decodeAddr_inv_lut htg]

theorem busCmd_prog {s : State} {e : EngineId} {k : Slot} {w : OpWord}
    (h : s.busCmd = .prog e k w) : ∃ d, s.input.host = .write (engineAddr e k.toNat) d := by
  obtain ⟨a, d, tg, ha, htg, hw⟩ := busCmd_accepted h (by simp) (by simp) (by simp)
  obtain ⟨rfl, _⟩ := hw.prog _ _ _ rfl
  exact ⟨d, by rw [ha, decodeAddr_inv_prog htg]⟩

theorem busCmd_config {s : State} {e : EngineId} {g : EngineConfig}
    (h : s.busCmd = .config e g) : ∃ d, s.input.host = .write (engineAddr e 0x22) d := by
  obtain ⟨a, d, tg, ha, htg, hw⟩ := busCmd_accepted h (by simp) (by simp) (by simp)
  obtain ⟨rfl, _⟩ := hw.config _ _ rfl
  exact ⟨d, by rw [ha, decodeAddr_inv_config htg]⟩

theorem busCmd_genWindow {s : State} {i : Nat} {d : Word} (h : s.busCmd = .genWindow i d) :
    i < s.params.bankWords ∧ s.input.host = .write (BitVec.ofNat 16 (0x4000 + i)) d := by
  obtain ⟨a, d', tg, ha, htg, hw⟩ := busCmd_accepted h (by simp) (by simp) (by simp)
  obtain ⟨rfl, rfl, _⟩ := hw.genWindow _ _ rfl
  obtain ⟨hi, rfl⟩ := decodeAddr_inv_genWindow htg
  exact ⟨hi, ha⟩

theorem busCmd_clearEvents {s : State} {a b c : Bool} (h : s.busCmd = .clearEvents a b c) :
    ∃ d, s.input.host = .write 0x0022 d := by
  obtain ⟨addr, d, tg, ha, htg, hw⟩ := busCmd_accepted h (by simp) (by simp) (by simp)
  obtain rfl := hw.clearEvents _ _ _ rfl
  exact ⟨d, by rw [ha, decodeAddr_inv_gstat htg]⟩

/-! ### What a command writes, and that no other does -/

theorem nextLut_cases (c : BusCmd) (l : Vector Word 32) :
    c.nextLut l = l ∨ ∃ k d, c = .lut k d := by
  cases c
  case lut k d => exact .inr ⟨k, d, rfl⟩
  all_goals exact .inl rfl

theorem nextProg_cases (c : BusCmd) (e : EngineId) (p : Vector OpWord 32) :
    c.nextProg e p = p ∨ ∃ k w, c = .prog e k w := by
  cases c
  case prog e' k w =>
    by_cases he : e' = e
    · exact .inr ⟨k, w, by rw [he]⟩
    · exact .inl (if_neg he)
  all_goals exact .inl rfl

theorem nextConfig_cases (c : BusCmd) (e : EngineId) (g : EngineConfig) :
    c.nextConfig e g = g ∨ ∃ g', c = .config e g' := by
  cases c
  case config e' g' =>
    by_cases he : e' = e
    · exact .inr ⟨g', by rw [he]⟩
    · exact .inl (if_neg he)
  all_goals exact .inl rfl

theorem eventClears_cases (c : BusCmd) :
    c.eventClears = (false, false, false) ∨ ∃ x y z, c = .clearEvents x y z := by
  cases c
  case clearEvents x y z => exact .inr ⟨x, y, z, rfl⟩
  all_goals exact .inl rfl

/-- R41: a command that neither is refused nor clears events leaves `bus_err`. -/
theorem merge_busErr_of_quiet {s : State} {ts : Turns} (hc : s.busCmd ≠ .refused)
    (he : s.busCmd.eventClears = (false, false, false)) : (s.merge ts).busErr = s.busErr := by
  simp [hc, he, resolveSticky]

/-! ### The LUT (O33) -/

/-- Settles O33: the write asks for its entry, and only such a write asks for one. -/
theorem lutWrittenByHost : Obligations.LutWrittenByHost := by
  intro s t hrst hstep
  obtain ⟨ts, _, _, rfl⟩ := steps_cases_merge hstep hrst
  refine ⟨fun k d ha => ?_, fun hno => ?_⟩
  · have hc : s.busCmd = .lut k d := busCmd_write ha (decodeAddr_lut _ k)
    refine ⟨by simp [State.lutAt, hc, BusCmd.nextLut], fun j hj => ?_⟩
    have hne : k.toNat ≠ j.toNat := fun he => hj (BitVec.eq_of_toNat_eq he.symm)
    simp [State.lutAt, hc, BusCmd.nextLut, Vector.getElem_set_ne _ _ hne]
  · rcases nextLut_cases s.busCmd s.lut with hl | ⟨k, d, hc⟩
    · exact hl
    · exact absurd (busCmd_lut hc) (hno k d)

/-! ### The program memories (O34) -/

/-- Settles O34: a write of a slot is refused or asks for that slot, and only such a write asks for
one. -/
theorem programWrittenByHost : Obligations.ProgramWrittenByHost := by
  intro s t e hrst hstep
  obtain ⟨ts, _, _, rfl⟩ := steps_cases_merge hstep hrst
  rw [merge_engine, nextEngine_prog]
  refine ⟨fun k d ha => ?_, fun hno => ?_⟩
  · have hw : s.busCmd = s.writeTarget d (.prog e k) := busCmd_write ha (decodeAddr_prog _ e k)
    refine ⟨fun hrun => ?_, fun hrun => ?_⟩
    · have hc : s.busCmd = .refused := by simp [hw, State.writeTarget, hrun]
      exact ⟨hc, by rw [hc]; rfl⟩
    · have hc : s.busCmd = .prog e k (d.extractLsb' 0 16) := by simp [hw, State.writeTarget, hrun]
      exact ⟨by simp [hc, BusCmd.nextProg], merge_busErr_of_quiet (by simp [hc]) (by rw [hc]; rfl)⟩
  · rcases nextProg_cases s.busCmd e (s.engine e).prog with hp | ⟨k, w, hc⟩
    · exact hp
    · obtain ⟨d, ha⟩ := busCmd_prog hc
      exact absurd ha (hno k d)

/-! ### The configuration registers (O35) -/

/-- R104: a word with `side_sel` 3 is not legal. -/
theorem ofWord_of_three {d : Word} (h : d.extractLsb' 2 2 = 3) : EngineConfig.ofWord d = none := by
  simp [EngineConfig.ofWord, h]

/-- R104: the fields of the five low bits of a word, with the side selection of its code. -/
theorem configFields_lowFive {d : Word} {sel : SideSel}
    (h0 : sel = .none → d.extractLsb' 2 2 = 0) (h1 : sel = .hsync → d.extractLsb' 2 2 = 1)
    (h2 : sel = .vsync → d.extractLsb' 2 2 = 2) :
    ConfigFields
      { dir := if d.getLsbD 0 then .tx else .rx, bank := if d.getLsbD 1 then .gen else .cap,
        sideSel := sel, pixDrv := d.getLsbD 4 } (d &&& 0x1F) := by
  have hsel : (d &&& 0x1F).extractLsb' 2 2 = d.extractLsb' 2 2 := by
    rw [BitVec.extractLsb'_and]
    exact BitVec.and_allOnes
  have hzero : (d &&& 0x1F).extractLsb' 5 27 = 0 := by
    rw [BitVec.extractLsb'_and]
    exact BitVec.and_zero
  exact ⟨by simp, by simp, fun h => hsel.trans (h0 h), fun h => hsel.trans (h1 h),
    fun h => hsel.trans (h2 h), by simp, hzero⟩

/-- R104: any word without `side_sel` 3 is legal, and gives `CONFIG` its five low bits. -/
theorem ofWord_fields {d : Word} (h : d.extractLsb' 2 2 ≠ 3) :
    ∃ g, EngineConfig.ofWord d = some g ∧ ConfigFields g (d &&& 0x1F) := by
  have hcodes : ∀ b : BitVec 2, b ≠ 0 → b ≠ 1 → b ≠ 3 → b = 2 := by decide
  by_cases h0 : d.extractLsb' 2 2 = 0
  · exact ⟨_, if_pos h0, configFields_lowFive (fun _ => h0) nofun nofun⟩
  by_cases h1 : d.extractLsb' 2 2 = 1
  · exact ⟨_, (if_neg h0).trans (if_pos h1), configFields_lowFive nofun (fun _ => h1) nofun⟩
  · have h2 := hcodes _ h0 h1 h
    exact ⟨_, (if_neg h0).trans ((if_neg h1).trans (if_pos h2)),
      configFields_lowFive nofun nofun (fun _ => h2)⟩

/-- Settles O35: a write of `CONFIG` is refused or asks for the fields of its word, and only such a
write asks for them. -/
theorem configWrittenByHost : Obligations.ConfigWrittenByHost := by
  intro s t e hrst hstep
  obtain ⟨ts, _, _, rfl⟩ := steps_cases_merge hstep hrst
  rw [merge_engine, nextEngine_config]
  refine ⟨fun d ha => ?_, fun hno => ?_⟩
  · have hw : s.busCmd = s.writeTarget d (.config e) := busCmd_write ha (decodeAddr_config _ e)
    refine ⟨fun hbad => ?_, fun hrun hsel => ?_⟩
    · have hc : s.busCmd = .refused := by
        rcases hbad with hrun | hsel
        · simp [hw, State.writeTarget, hrun]
        · simp [hw, State.writeTarget, ofWord_of_three hsel]
      exact ⟨hc, by rw [hc]; rfl⟩
    · obtain ⟨g, hg, hfields⟩ := ofWord_fields hsel
      have hc : s.busCmd = .config e g := by simp [hw, State.writeTarget, hrun, hg]
      refine ⟨?_, merge_busErr_of_quiet (by simp [hc]) (by rw [hc]; rfl)⟩
      have hnext : s.busCmd.nextConfig e (s.engine e).config = g := by simp [hc, BusCmd.nextConfig]
      rw [hnext]
      exact hfields
  · rcases nextConfig_cases s.busCmd e (s.engine e).config with hp | ⟨g, hc⟩
    · exact hp
    · obtain ⟨d, ha⟩ := busCmd_config hc
      exact absurd ha (hno d)

/-! ### The address map (O31) -/

theorem decodeGlobal_isSome_iff {n : Nat} (h : n < 0x100) :
    (decodeGlobal n).isSome = true ↔
      n ≤ 0x24 ∨ (0x28 ≤ n ∧ n ≤ 0x2C) ∨ (0x30 ≤ n ∧ n ≤ 0x34) := by
  have all : ∀ n < 0x100, ((decodeGlobal n).isSome = true ↔
      n ≤ 0x24 ∨ (0x28 ≤ n ∧ n ≤ 0x2C) ∨ (0x30 ≤ n ∧ n ≤ 0x34)) := by decide +kernel
  exact all n h

theorem decodeEngineOffset_isSome_iff (e : EngineId) (off : Nat) :
    (decodeEngineOffset e off).isSome = true ↔ off ≤ 0x27 := by
  unfold decodeEngineOffset
  split_ifs <;> simp only [Option.isSome_some, Option.isSome_none, Bool.false_eq_true, true_iff,
    false_iff] <;> omega

theorem decodeTableOffset_isSome_iff (g : SyncGen) (off : Nat) :
    (decodeTableOffset g off).isSome = true ↔ off ≤ 0x10 := by
  unfold decodeTableOffset
  split_ifs <;> simp only [Option.isSome_some, Option.isSome_none, Bool.false_eq_true, true_iff,
    false_iff] <;> omega

/-- R72, R73: the addresses of the map. -/
theorem decodeAddr_isSome_iff {p : Params} (hp : p.bankWords ≤ 8192) (a : Addr) :
    (decodeAddr p a).isSome = true ↔ mapped p a.toNat := by
  simp only [decodeAddr, mapped]
  split_ifs with hglobal
  · rw [decodeGlobal_isSome_iff hglobal]; omega
  · rw [decodeEngineOffset_isSome_iff]; omega
  · rw [decodeTableOffset_isSome_iff]; omega
  · rw [decodeTableOffset_isSome_iff]; omega
  · simp only [Option.isSome_some, true_iff]; omega
  · simp only [Option.isSome_some, true_iff]; omega
  · simp only [Option.isSome_none, Bool.false_eq_true, false_iff]; omega

/-- R66, R73: an access to an address that is not mapped is refused. -/
theorem busCmd_unmapped {s : State} {a : Addr} (hn : decodeAddr s.params a = none)
    (ha : s.input.host = .read a ∨ ∃ d, s.input.host = .write a d) : s.busCmd = .refused := by
  rcases ha with ha | ⟨d, ha⟩ <;> simp [State.busCmd, ha, hn]

theorem readOnlyAddr_cases {p : Params} {a : Nat} (h : readOnlyAddr p a) :
    (0x20 ≤ a ∧ a ≤ 0x24 ∧ a ≠ 0x22) ∨ (0x29 ≤ a ∧ a ≤ 0x2C) ∨ (0x31 ≤ a ∧ a ≤ 0x33) ∨
    (0x100 ≤ a ∧ a < 0x200 ∧ (a % 0x40 = 0x21 ∨ 0x24 ≤ a % 0x40)) ∨
    (0x2000 ≤ a ∧ a < 0x2000 + p.bankWords) := by
  rcases h with h | h | h | h | h | h | ⟨e, h⟩ | h
  case inr.inr.inr.inr.inr.inr.inl =>
    have := engineIndex_lt e
    simp only at h
    omega
  all_goals omega

theorem writeOnlyAddr_cases {a : Nat} (h : writeOnlyAddr a) :
    a = 0x28 ∨ a = 0x30 ∨ (0x100 ≤ a ∧ a < 0x200 ∧ a % 0x40 = 0x20) := by
  rcases h with h | h | ⟨e, h⟩
  · exact .inl h
  · exact .inr (.inl h)
  · have := engineIndex_lt e
    omega

/-- R66: a write of a target whose address can only be read is refused. The targets that a write can
reach stand at other addresses. -/
theorem writeTarget_readOnly {p : Params} (hp : p.bankWords ≤ 8192) {tg : BusTarget}
    (h : readOnlyAddr p (targetAddr tg)) (s : State) (d : Word) : s.writeTarget d tg = .refused := by
  have hr := readOnlyAddr_cases h
  cases tg with
  | gstat | capXctrl | genXctrl | genXcfg | genWindow => simp only [targetAddr] at hr; omega
  | lut k => have := k.isLt; simp only [targetAddr] at hr; omega
  | prog e k => have := k.isLt; have := engineIndex_lt e; simp only [targetAddr] at hr; omega
  | ctrl e | config e | fifo e => have := engineIndex_lt e; simp only [targetAddr] at hr; omega
  | ltEntry g i => have := i.isLt; cases g <;> simp only [targetAddr, tableIndex] at hr <;> omega
  | ltCtrl g => cases g <;> simp only [targetAddr, tableIndex] at hr <;> omega
  | _ => rfl

/-- R66: a read of a target whose address can only be written is refused. -/
theorem readTarget_writeOnly {tg : BusTarget} (h : writeOnlyAddr (targetAddr tg)) (s : State) :
    s.readTarget tg = none := by
  have hw := writeOnlyAddr_cases h
  cases tg with
  | capXctrl | genXctrl | ctrl => rfl
  | lut k | prog e k => have := k.isLt; simp only [targetAddr] at hw; omega
  | ltEntry g | ltCtrl g => cases g <;> simp only [targetAddr, tableIndex] at hw <;> omega
  | _ => simp only [targetAddr] at hw; omega

/-- R66: an access against the direction of its address is refused. -/
theorem busCmd_of_direction {s : State} (hp : s.params.bankWords ≤ 8192) (a : Addr) :
    (readOnlyAddr s.params a.toNat → ∀ d, s.input.host = .write a d → s.busCmd = .refused) ∧
    (writeOnlyAddr a.toNat → s.input.host = .read a → s.busCmd = .refused) := by
  cases ht : decodeAddr s.params a with
  | none =>
    exact ⟨fun _ d ha => busCmd_unmapped ht (.inr ⟨d, ha⟩), fun _ ha => busCmd_unmapped ht (.inl ha)⟩
  | some tg =>
    rw [decodeAddr_inv ht]
    refine ⟨fun h d ha => ?_, fun h ha => ?_⟩
    · rw [busCmd_write ha ht, writeTarget_readOnly hp h]
    · simp [State.busCmd, ha, ht, readTarget_writeOnly h]

/-- The block of an engine (R64, R65). -/
theorem decodeAddr_engineBlock (p : Params) (e : EngineId) :
    (∀ k : BitVec 5, decodeAddr p (engineAddr e k.toNat) = some (.prog e k)) ∧
    decodeAddr p (engineAddr e 0x20) = some (.ctrl e) ∧
    decodeAddr p (engineAddr e 0x21) = some (.status e) ∧
    decodeAddr p (engineAddr e 0x22) = some (.config e) ∧
    decodeAddr p (engineAddr e 0x23) = some (.fifo e) ∧
    decodeAddr p (engineAddr e 0x24) = some (.regX e) ∧
    decodeAddr p (engineAddr e 0x25) = some (.regY e) ∧
    decodeAddr p (engineAddr e 0x26) = some (.regSr e) ∧
    decodeAddr p (engineAddr e 0x27) = some (.regRem e) :=
  ⟨decodeAddr_prog p e, decodeAddr_ctrl p e, decodeAddr_status p e, decodeAddr_config p e,
    decodeAddr_fifo p e, decodeAddr_engine p e 0x24 (by decide), decodeAddr_engine p e 0x25 (by decide),
    decodeAddr_engine p e 0x26 (by decide), decodeAddr_engine p e 0x27 (by decide)⟩

/-- Settles O31: the map is read off its definition block by block, an address outside it names
nothing, and an address inside it that is accessed against its direction names a target that refuses. -/
theorem addressMap : Obligations.AddressMap := by
  intro p hwf
  have hp := bankWords_le hwf
  refine ⟨decodeAddr_isSome_iff hp, decodeAddr_lut p, rfl, rfl, rfl, rfl, rfl, rfl, rfl, rfl, rfl, rfl,
    rfl, rfl, rfl, rfl, rfl, decodeAddr_engineBlock p,
    fun g => ⟨decodeAddr_ltEntry p g, decodeAddr_ltCtrl p g⟩,
    fun i hi => ⟨decodeAddr_capWindow p i hp hi, decodeAddr_genWindow p i hp hi⟩,
    fun s a hs hn => ?_, fun s a hs => ?_, ?_⟩
  · refine busCmd_unmapped ?_
    rw [hs, ← Option.not_isSome_iff_eq_none, decodeAddr_isSome_iff hp]
    exact hn
  · subst hs
    exact busCmd_of_direction hp a
  · simp only [mapped, Params.reference]
    omega

/-! ### The generation window (O38) -/

theorem generation_bank_of_window {s : State} {ts : Turns} {i : Nat} {d : Word}
    (hc : s.busCmd = .genWindow i d) (b : Bool) :
    (s.merge ts).gen.bank b =
      if b = s.gen.windowBank then Memory.writeWord (s.gen.bank b) i d else s.gen.bank b := by
  simp only [merge_gen, nextGeneration_bank, State.windowWrites, hc, generation_bank_writeWord]
  split
  · rename_i h; rw [h]
  · rfl

/-- R69: after a write through the window its word of the host's bank is the data, and no other byte of
the generation banks changed. -/
theorem window_written {s : State} {ts : Turns} {i : Nat} {d : Word}
    (hc : s.busCmd = .genWindow i d) :
    (s.merge ts).gbankWord s.gen.windowBank i = d ∧
    ∀ b a, ¬ (b = s.gen.windowBank ∧ inWord i a) →
      (s.merge ts).byteAt (.gbank b) a = s.byteAt (.gbank b) a := by
  refine ⟨?_, fun b a hout => ?_⟩
  · rw [State.gbankWord, generation_bank_of_window hc, if_pos rfl, readWord_writeWord]
  · simp only [State.byteAt, State.memory, generation_bank_of_window hc]
    split
    · rename_i hb
      exact readByte_writeWord_ne _ _ _ _ _ fun hin => hout ⟨hb, hin⟩
    · rfl

/-- Settles O38: a write through the window is refused or writes one word (`window_written`), and only
such a write writes a generation bank. -/
theorem generationWindowWrite : Obligations.GenerationWindowWrite := by
  intro s t hwf hrst hstep
  obtain ⟨ts, _, _, rfl⟩ := steps_cases_merge hstep hrst
  have hp := bankWords_le hwf
  refine ⟨fun i d hi ha => ?_, fun hno b a => ?_⟩
  · have hw : s.busCmd = s.writeTarget d (.genWindow i) :=
      busCmd_write ha (decodeAddr_genWindow _ i hp hi)
    refine ⟨fun hs hx => ?_, fun hs hx => ?_, fun hs => ?_⟩
    · simp [hw, State.writeTarget, GenSide.windowOpen, hs, hx]
    · have hbank : s.gen.windowBank = !s.gen.sel := by simp [GenSide.windowBank, hs]
      exact hbank ▸ window_written (by simp [hw, State.writeTarget, GenSide.windowOpen, hx])
    · have hbank : s.gen.windowBank = s.gen.sel := by simp [GenSide.windowBank, hs]
      exact hbank ▸ window_written (by simp [hw, State.writeTarget, GenSide.windowOpen, hs])
  · have hbank : (s.merge ts).gen.bank b = s.gen.bank b := by
      rw [merge_gen, nextGeneration_bank]
      rcases windowWrites_bank s b with hb | ⟨i, d, hc, _⟩
      · exact hb
      · obtain ⟨hi, ha⟩ := busCmd_genWindow hc
        exact absurd ha (hno i d hi)
    simp only [State.byteAt, State.memory, hbank]

/-! ### The packed form of pixels (O58) -/

/-- R28, R70: after the samples of `bits` the last of them stands in bit 0, and what was in the word
before stands above the first. -/
theorem getLsbD_foldl_shiftInto (bits : List Bool) (w : Word) {i : Nat} (hi : i < 32) :
    (bits.foldl shiftInto w).getLsbD i =
      if i < bits.length then bits.reverse[i]?.getD false else w.getLsbD (i - bits.length) := by
  induction bits using List.reverseRecOn generalizing i with
  | nil => simp
  | append_singleton bits b ih =>
    rw [List.foldl_append, List.foldl_cons, List.foldl_nil, shiftInto_eq, BitVec.getLsbD_append]
    cases i with
    | zero => simp
    | succ i =>
      have hi' : i < 31 := by omega
      simp [ih (show i < 32 by omega), hi']

/-- R70: pixel `i` of the packed form of 32 pixels stands in bit `31 - i`. -/
theorem getLsbD_packPixels {bits : List Bool} (h : bits.length = 32) {i : Nat} (hi : i < 32) :
    (packPixels bits).getLsbD i = bits[31 - i] := by
  have hfold : packPixels bits = bits.foldl shiftInto 0 := rfl
  rw [hfold, getLsbD_foldl_shiftInto bits 0 hi, if_pos (by omega),
    List.getElem?_reverse (by omega), List.getElem?_eq_getElem (by omega), Option.getD_some]
  congr 1
  omega

theorem length_unpackPixels (w : Word) : (unpackPixels w).length = 32 := by simp [unpackPixels]

theorem unpackPixels_packPixels {bits : List Bool} (h : bits.length = 32) :
    unpackPixels (packPixels bits) = bits := by
  refine List.ext_getElem (by rw [length_unpackPixels, h]) fun i h1 _ => ?_
  have hi : i < 32 := length_unpackPixels _ ▸ h1
  simp only [unpackPixels, List.getElem_map, List.getElem_range]
  rw [getLsbD_packPixels h (by omega)]
  congr 1
  omega

theorem packPixels_unpackPixels (w : Word) : packPixels (unpackPixels w) = w := by
  apply BitVec.eq_of_getLsbD_eq
  intro i hi
  rw [getLsbD_packPixels (length_unpackPixels w) hi]
  simp only [unpackPixels, List.getElem_map, List.getElem_range]
  congr 1
  omega

/-- R129, R140: the bit that `OUT` drives after `k` bits were shifted out. -/
theorem msb_shiftLeft_word (w : Word) {k : Nat} (hk : k < 32) :
    (w <<< k).msb = w.getLsbD (31 - k) := by
  rw [BitVec.msb_eq_getLsbD_last, BitVec.getLsbD_shiftLeft]
  simp [show ¬ 31 < k by omega]

/-- Settles O58: `IN` shifts as the frame format packs, and every bit of a packed word is the pixel of
its place. -/
theorem packerMatchesFrameFormat : Obligations.PackerMatchesFrameFormat :=
  ⟨fun _ h => ⟨rfl, unpackPixels_packPixels h⟩, fun w => ⟨packPixels_unpackPixels w,
    List.map_congr_left fun _ hk => msb_shiftLeft_word w (List.mem_range.1 hk)⟩⟩

/-! ### What the host clears (O30) -/

/-- R262: a sticky bit after a cycle. -/
theorem resolveSticky_iff (pre set clr : Bool) :
    resolveSticky pre set clr = true ↔ set = true ∨ (pre = true ∧ clr = false) := by
  cases pre <;> cases set <;> cases clr <;> decide

/-- The command of a write of `CTRL` (R103). -/
def ctrlCmd (e : EngineId) (d : Word) : BusCmd :=
  .ctrl e (d.getLsbD 0) (d.getLsbD 1) (d.getLsbD 2) (d.getLsbD 3) (d.getLsbD 4)

theorem busCmd_of_ctrl {s : State} {e : EngineId} {d : Word}
    (ha : s.input.host = .write (engineAddr e 0x20) d) : s.busCmd = ctrlCmd e d :=
  busCmd_write ha (decodeAddr_ctrl _ e)

section ctrl
variable {s : State} {ts : Turns} {e : EngineId} {d : Word} (hts : s.turns exec = .next ts)
  (hc : s.busCmd = ctrlCmd e d)
include hts hc

/-- R138, R244, R245: `rx_stall` after a write of `CTRL`. A recovery, which `rx_stall` of engine 0
causes, clears it as `CLR_RX_STALL` does. -/
theorem rxStall_of_ctrl : ((s.merge ts).engine e).rxStall = true ↔
    Overruns s e ∨ (e = .cap ∧ s.watchdogTimeout = true) ∨
      ((s.engine e).rxStall = true ∧ e ≠ .cap ∧ d.getLsbD 2 = false) := by
  rw [merge_engine, nextEngine_rxStall, resolveSticky_iff, Bool.or_eq_true,
    turn_rxAsked (turns_within hts e).1]
  have hclr : s.clearsRx e = (d.getLsbD 2 || (decide (e = .cap) && s.capRecovery)) := by
    simp [State.clearsRx, hc, ctrlCmd, BusCmd.clearsRx]
  rw [hclr]
  by_cases he : e = .cap
  · subst he
    cases hpre : (s.engine .cap).rxStall <;> simp [State.capRecovery, hpre]
  · simp [he]

/-- R138, R246: `tx_stall` after a write of `CTRL`. -/
theorem txStall_of_ctrl : ((s.merge ts).engine e).txStall = true ↔
    RunsDry s e ∨ ((s.engine e).txStall = true ∧ e ≠ .gen ∧ d.getLsbD 3 = false) := by
  rw [merge_engine, nextEngine_txStall, resolveSticky_iff, turn_txAsked (turns_within hts e).1]
  have hclr : s.clearsTx e = (d.getLsbD 3 || (decide (e = .gen) && s.genRecovery)) := by
    simp [State.clearsTx, hc, ctrlCmd, BusCmd.clearsTx]
  rw [hclr]
  by_cases he : e = .gen
  · subst he
    cases hpre : (s.engine .gen).txStall <;> simp [State.genRecovery, hpre]
  · simp [he]

end ctrl

/-- R262: a flush empties the FIFO, whatever the cycle pushes. -/
theorem fifo_of_flushed {s : State} {e : EngineId} {r : Turn} (h : s.flushed e = true) :
    (s.nextEngine e r).fifo = [] := by
  simp [nextEngine_fifo, h, nextFifo]

/-- R138: no agent moves a word of a FIFO that is flushed. -/
theorem agents_of_flushed {s : State} {e : EngineId} (h : s.flushed e = true) :
    (e = .cap → s.moverActs = false) ∧ (e = .gen → s.feederActs = false) ∧
    (∀ g, playerEngine g = e → s.playerWord g = none) := by
  refine ⟨?_, ?_, ?_⟩
  · rintro rfl; simp [State.moverActs, State.moverWord, h]
  · rintro rfl; simp [State.feederActs, State.feederWord, h]
  · rintro g rfl; simp [State.playerWord, h]

/-- R129, R138: what an engine's word left of the shift register stays. -/
theorem shiftRegister_of_evaluates {s u : State} {ts : Turns} {e : EngineId} {i : Instr}
    (hts : s.turns exec = .next ts) (hev : Evaluates s e i) (hu : exec i (s.focus e) = .next u) :
    ((s.merge ts).engine e).sr = (u.engine e).sr ∧
    ((s.merge ts).engine e).cnt = (u.engine e).cnt := by
  rw [merge_engine, nextEngine_sr, nextEngine_cnt, turns_get_of_turn hts (turn_of_evaluates hev hu)]
  exact ⟨rfl, rfl⟩

/-- Settles O30: the sticky bits of a merge are `resolveSticky`, of the clears that the command of the
cycle asks for. -/
theorem hostClears : Obligations.HostClears := by
  intro s t hrst hstep
  obtain ⟨ts, _, hts, rfl⟩ := steps_cases_merge hstep hrst
  refine ⟨fun e d ha => ?_, fun d ha => ?_, fun hno => ?_⟩
  · have hc := busCmd_of_ctrl ha
    refine ⟨by simp [hc, ctrlCmd], rxStall_of_ctrl hts hc, txStall_of_ctrl hts hc, fun hd => ?_⟩
    have hfl : s.flushed e = true := by simp [State.flushed, hc, ctrlCmd, BusCmd.flushes, hd]
    obtain ⟨hm, hf, hp⟩ := agents_of_flushed hfl
    exact ⟨by rw [merge_engine, fifo_of_flushed hfl], hm, hf, hp,
      fun i u => shiftRegister_of_evaluates hts⟩
  · have hc : s.busCmd = .clearEvents (d.getLsbD 0) (d.getLsbD 1) (d.getLsbD 2) :=
      busCmd_write ha (show decodeAddr s.params 0x0022 = some .gstat from rfl)
    refine ⟨by simp [hc], ?_, ?_, ?_⟩
    · simp [hc, BusCmd.eventClears, resolveSticky]
    · simp [hc, BusCmd.eventClears, resolveSticky, State.capRecovery]
    · simp [hc, BusCmd.eventClears, resolveSticky, State.genRecovery]
  · have hclr : s.busCmd.eventClears = (false, false, false) := by
      refine (eventClears_cases s.busCmd).resolve_right ?_
      rintro ⟨x, y, z, hc⟩
      obtain ⟨d, ha⟩ := busCmd_clearEvents hc
      exact hno d ha
    simp [hclr, resolveSticky, State.capRecovery, State.genRecovery]

/-! ### The host at a FIFO (O37) -/

theorem hostMayPop_iff (s : State) (e : EngineId) : s.hostMayPop e = true ↔
    (s.engine e).config.dir = .rx ∧ (s.engine e).fifo ≠ [] ∧ s.fifoOwned e = false := by
  simp [State.hostMayPop, List.length_pos_iff, and_assoc]

theorem hostMayPush_iff (s : State) (e : EngineId) : s.hostMayPush e = true ↔
    (s.engine e).config.dir = .tx ∧ (s.engine e).fifo.length < s.params.fifoDepth ∧
      s.fifoOwned e = false := by
  simp [State.hostMayPush, and_assoc]

/-- R65: the agent of a FIFO that nobody owns is still. -/
theorem agents_of_unowned {s : State} {e : EngineId} (h : s.fifoOwned e = false) :
    s.agentPops e = false ∧ s.agentPush e = none := by
  cases e with
  | cap =>
    have hx : s.cap.x ≠ .transferring := by simpa [State.fifoOwned] using h
    exact ⟨moverActs_eq_false hx, rfl⟩
  | gen =>
    have hf : s.gen.feedEn = false := h
    exact ⟨rfl, by simp [State.agentPush, State.feederWord, hf]⟩
  | hs =>
    have hf : (s.player .h).armed = false := h
    exact ⟨rfl, by simp [State.agentPush, State.playerWord, hf]⟩
  | vs =>
    have hf : (s.player .v).armed = false := h
    exact ⟨rfl, by simp [State.agentPush, State.playerWord, hf]⟩

/-- A read of `FIFO` (R65). -/
theorem fifo_read {s : State} {e : EngineId} (ha : s.input.host = .read (engineAddr e 0x23)) :
    (∀ w q, (s.engine e).fifo = w :: q → s.hostMayPop e = true →
      s.busReadData = some w ∧ s.busCmd = .pop e) ∧
    (s.hostMayPop e = false → s.busReadData = some 0 ∧ s.busCmd = .refused) := by
  have ht := decodeAddr_fifo s.params e
  refine ⟨fun w q hq hm => ?_, fun hm => ?_⟩
  · have hr : s.readTarget (.fifo e) = some w := by simp [State.readTarget, hm, hq]
    exact ⟨by simp [State.busReadData, ha, ht, hr], busCmd_read ha ht hr⟩
  · have hr : s.readTarget (.fifo e) = none := by simp [State.readTarget, hm]
    exact ⟨by simp [State.busReadData, ha, ht, hr], by simp [State.busCmd, ha, ht, hr]⟩

/-- R31, R65: a FIFO from which the host pops. -/
theorem fifo_of_pop {s : State} {e : EngineId} {r : Turn} {w : Word} {q : List Word}
    (hc : s.busCmd = .pop e) (hq : (s.engine e).fifo = w :: q) (hf : s.flushed e = false)
    (hown : s.fifoOwned e = false) : (s.nextEngine e r).fifo = q ++ r.req.push.toList := by
  have hpush : (r.req.push <|> s.agentPush e <|> s.busCmd.pushes e) = r.req.push := by
    rw [(agents_of_unowned hown).2, hc]
    cases r.req.push <;> rfl
  rw [nextEngine_fifo, hpush, hf, hc, hq]
  simp [nextFifo, BusCmd.pops]

/-- R31, R65: a FIFO to which the host pushes; the engine of a TX FIFO pushes nothing. -/
theorem fifo_of_push {s : State} {e : EngineId} {r : Turn} {d : Word}
    (hw : TurnWithin s e r) (hc : s.busCmd = .push e d) (hf : s.flushed e = false)
    (hdir : (s.engine e).config.dir = .tx) (hown : s.fifoOwned e = false) :
    (s.nextEngine e r).fifo = (s.engine e).fifo.drop r.req.pop.toNat ++ [d] := by
  obtain ⟨hpops, hpush⟩ := agents_of_unowned hown
  have hnone : r.req.push = none := by
    cases hr : r.req.push with
    | none => rfl
    | some v =>
      have := (hw.push (by simp [hr])).1
      rw [hdir] at this
      cases this
  rw [nextEngine_fifo, hnone, hpush, hpops, hf, hc]
  cases r.req.pop <;> simp [nextFifo, BusCmd.pops, BusCmd.pushes]

/-- Settles O37: the access is accepted exactly when the host may pop or push, and the FIFO is then what
`fifo_of_pop` and `fifo_of_push` say, since the agent that could own it is still. -/
theorem hostFifoAccess : Obligations.HostFifoAccess := by
  intro s t e hrst hstep
  obtain ⟨ts, _, hts, rfl⟩ := steps_cases_merge hstep hrst
  have hwithin := (turns_within hts e).2
  rw [merge_busData, merge_engine]
  refine ⟨fun ha => ?_, fun d ha => ?_⟩
  · obtain ⟨hyes, hno⟩ := fifo_read ha
    refine ⟨fun w q hq hdir hown => ?_, fun hbad => hno ?_⟩
    · obtain ⟨hdata, hc⟩ := hyes w q hq ((hostMayPop_iff s e).2 ⟨hdir, by simp [hq], hown⟩)
      refine ⟨hdata, hc, fun hf => ?_⟩
      rw [fifo_of_pop hc hq hf hown]
      exact ⟨⟨_, Option.length_toList_le, rfl⟩,
        fun hidle => by simp [hwithin.quiet hidle, Requests.none]⟩
    · rw [← Bool.not_eq_true, hostMayPop_iff]
      rintro ⟨hdir, hne, hown⟩
      simp [hdir, hne, hown] at hbad
  · have hw : s.busCmd = s.writeTarget d (.fifo e) := busCmd_write ha (decodeAddr_fifo _ e)
    refine ⟨fun hdir hroom hown => ?_, fun hbad => ?_⟩
    · have hm := (hostMayPush_iff s e).2 ⟨hdir, hroom, hown⟩
      have hc : s.busCmd = .push e d := by simp [hw, State.writeTarget, hm]
      refine ⟨hc, fun hf => ?_⟩
      rw [fifo_of_push hwithin hc hf hdir hown]
      exact ⟨⟨_, Bool.toNat_le _, rfl⟩, fun hidle => by simp [hwithin.quiet hidle, Requests.none]⟩
    · have hm : s.hostMayPush e = false := by
        rw [← Bool.not_eq_true, hostMayPush_iff]
        rintro ⟨hdir, hroom, hown⟩
        simp [hdir, hroom, hown] at hbad
      simp [hw, State.writeTarget, hm]

/-! ### The fields of the register words (R104 to R106) -/

theorem getLsbD_append_low {n m : Nat} {x : BitVec n} {y : BitVec m} {i : Nat} (h : i < m) :
    (x ++ y).getLsbD i = y.getLsbD i := by
  rw [BitVec.getLsbD_append, if_pos h]

theorem getLsbD_append_high {n m : Nat} {x : BitVec n} {y : BitVec m} {i : Nat} (h : m ≤ i) :
    (x ++ y).getLsbD i = x.getLsbD (i - m) := by
  rw [BitVec.getLsbD_append, if_neg (Nat.not_lt.2 h)]

/-- A narrower register in a word: its value in the low bits, and 0 above. -/
theorem extractLsb'_setWidth_word {n m : Nat} (x : BitVec n) (h : n + m = 32) :
    (x.setWidth 32).extractLsb' 0 n = x ∧ (x.setWidth 32).extractLsb' n m = 0 := by
  constructor
  · apply BitVec.eq_of_getLsbD_eq
    intro i hi
    simp [hi, show i < 32 by omega]
  · apply BitVec.eq_of_getLsbD_eq
    intro i hi
    simp

theorem handshakeCode_code (x : XState) : HandshakeCode x x.code :=
  ⟨by rintro rfl; rfl, by rintro rfl; rfl, by rintro rfl; rfl⟩

section fields
open BitVec

theorem gstatWord_fields (s : State) : GstatFields s (gstatWord s) := by
  constructor <;> simp (disch := decide) only [gstatWord, fieldBit, getLsbD_append_low,
    getLsbD_append_high, extractLsb'_append_eq_of_le] <;> simp

theorem pinsWord_fields (s : State) : PinsFields s (pinsWord s) := by
  constructor <;> simp (disch := decide) only [pinsWord, fieldBit, getLsbD_append_low,
    getLsbD_append_high, extractLsb'_append_eq_of_le, extractLsb'_append_eq_of_add_le] <;> simp

theorem capXstatWord_fields (c : CaptureSide) : CapXstatFields c (capXstatWord c) := by
  constructor <;> simp (disch := decide) only [capXstatWord, fieldBit, getLsbD_append_low,
    getLsbD_append_high, extractLsb'_append_eq_of_le, extractLsb'_append_eq_of_add_le] <;>
    simp [handshakeCode_code]

theorem genXstatWord_fields (g : GenSide) : GenXstatFields g (genXstatWord g) := by
  constructor <;> simp (disch := decide) only [genXstatWord, fieldBit, getLsbD_append_low,
    getLsbD_append_high, extractLsb'_append_eq_of_le, extractLsb'_append_eq_of_add_le] <;>
    simp [handshakeCode_code]

theorem genXcfgWord_fields (g : GenSide) : GenXcfgFields g (genXcfgWord g) := by
  constructor <;> simp (disch := decide) only [genXcfgWord, fieldBit, getLsbD_append_low,
    getLsbD_append_high, extractLsb'_append_eq_of_le] <;> simp

theorem ltCtrlWord_fields (p : Player) : LtCtrlFields p (ltCtrlWord p) := by
  constructor <;> simp (disch := decide) only [ltCtrlWord, fieldBit, getLsbD_append_low,
    getLsbD_append_high, extractLsb'_append_eq_of_le, extractLsb'_append_eq_of_add_le] <;> simp

/-- R105: the level fits its four bits, as `FIFO_DEPTH` is at most 15. -/
theorem statusWord_fields {en : Engine} (h : en.fifo.length < 16) :
    StatusFields en (statusWord en) := by
  constructor <;> simp (disch := decide) only [statusWord, fieldBit, getLsbD_append_low,
    getLsbD_append_high, extractLsb'_append_eq_of_le, extractLsb'_append_eq_of_add_le] <;> simp [h]

theorem configWord_fields (c : EngineConfig) : ConfigFields c c.word := by
  constructor <;> simp (disch := decide) only [EngineConfig.word, fieldBit, getLsbD_append_low,
    getLsbD_append_high, extractLsb'_append_eq_of_le, extractLsb'_append_eq_of_add_le]
  case sideNone => intro h; rw [h]; rfl
  case sideHsync => intro h; rw [h]; rfl
  case sideVsync => intro h; rw [h]; rfl
  all_goals simp

end fields

/-! ### What the host reads (O36) -/

theorem fifoDepth_lt {p : Params} (h : p.wf = true) : p.fifoDepth < 16 := by
  simp only [Params.wf, Bool.and_eq_true, decide_eq_true_eq] at h
  omega

/-- R69: the generation window is refused between `COMMIT` and the swap. -/
theorem genWindow_read_refused {s : State} {a : Addr} {i : Nat}
    (ht : decodeAddr s.params a = some (.genWindow i)) (hs : s.gen.single = false)
    (hx : s.gen.x = .transferring) (ha : s.input.host = .read a) :
    s.busCmd = .refused ∧ s.busReadData = some 0 := by
  have hr : s.readTarget (.genWindow i) = none := by
    simp [State.readTarget, GenSide.windowOpen, hs, hx]
  have hc : s.busCmd = .refused := by simp [State.busCmd, ha, ht, hr]
  exact ⟨hc, busReadData_of_refused ha hc⟩

/-- Settles O36: `readTarget` has for every readable address its register or word, whose fields the
lemmas above give. -/
theorem hostReads : Obligations.HostReads := by
  intro s t hwf hrst hstep
  have hp := bankWords_le hwf
  have hread : ∀ {a : Addr} (tg : BusTarget) {w : Word} {P : Word → Prop},
      decodeAddr s.params a = some tg → s.readTarget tg = some w → readEffect tg = .none → P w →
      Reads s t a P := fun _ _ _ => reads_of hrst hstep
  have hreg : ∀ (e : EngineId) (off : Nat), off < 0x40 →
      decodeAddr s.params (engineAddr e off) = decodeEngineOffset e off :=
    fun e off => decodeAddr_engine s.params e off
  refine ⟨fun k => hread (.lut k) (decodeAddr_lut _ k) rfl rfl rfl,
    hread .errLo rfl rfl rfl rfl, hread .errHi rfl rfl rfl rfl,
    hread .gstat rfl rfl rfl (gstatWord_fields s),
    hread .flags rfl rfl rfl (extractLsb'_setWidth_word s.flags rfl),
    hread .pins rfl rfl rfl (pinsWord_fields s),
    hread .capXstat rfl rfl rfl (capXstatWord_fields s.cap), hread .capMeas rfl rfl rfl rfl,
    hread .capFrames rfl rfl rfl rfl, hread .capWd rfl rfl rfl rfl,
    hread .genXstat rfl rfl rfl (genXstatWord_fields s.gen), hread .genMeas rfl rfl rfl rfl,
    hread .genFrames rfl rfl rfl rfl, hread .genXcfg rfl rfl rfl (genXcfgWord_fields s.gen),
    fun e => ⟨fun k => ?_, fun hlevel => ?_, ?_, ?_, ?_, ?_, ?_⟩,
    fun g => ⟨fun i => ?_, ?_⟩, fun i hi => ⟨?_, fun hs hx => ?_, fun hs => ?_, fun hs hx ha => ?_⟩⟩
  · exact hread (.prog e k) (decodeAddr_prog _ e k) rfl rfl (extractLsb'_setWidth_word _ rfl)
  · exact hread (.status e) (decodeAddr_status _ e) rfl rfl
      (statusWord_fields (lt_of_le_of_lt hlevel (fifoDepth_lt hwf)))
  · exact hread (.config e) (decodeAddr_config _ e) rfl rfl (configWord_fields _)
  · exact hread (.regX e) (hreg e 0x24 (by decide)) rfl rfl rfl
  · exact hread (.regY e) (hreg e 0x25 (by decide)) rfl rfl rfl
  · exact hread (.regSr e) (hreg e 0x26 (by decide)) rfl rfl rfl
  · exact hread (.regRem e) (hreg e 0x27 (by decide)) rfl rfl rfl
  · exact hread (.ltEntry g i) (decodeAddr_ltEntry _ g i) rfl rfl rfl
  · exact hread (.ltCtrl g) (decodeAddr_ltCtrl _ g) rfl rfl (ltCtrlWord_fields _)
  · exact hread (.capWindow i) (decodeAddr_capWindow _ i hp hi) rfl rfl rfl
  · refine hread (.genWindow i) (decodeAddr_genWindow _ i hp hi) ?_ rfl rfl
    simp [State.readTarget, GenSide.windowOpen, GenSide.windowBank, hs, hx]
  · refine hread (.genWindow i) (decodeAddr_genWindow _ i hp hi) ?_ rfl rfl
    simp [State.readTarget, GenSide.windowOpen, GenSide.windowBank, hs]
  · obtain ⟨ts, _, _, rfl⟩ := steps_cases_merge hstep hrst
    exact genWindow_read_refused (decodeAddr_genWindow _ i hp hi) hs hx ha

end Sys2Proof.Machine

/-!
PROOFS. The encoding of 30_encoding.md: decoding an encoding (O2), encoding a decoding (O3), the
reserved words (O4) and the reference words (O1). The fields of a word part and join as in
Laws/Encode.lean; what is left is one lemma for each argument format (R94 to R100), read each way and on
its reserved codes.
-/

namespace Sys2Proof

/-! ### Bits of an argument -/

theorem ofBool_getLsbD {n : Nat} (x : BitVec n) (i : Nat) :
    BitVec.ofBool (x.getLsbD i) = x.extractLsb' i 1 := by
  apply BitVec.eq_of_getLsbD_eq
  intro j hj
  obtain rfl : j = 0 := by omega
  simp

/-! ### The argument formats (R94 to R100) -/

/-- The decoding of the argument field of an operation. -/
def decodeArg (side : Side) (dly : BitVec 3) (arg : BitVec 8) : Op → Decoded
  | .jmp => decodeJmp side dly arg
  | .wait => decodeWait side dly arg
  | .shiftIn =>
    match decodeCount arg with
    | some c => .legal (.shiftIn side dly c)
    | none => .illegal .reservedCount
  | .shiftOut =>
    match decodeCount arg with
    | some c => .legal (.shiftOut side dly c)
    | none => .illegal .reservedCount
  | .get => decodeGet side dly arg
  | .seto => decodeSeto side dly arg
  | .load => decodeLoad side dly arg
  | .nop => decodeNop side dly arg

/-- R92: a word with the reserved side code is illegal, whatever its other fields hold. -/
theorem decode_of_side_none {w : OpWord} (h : Side.ofBits (sideBits w) = none) :
    decode w = .illegal .reservedSide := by
  simp only [decode, h]

/-- Past the side code, a word is decoded by its operation's argument format. -/
theorem decode_of_side_some {w : OpWord} {side : Side} (h : Side.ofBits (sideBits w) = some side) :
    decode w = decodeArg side (dlyBits w) (argBits w) (Op.ofBits (opBits w)) := by
  simp only [decode, h]
  cases Op.ofBits (opBits w) <;> rfl

/-! ### Decoding an encoded argument -/

section append
open BitVec

theorem decodeCount_bits (c : Count) : decodeCount c.bits = some c := by
  cases c with
  | imm m =>
    simp (disch := decide) only [decodeCount, Count.bits, Machine.getLsbD_append_high,
      extractLsb'_append_eq_right]
    rfl
  | lut k =>
    simp (disch := decide) only [decodeCount, Count.bits, Machine.getLsbD_append_high,
      extractLsb'_append_eq_of_le, extractLsb'_append_eq_right]
    rfl

theorem decodeJmp_arg (side : Side) (dly : BitVec 3) (cond : Cond) (target : Slot) :
    decodeJmp side dly (cond.bits ++ target) = .legal (.jmp side dly cond target) := by
  simp only [decodeJmp, extractLsb'_append_eq_left, extractLsb'_append_eq_right, Cond.ofBits_bits]

/-- R95: what the constraint on `consume` refuses is not well-formed. -/
theorem decodeWait_arg {side : Side} {dly : BitVec 3} {level : Bool} {src : WaitSrc}
    {consume : Bool} (h : (Instr.wait side dly level src consume).wellFormed = true) :
    decodeWait side dly (ofBool level ++ src.bits ++ ofBool consume ++ 0#2) =
      .legal (.wait side dly level src consume) := by
  simp (disch := decide) only [decodeWait, extractLsb'_append_eq_of_le,
    extractLsb'_append_eq_of_add_le, extractLsb'_eq_self, Machine.getLsbD_append_high,
    Machine.getLsbD_append_low]
  simp [h]

theorem decodeGet_argX (side : Side) (dly : BitVec 3) (m : BitVec 5) :
    decodeGet side dly (0#3 ++ m) = .legal (.getX side dly m) := by
  simp (disch := decide) only [decodeGet, extractLsb'_append_eq_of_le, extractLsb'_append_eq_right,
    Machine.getLsbD_append_high]
  rfl

theorem decodeGet_argY (side : Side) (dly : BitVec 3) (m : BitVec 5) :
    decodeGet side dly (2#3 ++ m) = .legal (.getY side dly m) := by
  simp (disch := decide) only [decodeGet, extractLsb'_append_eq_of_le, extractLsb'_append_eq_right,
    Machine.getLsbD_append_high]
  rfl

theorem decodeGet_argExec (side : Side) (dly : BitVec 3) :
    decodeGet side dly 0x8F#8 = .legal (.getExec side dly) := by
  simp [decodeGet]

theorem decodeSeto_arg (side : Side) (dly : BitVec 3) (target : SetTarget) (value : Bool) :
    decodeSeto side dly (target.bits ++ 0#4 ++ ofBool value) =
      .legal (.seto side dly target value) := by
  simp (disch := decide) only [decodeSeto, extractLsb'_append_eq_of_le,
    extractLsb'_append_eq_of_add_le, Machine.getLsbD_append_low]
  simp

theorem decodeLoad_arg (side : Side) (dly : BitVec 3) (dest : Dest) (src : LoadSrc) :
    decodeLoad side dly (Instr.load side dly dest src).arg = .legal (.load side dly dest src) := by
  cases src with
  | lut k =>
    simp (disch := decide) only [decodeLoad, Instr.arg, extractLsb'_append_eq_right,
      Machine.getLsbD_append_high, Machine.getLsbD_append_low]
    cases dest <;> rfl
  | imm v =>
    simp (disch := decide) only [decodeLoad, Instr.arg, extractLsb'_append_eq_right,
      Machine.getLsbD_append_high, Machine.getLsbD_append_low]
    cases dest <;> rfl

end append

/-- Every argument format gives back what the encoder put into it. -/
theorem decodeArg_arg {i : Instr} (h : i.wellFormed = true) :
    decodeArg i.side i.delay i.arg i.op = .legal i := by
  cases i with
  | jmp side dly cond target => exact decodeJmp_arg side dly cond target
  | wait side dly level src consume => exact decodeWait_arg h
  | shiftIn side dly count =>
    simp only [decodeArg, Instr.op, Instr.arg, Instr.side, Instr.delay, decodeCount_bits]
  | shiftOut side dly count =>
    simp only [decodeArg, Instr.op, Instr.arg, Instr.side, Instr.delay, decodeCount_bits]
  | getX side dly m => exact decodeGet_argX side dly m
  | getY side dly m => exact decodeGet_argY side dly m
  | getExec side dly => exact decodeGet_argExec side dly
  | seto side dly target value => exact decodeSeto_arg side dly target value
  | load side dly dest src => exact decodeLoad_arg side dly dest src
  | nop side dly => rfl

/-- Settles O2: the fields of the packed word are those of the instruction, and each argument format
reads its own encoding back. -/
theorem decodeEncodeRoundTrip : Obligations.DecodeEncodeRoundTrip := by
  intro i h
  have hside : Side.ofBits (sideBits (encode i)) = some i.side := by simp [encode]
  rw [decode_of_side_some hside]
  simpa [encode] using decodeArg_arg h

/-! ### Encoding a decoded argument -/

/-- The instruction `i` has the four given fields and is legal. -/
structure HasFields (i : Instr) (o : Op) (side : Side) (dly : BitVec 3) (arg : BitVec 8) :
    Prop where
  op : i.op = o
  side : i.side = side
  delay : i.delay = dly
  arg : i.arg = arg
  wellFormed : i.wellFormed = true

/-- An instruction with the fields of a word encodes to that word. -/
theorem HasFields.encode_eq {i : Instr} {w : OpWord} {side : Side}
    (hside : Side.ofBits (sideBits w) = some side)
    (h : HasFields i (Op.ofBits (opBits w)) side (dlyBits w) (argBits w)) : encode i = w := by
  rw [encode, h.op, h.side, h.delay, h.arg, Op.bits_ofBits, Side.bits_of_ofBits _ _ hside,
    packWord_fields]

section extract
open BitVec

theorem bits_of_decodeCount {arg : BitVec 8} {c : Count} (h : decodeCount arg = some c) :
    c.bits = arg := by
  simp only [decodeCount] at h
  split_ifs at h with h7 h65
  · cases h
    have hsplit : ofBool (arg.getLsbD 7) ++ arg.extractLsb' 5 2 ++ arg.extractLsb' 0 5 = arg := by
      simp (disch := decide) only [ofBool_getLsbD, extractLsb'_append_extractLsb'_eq_extractLsb',
        extractLsb'_eq_self]
    rwa [h7, h65] at hsplit
  · cases h
    have hsplit : ofBool (arg.getLsbD 7) ++ arg.extractLsb' 0 7 = arg := by
      simp (disch := decide) only [ofBool_getLsbD, extractLsb'_append_extractLsb'_eq_extractLsb',
        extractLsb'_eq_self]
    rwa [Bool.eq_false_of_not_eq_true h7] at hsplit

theorem hasFields_of_decodeJmp {side : Side} {dly : BitVec 3} {arg : BitVec 8} {i : Instr}
    (h : decodeJmp side dly arg = .legal i) : HasFields i .jmp side dly arg := by
  unfold decodeJmp at h
  split at h
  case h_1 cond hc =>
    cases h
    refine ⟨rfl, rfl, rfl, ?_, rfl⟩
    rw [Instr.arg, Cond.bits_of_ofBits _ _ hc]
    exact extractLsb'_append_extractLsb'
  case h_2 => cases h

theorem hasFields_of_decodeWait {side : Side} {dly : BitVec 3} {arg : BitVec 8} {i : Instr}
    (h : decodeWait side dly arg = .legal i) : HasFields i .wait side dly arg := by
  unfold decodeWait at h
  split_ifs at h with hzero
  split at h
  case h_1 => cases h
  case h_2 src hsrc =>
    dsimp only at h
    split_ifs at h with hwf
    cases h
    refine ⟨rfl, rfl, rfl, ?_, hwf⟩
    rw [Instr.arg, WaitSrc.bits_of_ofBits _ _ hsrc,
      ← (not_not.1 hzero : arg.extractLsb' 0 2 = 0#2)]
    simp (disch := decide) only [ofBool_getLsbD, extractLsb'_append_extractLsb'_eq_extractLsb',
      extractLsb'_eq_self]

theorem hasFields_of_decodeGet {side : Side} {dly : BitVec 3} {arg : BitVec 8} {i : Instr}
    (h : decodeGet side dly arg = .legal i) : HasFields i .get side dly arg := by
  have hsplit : arg.extractLsb' 6 2 ++ ofBool (arg.getLsbD 5) ++ arg.extractLsb' 0 5 = arg := by
    simp (disch := decide) only [ofBool_getLsbD, extractLsb'_append_extractLsb'_eq_extractLsb',
      extractLsb'_eq_self]
  simp only [decodeGet] at h
  split_ifs at h with h3 h5 h0 h1 h15
  · cases h
    rw [h0, Bool.eq_false_of_not_eq_true h5] at hsplit
    exact ⟨rfl, rfl, rfl, hsplit, rfl⟩
  · cases h
    rw [h1, Bool.eq_false_of_not_eq_true h5] at hsplit
    exact ⟨rfl, rfl, rfl, hsplit, rfl⟩
  · cases h
    have h2 : arg.extractLsb' 6 2 = 2 := by bv_omega
    rw [h2, Bool.eq_false_of_not_eq_true h5, h15] at hsplit
    exact ⟨rfl, rfl, rfl, hsplit, rfl⟩

theorem hasFields_of_decodeSeto {side : Side} {dly : BitVec 3} {arg : BitVec 8} {i : Instr}
    (h : decodeSeto side dly arg = .legal i) : HasFields i .seto side dly arg := by
  unfold decodeSeto at h
  split_ifs at h with hzero
  split at h
  case h_1 target ht =>
    cases h
    refine ⟨rfl, rfl, rfl, ?_, rfl⟩
    rw [Instr.arg, SetTarget.bits_of_ofBits _ _ ht,
      ← (not_not.1 hzero : arg.extractLsb' 1 4 = 0#4)]
    simp (disch := decide) only [ofBool_getLsbD, extractLsb'_append_extractLsb'_eq_extractLsb',
      extractLsb'_eq_self]
  case h_2 => cases h

theorem ofBool_dest (b : Bool) :
    ofBool (decide ((if b then Dest.y else Dest.x) = Dest.y)) = ofBool b := by
  cases b <;> rfl

theorem hasFields_of_decodeLoad {side : Side} {dly : BitVec 3} {arg : BitVec 8} {i : Instr}
    (h : decodeLoad side dly arg = .legal i) : HasFields i .load side dly arg := by
  unfold decodeLoad at h
  extract_lets dest at h
  split_ifs at h with h6 h5
  · cases h
    have hsplit :
        ofBool (arg.getLsbD 7) ++ ofBool (arg.getLsbD 6) ++ arg.extractLsb' 0 6 = arg := by
      simp (disch := decide) only [ofBool_getLsbD, extractLsb'_append_extractLsb'_eq_extractLsb',
        extractLsb'_eq_self]
    rw [← ofBool_dest, h6] at hsplit
    exact ⟨rfl, rfl, rfl, hsplit, rfl⟩
  · cases h
    have hsplit : ofBool (arg.getLsbD 7) ++ (ofBool (arg.getLsbD 6) ++ ofBool (arg.getLsbD 5)) ++
        arg.extractLsb' 0 5 = arg := by
      simp (disch := decide) only [ofBool_getLsbD, extractLsb'_append_extractLsb'_eq_extractLsb',
        extractLsb'_eq_self]
    rw [← ofBool_dest, Bool.eq_false_of_not_eq_true h6, Bool.eq_false_of_not_eq_true h5] at hsplit
    exact ⟨rfl, rfl, rfl, hsplit, rfl⟩

theorem hasFields_of_decodeNop {side : Side} {dly : BitVec 3} {arg : BitVec 8} {i : Instr}
    (h : decodeNop side dly arg = .legal i) : HasFields i .nop side dly arg := by
  unfold decodeNop at h
  split_ifs at h with hzero
  cases h
  exact ⟨rfl, rfl, rfl, hzero.symm, rfl⟩

end extract

/-- Every argument format keeps all the bits of the argument it reads. -/
theorem hasFields_of_decodeArg {o : Op} {side : Side} {dly : BitVec 3} {arg : BitVec 8} {i : Instr}
    (h : decodeArg side dly arg o = .legal i) : HasFields i o side dly arg := by
  cases o with
  | jmp => exact hasFields_of_decodeJmp h
  | wait => exact hasFields_of_decodeWait h
  | shiftIn =>
    simp only [decodeArg] at h
    split at h
    case h_1 c hc => cases h; exact ⟨rfl, rfl, rfl, bits_of_decodeCount hc, rfl⟩
    case h_2 => cases h
  | shiftOut =>
    simp only [decodeArg] at h
    split at h
    case h_1 c hc => cases h; exact ⟨rfl, rfl, rfl, bits_of_decodeCount hc, rfl⟩
    case h_2 => cases h
  | get => exact hasFields_of_decodeGet h
  | seto => exact hasFields_of_decodeSeto h
  | load => exact hasFields_of_decodeLoad h
  | nop => exact hasFields_of_decodeNop h

/-- Settles O3: a legal word has a legal side code, and its operation's format keeps every bit of its
argument. -/
theorem encodeDecodeRoundTrip : Obligations.EncodeDecodeRoundTrip := by
  intro w i h
  cases hside : Side.ofBits (sideBits w) with
  | none => rw [decode_of_side_none hside] at h; cases h
  | some side =>
    rw [decode_of_side_some hside] at h
    have hf := hasFields_of_decodeArg h
    exact ⟨hf.wellFormed, hf.encode_eq hside⟩

/-! ### The reserved codes of each field -/

/-- A field of a word as a number: the division and remainder in which R101 is written. -/
theorem toNat_field {n : Nat} (x : BitVec n) (start len : Nat) :
    (x.extractLsb' start len).toNat = x.toNat / 2 ^ start % 2 ^ len := by
  rw [BitVec.extractLsb'_toNat, Nat.shiftRight_eq_div_pow]

theorem extractLsb'_eq_iff {n len : Nat} (x : BitVec n) (start : Nat) (v : BitVec len) :
    x.extractLsb' start len = v ↔ x.toNat / 2 ^ start % 2 ^ len = v.toNat := by
  rw [← BitVec.toNat_inj, toNat_field]

theorem getLsbD_eq_true_iff {n : Nat} (x : BitVec n) (i : Nat) :
    x.getLsbD i = true ↔ x.toNat / 2 ^ i % 2 = 1 := by
  rw [BitVec.getLsbD, Nat.testBit_eq_decide_div_mod_eq, decide_eq_true_iff]

theorem Side.ofBits_eq_none_iff (b : BitVec 2) : Side.ofBits b = Option.none ↔ b.toNat = 1 := by
  revert b; decide

theorem Cond.ofBits_eq_none_iff (b : BitVec 3) : Cond.ofBits b = none ↔ b.toNat = 7 := by
  revert b; decide

theorem WaitSrc.ofBits_eq_none_iff (b : BitVec 4) :
    WaitSrc.ofBits b = none ↔ b.toNat = 3 ∨ 12 ≤ b.toNat := by
  revert b; decide

theorem SetTarget.ofBits_eq_none_iff (b : BitVec 3) :
    SetTarget.ofBits b = none ↔ b.toNat = 2 ∨ b.toNat = 3 := by
  revert b; decide

/-- R95: the flags are the sources 8 to 11. -/
theorem WaitSrc.isFlag_iff (s : WaitSrc) :
    s.isFlag = true ↔ 8 ≤ s.bits.toNat ∧ s.bits.toNat ≤ 11 := by
  cases s with
  | flag k => revert k; decide
  | _ => decide

/-! ### The reserved arguments of each operation (R101) -/

/-- The lines of R101 for one operation, on the number its argument field holds. -/
def ReservedArg (n : Nat) : Op → Prop
  | .jmp => n / 32 = 7
  | .wait => (n % 4 ≠ 0 ∨ n / 8 % 16 = 3 ∨ 12 ≤ n / 8 % 16) ∨
      n / 4 % 2 = 1 ∧ ¬ (8 ≤ n / 8 % 16 ∧ n / 8 % 16 ≤ 11 ∧ n / 128 = 1)
  | .shiftIn => n / 128 = 1 ∧ n / 32 % 4 ≠ 0
  | .shiftOut => n / 128 = 1 ∧ n / 32 % 4 ≠ 0
  | .get => (n / 64 = 3 ∨ 32 ≤ n % 64) ∨ n / 64 = 2 ∧ n % 64 ≠ 15
  | .seto => n / 2 % 16 ≠ 0 ∨ n / 32 = 2 ∨ n / 32 = 3
  | .load => n / 64 % 2 = 0 ∧ n / 32 % 2 = 1
  | .nop => n ≠ 0

/-- The ten lines of R101 are the reserved side code and the reserved arguments of the eight
operations. -/
theorem reservedWord_iff (w : OpWord) :
    Machine.reservedWord w ↔
      Side.ofBits (sideBits w) = none ∨ ReservedArg (argBits w).toNat (Op.ofBits (opBits w)) := by
  have hop : w.toNat / 8192 = (Op.ofBits (opBits w)).bits.toNat := by
    rw [Op.bits_ofBits, opBits, toNat_field]; omega
  have hside : w.toNat / 2048 % 4 = (sideBits w).toNat := by rw [sideBits, toNat_field]; rfl
  have harg : w.toNat % 256 = (argBits w).toNat := by rw [argBits, toNat_field]; omega
  simp only [Machine.reservedWord, hop, hside, harg, Side.ofBits_eq_none_iff]
  cases Op.ofBits (opBits w) <;> simp [Op.bits, ReservedArg]

/-- R95, both halves: consuming needs a flag source and level 1. -/
theorem wait_wellFormed_iff (side : Side) (dly : BitVec 3) (level : Bool) (src : WaitSrc)
    (consume : Bool) : (Instr.wait side dly level src consume).wellFormed = true ↔
      (consume = true → src.isFlag = true ∧ level = true) := by
  cases consume <;> simp [Instr.wellFormed, consumeNamesFlag, consumeWaitsHigh]

theorem decodeCount_eq_none_iff (arg : BitVec 8) :
    decodeCount arg = none ↔ arg.toNat / 128 = 1 ∧ arg.toNat / 32 % 4 ≠ 0 := by
  simp only [decodeCount, getLsbD_eq_true_iff, extractLsb'_eq_iff, BitVec.ofNat_eq_ofNat,
    BitVec.toNat_ofNat]
  split_ifs with h7 h65
  · exact iff_of_false (by simp) (by omega)
  · exact iff_of_true rfl (by omega)
  · exact iff_of_false (by simp) (by omega)

theorem decodeJmp_illegal_iff (side : Side) (dly : BitVec 3) (arg : BitVec 8) :
    (∃ e, decodeJmp side dly arg = .illegal e) ↔ ReservedArg arg.toNat .jmp := by
  have hcond := Cond.ofBits_eq_none_iff (arg.extractLsb' 5 3)
  rw [toNat_field] at hcond
  unfold decodeJmp ReservedArg
  split
  case h_1 cond hc =>
    have : ¬ arg.toNat / 2 ^ 5 % 2 ^ 3 = 7 := by
      rw [← hcond, hc]; exact Option.some_ne_none _
    exact iff_of_false (by simp) (by omega)
  case h_2 hc => exact iff_of_true (by simp) (by have := hcond.1 hc; omega)

theorem decodeWait_illegal_iff (side : Side) (dly : BitVec 3) (arg : BitVec 8) :
    (∃ e, decodeWait side dly arg = .illegal e) ↔ ReservedArg arg.toNat .wait := by
  have hnone := WaitSrc.ofBits_eq_none_iff (arg.extractLsb' 3 4)
  rw [toNat_field] at hnone
  simp only [decodeWait, ReservedArg, ne_eq, extractLsb'_eq_iff, BitVec.ofNat_eq_ofNat,
    BitVec.toNat_ofNat]
  split_ifs with hzero
  · split
    case h_1 hsrc => exact iff_of_true (by simp) (by have := hnone.1 hsrc; omega)
    case h_2 src hsrc =>
      have hlegal : ¬ (arg.toNat / 2 ^ 3 % 2 ^ 4 = 3 ∨ 12 ≤ arg.toNat / 2 ^ 3 % 2 ^ 4) := by
        rw [← hnone, hsrc]; exact Option.some_ne_none _
      have hflag := src.isFlag_iff
      rw [WaitSrc.bits_of_ofBits _ _ hsrc, toNat_field] at hflag
      simp only [wait_wellFormed_iff, hflag, getLsbD_eq_true_iff]
      split_ifs with hwf
      · exact iff_of_false (by simp) (by omega)
      · exact iff_of_true (by simp) (by omega)
  · exact iff_of_true (by simp) (by omega)

theorem decodeGet_illegal_iff (side : Side) (dly : BitVec 3) (arg : BitVec 8) :
    (∃ e, decodeGet side dly arg = .illegal e) ↔ ReservedArg arg.toNat .get := by
  simp only [decodeGet, ReservedArg, getLsbD_eq_true_iff, extractLsb'_eq_iff,
    BitVec.ofNat_eq_ofNat, BitVec.toNat_ofNat]
  split_ifs with h3 h5 h0 h1 h15
  · exact iff_of_true (by simp) (by omega)
  · exact iff_of_true (by simp) (by omega)
  · exact iff_of_false (by simp) (by omega)
  · exact iff_of_false (by simp) (by omega)
  · exact iff_of_false (by simp) (by omega)
  · exact iff_of_true (by simp) (by omega)

theorem decodeSeto_illegal_iff (side : Side) (dly : BitVec 3) (arg : BitVec 8) :
    (∃ e, decodeSeto side dly arg = .illegal e) ↔ ReservedArg arg.toNat .seto := by
  have hnone := SetTarget.ofBits_eq_none_iff (arg.extractLsb' 5 3)
  rw [toNat_field] at hnone
  simp only [decodeSeto, ReservedArg, ne_eq, extractLsb'_eq_iff, BitVec.ofNat_eq_ofNat,
    BitVec.toNat_ofNat]
  split_ifs with hzero
  · split
    case h_1 target ht =>
      have : ¬ (arg.toNat / 2 ^ 5 % 2 ^ 3 = 2 ∨ arg.toNat / 2 ^ 5 % 2 ^ 3 = 3) := by
        rw [← hnone, ht]; exact Option.some_ne_none _
      exact iff_of_false (by simp) (by omega)
    case h_2 ht => exact iff_of_true (by simp) (by have := hnone.1 ht; omega)
  · exact iff_of_true (by simp) (by omega)

theorem decodeLoad_illegal_iff (side : Side) (dly : BitVec 3) (arg : BitVec 8) :
    (∃ e, decodeLoad side dly arg = .illegal e) ↔ ReservedArg arg.toNat .load := by
  simp only [decodeLoad, ReservedArg]
  split_ifs with h6 h5 <;> rw [getLsbD_eq_true_iff] at *
  · exact iff_of_false (by simp) (by omega)
  · exact iff_of_true (by simp) (by omega)
  · exact iff_of_false (by simp) (by omega)

theorem decodeNop_illegal_iff (side : Side) (dly : BitVec 3) (arg : BitVec 8) :
    (∃ e, decodeNop side dly arg = .illegal e) ↔ ReservedArg arg.toNat .nop := by
  simp only [decodeNop, ReservedArg, ← BitVec.toNat_inj]
  split_ifs with hzero
  · exact iff_of_false (by simp) (not_not.2 hzero)
  · exact iff_of_true (by simp) hzero

/-- Every argument format refuses exactly its lines of R101. -/
theorem decodeArg_illegal_iff (side : Side) (dly : BitVec 3) (arg : BitVec 8) (o : Op) :
    (∃ e, decodeArg side dly arg o = .illegal e) ↔ ReservedArg arg.toNat o := by
  cases o with
  | jmp => exact decodeJmp_illegal_iff side dly arg
  | wait => exact decodeWait_illegal_iff side dly arg
  | shiftIn =>
    rw [ReservedArg, ← decodeCount_eq_none_iff]
    cases h : decodeCount arg <;> simp [decodeArg, h]
  | shiftOut =>
    rw [ReservedArg, ← decodeCount_eq_none_iff]
    cases h : decodeCount arg <;> simp [decodeArg, h]
  | get => exact decodeGet_illegal_iff side dly arg
  | seto => exact decodeSeto_illegal_iff side dly arg
  | load => exact decodeLoad_illegal_iff side dly arg
  | nop => exact decodeNop_illegal_iff side dly arg

/-- R101: exactly the reserved words are illegal. -/
theorem decode_illegal_iff (w : OpWord) :
    (∃ e, decode w = .illegal e) ↔ Machine.reservedWord w := by
  rw [reservedWord_iff]
  cases hside : Side.ofBits (sideBits w) with
  | none => simp [decode_of_side_none hside]
  | some side => simp [decode_of_side_some hside, decodeArg_illegal_iff]

namespace Machine

/-- Settles O4: the illegal words are the reserved ones by `decode_illegal_iff`, and the turn that fetches
one is the turn of a fault. -/
theorem reservedWordsAreIllegal : Obligations.ReservedWordsAreIllegal := by
  refine ⟨decode_illegal_iff, by decide, ⟨.nopMustBeZero, by decide⟩, rfl,
    fun s e he hw => ?_⟩
  obtain ⟨r, hr⟩ := (decode_illegal_iff (fetch (s.engine e))).2 hw
  exact turn_fault he (by simp only [evaluateFetched, hr]; rfl)

end Machine

/-- Settles O1: the decoder run on nine literal words. -/
theorem referenceWordsDecode : Obligations.ReferenceWordsDecode := by
  unfold Obligations.ReferenceWordsDecode
  decide

end Sys2Proof

/-!
PROOFS. The sync edge detectors of 40_sync_edge_detector.md: their registers follow the pins (O24).
-/

namespace Sys2Proof.Machine

/-- Settles O24, over what a step can do (`steps_cases`): a cycle with `rst` leaves the reset registers
(R59), every other one is a merge, whose registers do not depend on the engines' turns (R112). -/
theorem edgeRegistersFollowPins : Obligations.EdgeRegistersFollowPins := by
  intro s t hstep
  obtain ⟨hrst, rfl⟩ | ⟨ts, hrst, -, -, rfl⟩ := steps_cases hstep
  · refine ⟨fun hno => ?_, fun _ b => ?_⟩
    · cases hrst.symm.trans hno
    · rw [resetCycle_edge]; exact ⟨rfl, rfl⟩
  · refine ⟨fun _ b => ?_, fun hyes => ?_⟩
    · rw [merge_edge]; exact ⟨rfl, rfl⟩
    · cases hrst.symm.trans hyes

end Sys2Proof.Machine

/-!
PROOFS. The micro-operations of 41_engine_microops.md: the checks of an evaluation (O9), what each word
does (O10 to O22), and the turn of an engine with its restart and start (O7, O25, O26).
-/

namespace Sys2Proof.Machine

/-! ### The checks of a word (R122) -/

/-- The direction that the operation of a word needs (R122 check 2). -/
def wordDirection : Instr → Option Dir
  | .shiftIn _ _ _ => some .rx
  | .shiftOut _ _ _ | .getX _ _ _ | .getY _ _ _ | .getExec _ _ => some .tx
  | .jmp _ _ _ _ | .wait _ _ _ _ _ | .seto _ _ _ _ | .load _ _ _ _ | .nop _ _ => none

/-- A pin that the operation of a word needs, besides that of its side action, is not there (R122
check 3). -/
def operationPinMissing (i : Instr) (c : EngineConfig) : Bool :=
  match i with
  | .shiftOut _ _ _ => !c.pixDrv
  | .seto _ _ target _ => targetPinMissing c target
  | .shiftIn _ _ _ | .getX _ _ _ | .getY _ _ _ | .getExec _ _ | .jmp _ _ _ _ | .wait _ _ _ _ _
  | .load _ _ _ _ | .nop _ _ => false

/-- Checks 2 and 3 of R122 for a word. -/
def wordCheck (i : Instr) (c : EngineConfig) : Option EngineFault :=
  checkWord i.side (wordDirection i) (operationPinMissing i c) c

theorem directionReady_iff (i : Instr) (c : EngineConfig) :
    DirectionReady i c ↔ ∀ d, wordDirection i = some d → c.dir = d := by
  cases i <;> simp [DirectionReady, Instr.op, wordDirection]

theorem pinMissing_iff (i : Instr) (c : EngineConfig) :
    PinMissing i c ↔ operationPinMissing i c = true ∨ (i.side ≠ .none ∧ c.sideSel = .none) := by
  cases i
  case seto side dly target v =>
    cases target <;> simp [PinMissing, operationPinMissing, targetPinMissing, or_comm]
  all_goals simp [PinMissing, operationPinMissing, or_comm]

theorem checkWord_of_direction {side : Side} {need : Option Dir} {p : Bool} {c : EngineConfig}
    (hd : ∀ d, need = some d → c.dir = d) :
    checkWord side need p c =
      if p = true ∨ (side ≠ .none ∧ c.sideSel = .none) then some .noPin else none := by
  have hneed : need.any (fun d => decide (d ≠ c.dir)) = false := by
    cases need with
    | none => rfl
    | some d => simp [hd d rfl]
  rw [checkWord, hneed]
  simp

theorem wordCheck_wrongDirection {i : Instr} {c : EngineConfig} (h : ¬ DirectionReady i c) :
    wordCheck i c = some .wrongDirection := by
  rw [directionReady_iff] at h
  push Not at h
  obtain ⟨d, hneed, hdir⟩ := h
  rw [wordCheck, hneed, checkWord_direction hdir]

theorem wordCheck_noPin {i : Instr} {c : EngineConfig} (hd : DirectionReady i c)
    (hp : PinMissing i c) : wordCheck i c = some .noPin := by
  rw [wordCheck, checkWord_of_direction ((directionReady_iff i c).1 hd),
    if_pos ((pinMissing_iff i c).1 hp)]

theorem wordCheck_ok {i : Instr} {c : EngineConfig} (hd : DirectionReady i c)
    (hp : ¬ PinMissing i c) : wordCheck i c = none := by
  rw [wordCheck, checkWord_of_direction ((directionReady_iff i c).1 hd),
    if_neg (mt (pinMissing_iff i c).2 hp)]

/-- R122: a fault of checks 2 and 3 comes before the further checks of `GET`. -/
theorem checkOf_of_wordCheck {i : Instr} {en : Engine} {f : EngineFault}
    (hw : i.wellFormed = true) (h : wordCheck i en.config = some f) : checkOf i en = some f := by
  have hget : ∀ {side n}, checkWord side (some .tx) false en.config = some f →
      checkGet side n en = some f := fun hc => by simp only [checkGet, hc]
  cases i
  case wait => simp only [checkOf, checkWait, hw, if_true]; exact h
  case getX => exact hget h
  case getY => exact hget h
  case getExec side dly =>
    have hg : checkGet side 16 en = some f := hget h
    simp only [checkOf, checkExec, hg]
  all_goals exact h

/-! ### The further checks of `GET` (R131, R132) -/

theorem checkGet_underflow {side : Side} {n : Nat} {en : Engine}
    (h : checkWord side (some .tx) false en.config = none) (h0 : en.cnt ≠ 0)
    (hn : en.cnt.toNat < n) : checkGet side n en = some .fieldUnderflow := by
  have hs : supply en = some { word := en.sr, cnt := en.cnt, refill := false } := by
    rw [supply, if_neg h0]
  simp [checkGet, h, fieldUnderflow, hs, hn]

theorem checkGet_enough {side : Side} {n : Nat} {en : Engine} {w : Word} {c : BitVec 6}
    {rest : List Word} (h : checkWord side (some .tx) false en.config = none)
    (hs : Supplies en w c rest) (hn : n ≤ c.toNat) : checkGet side n en = none := by
  simp [checkGet, h, fieldUnderflow, supply_of hs, Nat.not_lt.2 hn]

theorem checkExec_of_get {side : Side} {en : Engine} {f : EngineFault}
    (h : checkGet side 16 en = some f) : checkExec side en = some f := by
  simp only [checkExec, h]

theorem checkExec_of_error {side : Side} {en : Engine} {w : Word} {c : BitVec 6}
    {rest : List Word} {f : EngineFault} (h : checkGet side 16 en = none)
    (hs : Supplies en w c rest)
    (hr : readExecutable en.config (w.extractLsb' 16 16) = .error f) :
    checkExec side en = some f := by
  simp only [checkExec, h, supply_of hs, execField_eq, hr]

theorem checkExec_of_ok {side : Side} {en : Engine} {w : Word} {c : BitVec 6}
    {rest : List Word} {x : Executable} (h : checkGet side 16 en = none)
    (hs : Supplies en w c rest)
    (hr : readExecutable en.config (w.extractLsb' 16 16) = .ok x) : checkExec side en = none := by
  simp only [checkExec, h, supply_of hs, execField_eq, hr]

/-- A word that `GET EXEC` may execute is checked as it would be on its own. -/
theorem wordCheck_of_executable {j : Instr} {x : Executable} (h : executable j = some x)
    (c : EngineConfig) :
    checkWord x.side none (x.set.any fun p => targetPinMissing c p.1) c = wordCheck j c := by
  cases j <;> cases h <;> rfl

theorem executable_isSome_iff (j : Instr) : (executable j).isSome = true ↔ MayBeExecuted j := by
  cases j <;> simp [executable, MayBeExecuted, Instr.op]

theorem directionReady_of_mayBeExecuted {j : Instr} (h : MayBeExecuted j) (c : EngineConfig) :
    DirectionReady j c := by
  rcases h with h | h <;> simp only [DirectionReady, h]

theorem readExecutable_illegal {c : EngineConfig} {field : OpWord} {r : DecodeError}
    (h : decode field = .illegal r) : readExecutable c field = .error .illegalEncoding := by
  simp only [readExecutable, h]

theorem readExecutable_notAllowed {c : EngineConfig} {field : OpWord} {j : Instr}
    (h : decode field = .legal j) (hj : ¬ MayBeExecuted j) :
    readExecutable c field = .error .execNotAllowed := by
  have hx : executable j = none := by
    simpa using mt (executable_isSome_iff j).1 hj
  simp only [readExecutable, h, hx]

theorem readExecutable_noPin {c : EngineConfig} {field : OpWord} {j : Instr}
    (h : decode field = .legal j) (hj : MayBeExecuted j) (hp : PinMissing j c) :
    readExecutable c field = .error .noPin := by
  obtain ⟨x, hx⟩ := Option.isSome_iff_exists.1 ((executable_isSome_iff j).2 hj)
  simp only [readExecutable, h, hx, wordCheck_of_executable hx,
    wordCheck_noPin (directionReady_of_mayBeExecuted hj c) hp]

theorem readExecutable_of_executable {c : EngineConfig} {field : OpWord} {j : Instr}
    {x : Executable} (h : decode field = .legal j) (hx : executable j = some x)
    (hp : ¬ PinMissing j c) : readExecutable c field = .ok x := by
  have hj : MayBeExecuted j := (executable_isSome_iff j).1 (by rw [hx]; rfl)
  simp only [readExecutable, h, hx, wordCheck_of_executable hx,
    wordCheck_ok (directionReady_of_mayBeExecuted hj c) hp]

/-- The turn of an engine that fetches an illegal word (R122 check 1). -/
theorem turn_of_illegal {s : State} {e : EngineId} {r : DecodeError}
    (ha : s.activity e = .evaluating) (h : decode (fetch (s.engine e)) = .illegal r) :
    s.turn exec e =
      .next { eng := { s.engine e with fault := some .illegalEncoding }, req := Requests.none } :=
  turn_fault ha (by simp only [evaluateFetched, h]; rfl)

/-- Settles O9: the checks of a word are `checkOf`, and `exec_fault` says that the one that fails is all
that happens. -/
theorem faultChecksInOrder : Obligations.FaultChecksInOrder := by
  refine ⟨fun s e r ha h => turn_of_illegal ha h, fun i s hw => ⟨fun hd => ?_, fun hd => ⟨fun hp => ?_,
    fun hp => ⟨?_, ?_⟩⟩⟩⟩
  · exact exec_fault (checkOf_of_wordCheck hw (wordCheck_wrongDirection hd))
  · exact exec_fault (checkOf_of_wordCheck hw (wordCheck_noPin hd hp))
  · have hok := wordCheck_ok hd hp
    rintro side dly m (rfl | rfl) h0 hn
    · exact exec_fault (checkGet_underflow hok h0 hn)
    · exact exec_fault (checkGet_underflow hok h0 hn)
  · rintro side dly rfl
    have hok : checkWord side (some .tx) false s.me.config = none := wordCheck_ok hd hp
    refine ⟨fun h0 hn => exec_fault (checkExec_of_get (checkGet_underflow hok h0 hn)),
      fun w c rest hs hc => ?_⟩
    have hget := checkGet_enough hok hs hc
    refine ⟨fun r hr => ?_, fun j hj => ⟨fun hn => ?_, fun hy hmiss => ?_⟩⟩
    · exact exec_fault (checkExec_of_error hget hs (readExecutable_illegal hr))
    · exact exec_fault (checkExec_of_error hget hs (readExecutable_notAllowed hj hn))
    · exact exec_fault (checkExec_of_error hget hs (readExecutable_noPin hj hy hmiss))

/-! ### What a word answers -/

/-- R122, R123: word `i` evaluated in `s` answers a next state within the frame of a word, in which the
evaluated engine, the output pins and the flags are `en`, `out` and `flags`. -/
def Answers (i : Instr) (s : State) (en : Engine) (out : OutPins) (flags : BitVec 4) : Prop :=
  ∃ u, exec i s = .next u ∧ WordFrame s u ∧ u.me = en ∧ u.out = out ∧ u.flags = flags

/-- A word that passes its checks answers what its body asks. -/
theorem answers_of_body {i : Instr} {s : State} {body : State → State} {en : Engine} {out : OutPins}
    {flags : BitVec 4} (hx : exec i s = evaluate none body s)
    (hen : (body (s.setReq Requests.none)).req.applyEngine (body (s.setReq Requests.none)).me = en)
    (hout : (body (s.setReq Requests.none)).req.drive s.out = out)
    (hflags : resolveFlags s.flags (body (s.setReq Requests.none)).req.flagSet
      (body (s.setReq Requests.none)).req.flagClr = flags) : Answers i s en out flags := by
  have hu : exec i s = .next (commit (body (s.setReq Requests.none))) := hx.trans (evaluate_ok body s)
  have happ := exec_applied hu
  refine ⟨_, hu, happ.frame, ?_, ?_, ?_⟩
  · rw [commit_me, hen]
  · rw [happ.out, commit_req, hout]
  · rw [happ.flags, commit_req, hflags]

@[simp] theorem flags_of_none (f : BitVec 4) :
    resolveFlags f Requests.none.flagSet Requests.none.flagClr = f := resolveFlags_none f

/-- An engine whose word has completed and goes on to the next slot (R124). -/
def completedEngine (dly : BitVec 3) (en : Engine) : Engine :=
  { en with pc := en.pc + 1, dly := dly }

/-- What a word leaves that only completes. -/
theorem kept_of_completed {s u : State} {dly : BitVec 3} (h : u.me = completedEngine dly s.me) :
    PackerKept s u ∧ StallsKept s u ∧ CountersKept s u ∧ Completed dly s u := by
  unfold StallsKept CountersKept Completed CompletedAt
  rw [h]
  exact ⟨by constructor <;> rw [h] <;> rfl, ⟨rfl, rfl⟩, ⟨rfl, rfl⟩, rfl, rfl, rfl⟩

/-- A word that only performs its side action and completes. -/
theorem answers_completion {i : Instr} {side : Side} {dly : BitVec 3} {s : State}
    (hx : exec i s = evaluate none (fun t => complete dly (sideAction side t)) s) :
    Answers i s (completedEngine dly s.me) (sideWritten s.me.config.sideSel side s.out) s.flags := by
  refine answers_of_body hx ?_ ?_ ?_ <;> simp [completedEngine]

/-! ### NOP (R135) -/

theorem answers_nop {side : Side} {s : State} (h : SideReady side s) (dly : BitVec 3) :
    Answers (.nop side dly) s (completedEngine dly s.me)
      (sideWritten s.me.config.sideSel side s.out) s.flags :=
  answers_completion (by rw [exec, execNop, checkWord_none h])

/-- Settles O21: a `NOP` is the completion and its side action. -/
theorem nopResult : Obligations.NopResult := by
  intro side dly s hs
  obtain ⟨u, hu, hframe, hme, hout, hflags⟩ := answers_nop hs dly
  obtain ⟨hpacker, hstalls, hcounters, hdone⟩ := kept_of_completed hme
  exact ⟨u, hu, hframe, hpacker, hstalls, hcounters, hout, hflags, hdone⟩

/-! ### JMP (R94, R125) -/

/-- An engine after a jump to `slot`, with the decrement of its counter (R125). -/
def jumpedEngine (cond : Cond) (slot : Slot) (dly : BitVec 3) (en : Engine) : Engine :=
  { en with
    x := if cond = .xDec then en.x - 1 else en.x
    y := if cond = .yDec then en.y - 1 else en.y
    pc := slot
    dly := dly }

theorem answers_jmp {side : Side} {s : State} (h : SideReady side s) (dly : BitVec 3) (cond : Cond)
    (target : Slot) :
    Answers (.jmp side dly cond target) s
      (jumpedEngine cond (if jumpTaken s cond then target else s.me.pc + 1) dly s.me)
      (sideWritten s.me.config.sideSel side s.out) s.flags := by
  have hj : jumpTaken (s.setReq Requests.none) cond = jumpTaken s cond := rfl
  refine answers_of_body (by rw [exec, execJmp, checkWord_none h]) ?_ ?_ ?_ <;>
    simp [jumpedEngine, hj]

/-- Settles O10: the engine that a jump leaves is `jumpedEngine`, at the slot that `jumpTaken`
selects. -/
theorem jmpResult : Obligations.JmpResult := by
  intro side dly cond target s hs
  obtain ⟨u, hu, hframe, hme, hout, hflags⟩ := answers_jmp hs dly cond target
  refine ⟨u, hu, hframe, ?_, ?_, hout, hflags, ?_, ?_, fun hc => ?_, fun hc => ?_⟩
  · constructor <;> rw [hme] <;> rfl
  · constructor <;> rw [hme] <;> rfl
  · rw [hme]; rfl
  · rw [hme]; rfl
  · rw [if_pos ((jumpTaken_iff s cond).2 hc)] at hme
    refine ⟨?_, ?_, ?_⟩ <;> rw [hme] <;> rfl
  · rw [if_neg (mt (jumpTaken_iff s cond).1 hc)] at hme
    refine ⟨?_, ?_, ?_⟩ <;> rw [hme] <;> rfl

/-! ### A jump to its own slot (R139) -/

theorem repeatExec_of_next {i : Instr} {s u : State} (h : exec i s = .next u) (n : Nat) :
    repeatExec i (n + 1) s = repeatExec i n u := by simp only [repeatExec, h]

theorem repeatExec_succ {i : Instr} {s t : State} {n : Nat} (h : repeatExec i n s = .next t) :
    repeatExec i (n + 1) s = exec i t := by
  induction n generalizing s with
  | zero =>
    rw [← Host.Outcome.next.inj h]
    obtain ⟨u, hu⟩ := exec_next i s
    rw [repeatExec_of_next hu, hu]
    rfl
  | succ n ih =>
    obtain ⟨u, hu⟩ := exec_next i s
    rw [repeatExec_of_next hu] at h ⊢
    exact ih h

/-- One evaluation of `JMP X--, slot` (R125). -/
theorem exec_jmp_xDec (slot : Slot) (s : State) :
    ∃ u, exec (.jmp .none 0 .xDec slot) s = .next u ∧ u.me.x = s.me.x - 1 ∧
      u.me.pc = if s.me.x = 0 then s.me.pc + 1 else slot := by
  obtain ⟨u, hu, -, hme, -, -⟩ := answers_jmp (side := .none) (s := s) (.inl rfl) 0 .xDec slot
  refine ⟨u, hu, by rw [hme]; rfl, ?_⟩
  rw [hme]
  by_cases h0 : s.me.x = 0 <;> simp [jumpedEngine, jumpTaken, h0]

/-- R139: as long as X lasts, the jump stays in its slot and X counts its evaluations. -/
theorem repeatExec_jmp_xDec (s : State) (n : Nat) (hn : n ≤ s.me.x.toNat) :
    ∃ t, repeatExec (.jmp .none 0 .xDec s.me.pc) n s = .next t ∧ t.me.pc = s.me.pc ∧
      t.me.x = s.me.x - BitVec.ofNat 32 n := by
  induction n with
  | zero => exact ⟨s, rfl, rfl, (BitVec.sub_zero s.me.x).symm⟩
  | succ n ih =>
    obtain ⟨t, ht, hpc, hx⟩ := ih (by omega)
    obtain ⟨u, hu, hux, hupc⟩ := exec_jmp_xDec s.me.pc t
    have hlt := s.me.x.isLt
    have hne : t.me.x ≠ 0 := by
      rw [hx]
      bv_omega
    refine ⟨u, by rw [repeatExec_succ ht, hu], by rw [hupc, if_neg hne], ?_⟩
    rw [hux, hx]
    bv_omega

/-- Settles O22: after C evaluations X is 0, and the next one leaves the slot. -/
theorem busyWaitTakesCountPlusOne : Obligations.BusyWaitTakesCountPlusOne := by
  intro s
  refine ⟨fun n hn => repeatExec_jmp_xDec s n hn, ?_⟩
  obtain ⟨t, ht, hpc, hx⟩ := repeatExec_jmp_xDec s s.me.x.toNat (Nat.le_refl _)
  have hzero : t.me.x = 0 := by simp [hx]
  obtain ⟨u, hu, hux, hupc⟩ := exec_jmp_xDec s.me.pc t
  refine ⟨u, by rw [repeatExec_succ ht, hu], by rw [hupc, if_pos hzero, hpc], ?_⟩
  rw [hux, hzero]
  rfl

/-! ### WAIT (R95, R126) -/

theorem checkWait_none {side : Side} {dly : BitVec 3} {level : Bool} {src : WaitSrc} {consume : Bool}
    {s : State} (hw : (Instr.wait side dly level src consume).wellFormed = true)
    (hs : SideReady side s) : checkWait side dly level src consume s.me.config = none := by
  rw [checkWait, if_pos hw, checkWord_none hs]

section wait
variable {side : Side} {dly : BitVec 3} {level : Bool} {src : WaitSrc} {consume : Bool} {s : State}
  (hw : (Instr.wait side dly level src consume).wellFormed = true) (hs : SideReady side s)
include hw hs

theorem exec_wait_over (h : WaitOver s level src) :
    exec (.wait side dly level src consume) s =
      evaluate none (fun t => complete dly (consumeFlag src consume (sideAction side t))) s := by
  have hv : waitValue (s.setReq Requests.none) src = level := (waitValue_eq_iff s level src).2 h
  rw [exec, execWait, checkWait_none hw hs, evaluate_ok, evaluate_ok, if_pos hv]

theorem exec_wait_held (h : ¬ WaitOver s level src) :
    exec (.wait side dly level src consume) s = evaluate none (sideAction side) s := by
  have hv : waitValue (s.setReq Requests.none) src ≠ level := mt (waitValue_eq_iff s level src).1 h
  rw [exec, execWait, checkWait_none hw hs, evaluate_ok, evaluate_ok, if_neg hv]

theorem answers_wait_over (h : WaitOver s level src) :
    Answers (.wait side dly level src consume) s (completedEngine dly s.me)
      (sideWritten s.me.config.sideSel side s.out) (flagsAfterWait src consume s.flags) := by
  refine answers_of_body (exec_wait_over hw hs h) ?_ ?_ ?_
  · simp [completedEngine]
  · simp
  · exact flags_after_consume src consume _ s.flags (by simp [Requests.none]) (by simp [Requests.none])

theorem answers_wait_held (h : ¬ WaitOver s level src) :
    Answers (.wait side dly level src consume) s s.me
      (sideWritten s.me.config.sideSel side s.out) s.flags := by
  refine answers_of_body (exec_wait_held hw hs h) ?_ ?_ ?_ <;> simp

end wait

/-- Settles O11: a `WAIT` that is over completes, and only a consuming one asks for a clear of its
flag. -/
theorem waitCompletes : Obligations.WaitCompletes := by
  intro side dly level src consume s hw hs hover
  obtain ⟨u, hu, hframe, hme, hout, hflags⟩ := answers_wait_over hw hs hover
  obtain ⟨hpacker, hstalls, hcounters, hdone⟩ := kept_of_completed hme
  exact ⟨u, hu, hframe, hpacker, hstalls, hcounters, hout, hflags, hdone⟩

/-- Settles O12: a `WAIT` that is not over leaves its engine as it was. -/
theorem waitHolds : Obligations.WaitHolds := by
  intro side dly level src consume s hw hs hover
  obtain ⟨u, hu, hframe, hme, hout, hflags⟩ := answers_wait_held hw hs hover
  refine ⟨u, hu, hframe, ?_, ?_, ?_, hout, hflags, ?_, ?_, ?_⟩
  · constructor <;> rw [hme]
  · constructor <;> rw [hme]
  · constructor <;> rw [hme]
  all_goals rw [hme]

/-! ### SETO and LOAD (R133, R134) -/

theorem answers_seto {side : Side} {target : SetTarget} {v : Bool} {dly : BitVec 3} {s : State}
    (h : ¬ PinMissing (.seto side dly target v) s.me.config) :
    Answers (.seto side dly target v) s (completedEngine dly s.me)
      (outAfterSet s.me.config.sideSel target v (sideWritten s.me.config.sideSel side s.out))
      (flagsAfterSet target v s.flags) := by
  have hcheck : checkWord side none (targetPinMissing s.me.config target) s.me.config = none :=
    wordCheck_ok (i := .seto side dly target v) trivial h
  refine answers_of_body (by rw [exec, execSeto, hcheck]) ?_ ?_ ?_
  · simp [completedEngine]
  · simp
  · exact flags_after_setTarget target v _ s.flags (by simp [Requests.none]) (by simp [Requests.none])

/-- Settles O19: a `SETO` whose pins are there completes, and its write comes after that of its
side action. -/
theorem setoResult : Obligations.SetoResult := by
  intro side dly target v s h
  obtain ⟨u, hu, hframe, hme, hout, hflags⟩ := answers_seto h
  obtain ⟨hpacker, hstalls, hcounters, hdone⟩ := kept_of_completed hme
  exact ⟨u, hu, hframe, hpacker, hstalls, hcounters, hout, hflags, hdone⟩

theorem answers_load {side : Side} {s : State} (h : SideReady side s) (dly : BitVec 3) (dest : Dest)
    (src : LoadSrc) :
    Answers (.load side dly dest src) s
      (completedEngine dly (storeCounter dest (loadOperand s src) s.me))
      (sideWritten s.me.config.sideSel side s.out) s.flags := by
  have hv : loadValue (s.setReq Requests.none) src = loadOperand s src := loadValue_eq _ src
  refine answers_of_body (by rw [exec, execLoad, checkWord_none h]) ?_ ?_ ?_ <;>
    simp [completedEngine, hv]

/-- Settles O20: a `LOAD` stores its operand in one counter and completes. -/
theorem loadResult : Obligations.LoadResult := by
  intro side dly dest src s hs
  obtain ⟨u, hu, hframe, hme, hout, hflags⟩ := answers_load hs dly dest src
  refine ⟨u, hu, hframe, ?_, ?_, hout, hflags, ?_, ?_, ?_, ?_, ?_⟩
  · constructor <;> rw [hme] <;> cases dest <;> rfl
  · constructor <;> rw [hme] <;> cases dest <;> rfl
  all_goals rw [hme]; cases dest <;> rfl

/-! ### Transfers that move no bit (R127, R129, R130) -/

theorem exec_shiftIn {side : Side} {s : State} (hs : SideReady side s) (hd : s.me.config.dir = .rx)
    (dly : BitVec 3) (count : Count) :
    exec (.shiftIn side dly count) s = evaluate none (fun t =>
      if bitsLeft s count = 0 then complete dly (sideAction side t)
      else advanceTransfer (bitsLeft s count) dly
        (sampleBit (Input.pix s.input s.me.config.bank) (sideAction side t))) s := by
  rw [exec, execShiftIn, checkWord_some hs hd]
  rfl

theorem exec_shiftOut {side : Side} {s : State} (hs : SideReady side s)
    (hd : s.me.config.dir = .tx) (hp : s.me.config.pixDrv = true) (dly : BitVec 3) (count : Count) :
    exec (.shiftOut side dly count) s = evaluate none (fun t =>
      if bitsLeft s count = 0 then complete dly (sideAction side t)
      else match supply s.me with
        | none => requestTxStall (sideAction side t)
        | some u => advanceTransfer (bitsLeft s count) dly
            (writePix u.word.msb (takeBits u 1 (sideAction side t)))) s := by
  rw [exec, execShiftOut, hp, Bool.not_true, checkWord_some hs hd]
  rfl

/-- Settles O15: with no bit left both words are the completion and their side action. -/
theorem emptyTransferCompletes : Obligations.EmptyTransferCompletes := by
  intro side dly k s i hs hi hrem hlut
  have hleft : bitsLeft s (.lut k) = 0 := by rw [bitsLeft, if_pos hrem]; exact hlut
  have hx : exec i s = evaluate none (fun t => complete dly (sideAction side t)) s := by
    rcases hi with ⟨rfl, hd⟩ | ⟨rfl, hd, hp⟩
    · simp only [exec_shiftIn hs hd, hleft, if_true]
    · simp only [exec_shiftOut hs hd hp, hleft, if_true]
  obtain ⟨u, hu, hframe, hme, hout, hflags⟩ := answers_completion hx
  obtain ⟨hpacker, hstalls, hcounters, hdone⟩ := kept_of_completed hme
  exact ⟨u, hu, hframe, hpacker, hstalls, hcounters, hout, hflags, hdone⟩

/-- R130: a word of a TX engine with nothing to take asks for `tx_stall`. -/
theorem exec_dry {i : Instr} {s : State} (hs : SideReady i.side s) (hd : s.me.config.dir = .tx)
    (hu : supply s.me = none)
    (hi : i.op = .get ∨ ∃ side dly count, i = .shiftOut side dly count ∧
      s.me.config.pixDrv = true ∧ bitsLeft s count ≠ 0) :
    exec i s = evaluate none (fun t => requestTxStall (sideAction i.side t)) s := by
  rcases hi with hi | ⟨side, dly, count, rfl, hp, hleft⟩
  · have hc := check_of_dry hs hd hu (.inl hi)
    cases i <;> simp only [Instr.op, reduceCtorEq] at hi <;> simp only [checkOf] at hc
    case getX => simp only [exec, execGetX, getField, hc, evaluate_ok, me_setReq, hu, Instr.side]
    case getY => simp only [exec, execGetY, getField, hc, evaluate_ok, me_setReq, hu, Instr.side]
    case getExec => simp only [exec, execGetExec, hc, evaluate_ok, me_setReq, hu, Instr.side]
  · have hx := exec_shiftOut (side := side) hs hd hp dly count
    simp only [hu, if_neg hleft] at hx
    exact hx

theorem answers_dry {i : Instr} {side : Side} {s : State}
    (hx : exec i s = evaluate none (fun t => requestTxStall (sideAction side t)) s) :
    Answers i s { s.me with txStall := true } (sideWritten s.me.config.sideSel side s.out)
      s.flags := by
  refine answers_of_body hx ?_ ?_ ?_
  · simp [Requests.applyEngine, requestTxStall, Requests.none, resolveSticky, nextFifo]
  · simp
  · simp [requestTxStall]

/-- Settles O16: each of the four words asks for `tx_stall` and leaves its engine otherwise as it
was. -/
theorem emptyFifoHolds : Obligations.EmptyFifoHolds := by
  intro side dly m count r s i hs hd h0 hf hi
  have hu := supply_none h0 hf
  have hx : exec i s = evaluate none (fun t => requestTxStall (sideAction side t)) s := by
    rcases hi with rfl | rfl | rfl | ⟨rfl, hp, hr⟩
    · exact exec_dry hs hd hu (.inl rfl)
    · exact exec_dry hs hd hu (.inl rfl)
    · exact exec_dry hs hd hu (.inl rfl)
    · exact exec_dry hs hd hu
        (.inr ⟨_, _, _, rfl, hp, (transferLeft_iff s count).1 ⟨r, hr⟩⟩)
  obtain ⟨u, hu, hframe, hme, hout, hflags⟩ := answers_dry hx
  refine ⟨u, hu, hframe, ?_, ?_, hout, hflags, ?_, ?_, ?_, ?_, ?_⟩
  · constructor <;> rw [hme]
  · constructor <;> rw [hme]
  all_goals rw [hme]

/-! ### One bit of a transfer (R127 to R130) -/

/-- An engine whose transfer moved one bit of the `r` that were left, the last of which completes the
word (R127, R129). -/
def movedEngine (r : Word) (dly : BitVec 3) (en : Engine) : Engine :=
  { en with
    rem := r - 1
    pc := if r - 1 = 0 then en.pc + 1 else en.pc
    dly := if r - 1 = 0 then dly else en.dly }

theorem applyEngine_moved (q : Requests) (r : Word) (dly : BitVec 3) (en : Engine) :
    q.applyEngine (movedEngine r dly en) = movedEngine r dly (q.applyEngine en) := rfl

theorem me_advanceTransfer_moved (r : Word) (dly : BitVec 3) (s : State) :
    (advanceTransfer r dly s).me = movedEngine r dly s.me := me_advanceTransfer r dly s

theorem transferMoved_of {s u : State} {r : Word} {dly : BitVec 3} {en : Engine}
    (h : u.me = movedEngine r dly en) (hpc : en.pc = s.me.pc) (hdly : en.dly = s.me.dly)
    (hfault : en.fault = s.me.fault) : TransferMoved r dly s u := by
  have hlast : r - 1 = 0 ↔ r = 1 := by bv_omega
  refine ⟨by rw [h]; rfl, fun h1 => ?_, fun h1 => ?_⟩
  · have hlast := hlast.2 h1
    have hdone : u.me = { en with rem := r - 1, pc := en.pc + 1, dly := dly } := by
      rw [h, movedEngine, if_pos hlast, if_pos hlast]
    exact ⟨by rw [hdone, ← hpc], by rw [hdone], by rw [hdone, ← hfault]⟩
  · have hmore := mt hlast.1 h1
    have hgoes : u.me = { en with rem := r - 1 } := by
      rw [h, movedEngine, if_neg hmore, if_neg hmore]
    exact ⟨by rw [hgoes, ← hpc], by rw [hgoes, ← hdly], by rw [hgoes, ← hfault]⟩

/-- An engine after one sample (R127, R128): the 32nd bit delivers the word, or drops it with
`rx_stall`. -/
def sampledEngine (depth : Nat) (bit : Bool) (en : Engine) : Engine :=
  let w := shiftInto en.sr bit
  if en.cnt + 1 = 32 then
    if en.fifo.length < depth then { en with sr := 0, cnt := 0, fifo := en.fifo ++ [w] }
    else { en with sr := 0, cnt := 0, rxStall := true }
  else { en with sr := w, cnt := en.cnt + 1 }

theorem applyEngine_sampleBit (bit : Bool) (side : Side) (s : State) :
    (sampleBit bit (sideAction side (s.setReq Requests.none))).req.applyEngine
      (sampleBit bit (sideAction side (s.setReq Requests.none))).me =
    sampledEngine s.params.fifoDepth bit s.me := by
  simp only [sampleBit, deliver, sampledEngine, me_sideAction, me_setReq, me_mapMe]
  split
  · have hp : ((sideAction side (s.setReq Requests.none)).mapMe fun en =>
        { en with sr := 0, cnt := 0 }).params = s.params := by simp
    rw [hp]
    split
    · simp [requestPush, Requests.applyEngine, Requests.none, resolveSticky, nextFifo]
    · simp [requestRxStall, Requests.applyEngine, Requests.none, resolveSticky, nextFifo]
  · simp

/-- A sample writes no pin and no flag. -/
theorem req_sampleBit (bit : Bool) (s : State) :
    (sampleBit bit s).req.drive = s.req.drive ∧
    (sampleBit bit s).req.flagSet = s.req.flagSet ∧ (sampleBit bit s).req.flagClr = s.req.flagClr := by
  unfold sampleBit deliver
  split
  · split <;> exact ⟨rfl, rfl, rfl⟩
  · exact ⟨rfl, rfl, rfl⟩

theorem answers_shiftIn {side : Side} {s : State} {count : Count} {r : Word} (hs : SideReady side s)
    (hd : s.me.config.dir = .rx) (hr : TransferLeft s count r) (dly : BitVec 3) :
    Answers (.shiftIn side dly count) s
      (movedEngine r dly
        (sampledEngine s.params.fifoDepth (Input.pix s.input s.me.config.bank) s.me))
      (sideWritten s.me.config.sideSel side s.out) s.flags := by
  have hx := exec_shiftIn hs hd dly count
  simp only [bitsLeft_of hr, if_neg hr.1] at hx
  obtain ⟨hdrive, hset, hclr⟩ := req_sampleBit (Input.pix s.input s.me.config.bank)
    (sideAction side (s.setReq Requests.none))
  refine answers_of_body hx ?_ ?_ ?_
  · rw [req_advanceTransfer, me_advanceTransfer_moved, applyEngine_moved, applyEngine_sampleBit]
  · rw [req_advanceTransfer, hdrive]; simp
  · rw [req_advanceTransfer, hset, hclr]; simp

/-- What a sample leaves of an engine. -/
theorem sampledEngine_keeps (depth : Nat) (bit : Bool) (en : Engine) :
    (sampledEngine depth bit en).x = en.x ∧ (sampledEngine depth bit en).y = en.y ∧
    (sampledEngine depth bit en).pc = en.pc ∧ (sampledEngine depth bit en).dly = en.dly ∧
    (sampledEngine depth bit en).fault = en.fault ∧
    (sampledEngine depth bit en).txStall = en.txStall := by
  unfold sampledEngine
  dsimp only
  split
  · split <;> exact ⟨rfl, rfl, rfl, rfl, rfl, rfl⟩
  · exact ⟨rfl, rfl, rfl, rfl, rfl, rfl⟩

/-- Settles O13: the engine that `IN` leaves is `movedEngine` over `sampledEngine`, in the three
cases of R128. -/
theorem inSamplesOneBit : Obligations.InSamplesOneBit := by
  intro side dly count s r hs hd hr w
  have hw : shiftInto s.me.sr (Input.pix s.input s.me.config.bank) = w := shiftInto_eq _ _
  obtain ⟨u, hu, hframe, hme, hout, hflags⟩ := answers_shiftIn hs hd hr dly
  obtain ⟨hx, hy, hpc, hdly, hfault, htx⟩ := sampledEngine_keeps s.params.fifoDepth
    (Input.pix s.input s.me.config.bank) s.me
  refine ⟨u, hu, hframe, ⟨by rw [hme]; exact hx, by rw [hme]; exact hy⟩, hout, hflags,
    by rw [hme]; exact htx, transferMoved_of hme hpc hdly hfault, fun h => ?_, fun h => ?_⟩
  · simp only [sampledEngine, if_neg h, hw] at hme
    rw [hme]; exact ⟨rfl, rfl, rfl, rfl⟩
  · simp only [sampledEngine, if_pos h, hw] at hme
    by_cases hroom : s.me.fifo.length < s.params.fifoDepth
    · rw [if_pos hroom] at hme
      rw [hme]; exact ⟨rfl, rfl, fun _ => ⟨rfl, rfl⟩, fun hno => absurd hroom hno⟩
    · rw [if_neg hroom] at hme
      rw [hme]; exact ⟨rfl, rfl, fun hyes => absurd hyes hroom, fun _ => ⟨rfl, rfl⟩⟩

/-! ### Bits taken from a supply (R129 to R131) -/

/-- An engine after `n` bits are taken from its supply (R129, R131). -/
def takenEngine (n : Nat) (w : Word) (c : BitVec 6) (rest : List Word) (en : Engine) : Engine :=
  { en with sr := w <<< n, cnt := c - BitVec.ofNat 6 n, fifo := rest }

theorem takenEngine_counters (n : Nat) (w : Word) (c : BitVec 6) (rest : List Word) (en : Engine) :
    takenEngine n w c rest en = { takenEngine n w c rest en with x := en.x, y := en.y } := rfl

/-- The requests of a word that takes bits do one thing to its engine: a refill pops the FIFO. -/
theorem applyEngine_taken {q : Requests} {en ten : Engine} {w : Word} {c : BitVec 6}
    {rest : List Word} (h : Supplies en w c rest) (hpop : q.pop = decide (en.cnt = 0))
    (hpush : q.push = none) (hrx : q.rxStall = false) (htx : q.txStall = false)
    (hfifo : ten.fifo = en.fifo) : q.applyEngine ten = { ten with fifo := rest } := by
  simp [Requests.applyEngine, hpop, hpush, hrx, htx, hfifo, resolveSticky, nextFifo, rest_of h]

theorem answers_shiftOut {side : Side} {s : State} {count : Count} {r w : Word} {c : BitVec 6}
    {rest : List Word} (hs : SideReady side s) (hd : s.me.config.dir = .tx)
    (hp : s.me.config.pixDrv = true) (hr : TransferLeft s count r) (hsup : Supplies s.me w c rest)
    (dly : BitVec 3) :
    Answers (.shiftOut side dly count) s (movedEngine r dly (takenEngine 1 w c rest s.me))
      { sideWritten s.me.config.sideSel side s.out with pix := w.msb } s.flags := by
  have hx := exec_shiftOut hs hd hp dly count
  simp only [bitsLeft_of hr, if_neg hr.1, supply_of hsup] at hx
  refine answers_of_body hx ?_ ?_ ?_
  · rw [req_advanceTransfer, me_advanceTransfer_moved, applyEngine_moved, applyEngine_writePix,
      me_writePix, applyEngine_taken hsup] <;> simp [Requests.none, takenEngine]
  · simp
  · simp [writePix]

/-- Settles O14: the engine that `OUT` leaves is `movedEngine` over `takenEngine`. -/
theorem outDrivesOneBit : Obligations.OutDrivesOneBit := by
  intro side dly count s r w c rest hs hd hp hr hsup
  obtain ⟨u, hu, hframe, hme, hout, hflags⟩ := answers_shiftOut hs hd hp hr hsup dly
  refine ⟨u, hu, hframe, ?_, ?_, hflags, hout, ?_, ?_, ?_, transferMoved_of hme rfl rfl rfl⟩
  · constructor <;> rw [hme] <;> rfl
  · constructor <;> rw [hme] <;> rfl
  all_goals rw [hme]; rfl

/-- `GET` into a counter (R131). -/
def getInto (dest : Dest) (side : Side) (dly : BitVec 3) (m : BitVec 5) : Instr :=
  match dest with
  | .x => .getX side dly m
  | .y => .getY side dly m

theorem exec_getInto (dest : Dest) (side : Side) (dly : BitVec 3) (m : BitVec 5) (s : State) :
    exec (getInto dest side dly m) s =
      getField side dly (m.toNat + 1) (storeCounter dest) s := by cases dest <;> rfl

theorem answers_getInto {side : Side} {s : State} {m : BitVec 5} {w : Word} {c : BitVec 6}
    {rest : List Word} (hs : SideReady side s) (hd : s.me.config.dir = .tx)
    (hsup : Supplies s.me w c rest) (hn : m.toNat + 1 ≤ c.toNat) (dest : Dest) (dly : BitVec 3) :
    Answers (getInto dest side dly m) s
      (completedEngine dly (storeCounter dest (topBits w (m.toNat + 1))
        (takenEngine (m.toNat + 1) w c rest s.me)))
      (sideWritten s.me.config.sideSel side s.out) s.flags := by
  have hcheck := checkGet_enough (checkWord_some hs hd) hsup hn
  refine answers_of_body (body := fun t =>
    complete dly ((takeBits { word := w, cnt := c, refill := decide (s.me.cnt = 0) } (m.toNat + 1)
      (sideAction side t)).mapMe (storeCounter dest (topBits w (m.toNat + 1))))) ?_ ?_ ?_ ?_
  · simp only [exec_getInto, getField, hcheck, evaluate_ok, me_setReq, supply_of hsup]
  · rw [applyEngine_taken hsup] <;> cases dest <;>
      simp [Requests.none, takenEngine, completedEngine, storeCounter]
  · simp
  · simp

/-- What a word that takes `n` bits and completes leaves, besides the counters. -/
theorem kept_of_taken {s u : State} {dly : BitVec 3} {n : Nat} {x y w : Word} {c : BitVec 6}
    {rest : List Word} (hn : n ≤ c.toNat)
    (h : u.me = completedEngine dly { takenEngine n w c rest s.me with x := x, y := y }) :
    StallsKept s u ∧ FieldTaken n w c rest s u ∧ Completed dly s u ∧ u.me.x = x ∧ u.me.y = y := by
  have hcnt : u.me.cnt = c - BitVec.ofNat 6 n := by rw [h]; rfl
  have hstalls : StallsKept s u := by constructor <;> rw [h] <;> rfl
  have htaken : FieldTaken n w c rest s u :=
    { sr := by rw [h]; rfl
      cnt := by rw [hcnt, cnt_sub_toNat c n hn]
      rem := by rw [h]; rfl
      fifo := by rw [h]; rfl }
  have hdone : Completed dly s u := by refine ⟨?_, ?_, ?_⟩ <;> rw [h] <;> rfl
  exact ⟨hstalls, htaken, hdone, by rw [h]; rfl, by rw [h]; rfl⟩

/-- Settles O17: both words are `getInto`, whose value is `topBits` of the supply. -/
theorem getCounterResult : Obligations.GetCounterResult := by
  intro side dly m s w c rest hs hd hsup hn
  rw [← topBits_eq w m.toNat m.isLt]
  constructor
  · obtain ⟨u, hu, hframe, hme, hout, hflags⟩ := answers_getInto hs hd hsup hn .x dly
    obtain ⟨hstalls, htaken, hdone, hx, hy⟩ := kept_of_taken (y := s.me.y) hn hme
    exact ⟨u, hu, hframe, hstalls, hout, hflags, hx, hy, htaken, hdone⟩
  · obtain ⟨u, hu, hframe, hme, hout, hflags⟩ := answers_getInto hs hd hsup hn .y dly
    obtain ⟨hstalls, htaken, hdone, hx, hy⟩ := kept_of_taken (x := s.me.x) hn hme
    exact ⟨u, hu, hframe, hstalls, hout, hflags, hy, hx, htaken, hdone⟩

/-! ### GET EXEC (R132) -/

/-- The output registers after the `SETO` of an executed word, if it is one (R132, R133). -/
def executedOut (sel : SideSel) (x : Executable) (o : OutPins) : OutPins :=
  match x.set with
  | some (target, v) => outAfterSet sel target v (sideWritten sel x.side o)
  | none => sideWritten sel x.side o

/-- The flags after the `SETO` of an executed word, if it is one (R132, R133). -/
def executedFlags (x : Executable) (f : BitVec 4) : BitVec 4 :=
  match x.set with
  | some (target, v) => flagsAfterSet target v f
  | none => f

section runExecutable
variable (x : Executable) (s : State)

theorem me_runExecutable : (runExecutable x s).me = completedEngine x.dly s.me := by
  unfold runExecutable
  cases x.set <;> simp [completedEngine]

/-- An executed word asks for nothing of its engine. -/
theorem quiet_runExecutable :
    (runExecutable x s).req.push = s.req.push ∧ (runExecutable x s).req.pop = s.req.pop ∧
    (runExecutable x s).req.rxStall = s.req.rxStall ∧
    (runExecutable x s).req.txStall = s.req.txStall := by
  unfold runExecutable
  cases x.set <;> simp [quiet_setTarget]

theorem drive_runExecutable (o : OutPins) :
    (runExecutable x s).req.drive o = executedOut s.me.config.sideSel x (s.req.drive o) := by
  unfold runExecutable executedOut
  cases x.set <;> simp

theorem flags_after_runExecutable (f : BitVec 4) (hs : s.req.flagSet = 0) (hc : s.req.flagClr = 0) :
    resolveFlags f (runExecutable x s).req.flagSet (runExecutable x s).req.flagClr =
      executedFlags x f := by
  unfold runExecutable executedFlags
  cases x.set with
  | none => simp [hs, hc]
  | some p => exact flags_after_setTarget p.1 p.2 _ f (by simp [hs]) (by simp [hc])

end runExecutable

theorem answers_getExec {side : Side} {s : State} {w : Word} {c : BitVec 6} {rest : List Word}
    {x : Executable} (hs : SideReady side s) (hd : s.me.config.dir = .tx)
    (hsup : Supplies s.me w c rest) (hn : 16 ≤ c.toNat)
    (hx : readExecutable s.me.config (w.extractLsb' 16 16) = .ok x) (dly : BitVec 3) :
    Answers (.getExec side dly) s (completedEngine x.dly (takenEngine 16 w c rest s.me))
      (executedOut s.me.config.sideSel x (sideWritten s.me.config.sideSel side s.out))
      (executedFlags x s.flags) := by
  have hcheck := checkExec_of_ok (checkGet_enough (checkWord_some hs hd) hsup hn) hsup hx
  refine answers_of_body (body := fun t => runExecutable x (sideAction side
    (takeBits { word := w, cnt := c, refill := decide (s.me.cnt = 0) } 16 t))) ?_ ?_ ?_ ?_
  · simp only [exec, execGetExec, hcheck, evaluate_ok, me_setReq, supply_of hsup, execField_eq, hx]
  · rw [me_runExecutable, applyEngine_taken hsup] <;>
      simp [quiet_runExecutable, Requests.none, completedEngine, takenEngine]
  · simp [drive_runExecutable]
  · exact flags_after_runExecutable _ _ s.flags (by simp [Requests.none]) (by simp [Requests.none])

/-- Settles O18: in both cases the field is the `Executable` of the decoded word. -/
theorem getExecResult : Obligations.GetExecResult := by
  intro side dly s w c rest hs hd hsup hn
  refine ⟨fun side' dly' target v hj hp => ?_, fun side' dly' hj hp => ?_⟩
  all_goals
    have hx := readExecutable_of_executable hj rfl hp
    obtain ⟨u, hu, hframe, hme, hout, hflags⟩ := answers_getExec hs hd hsup hn hx dly
    rw [takenEngine_counters] at hme
    obtain ⟨hstalls, htaken, hdone, hcounters⟩ := kept_of_taken hn hme
    exact ⟨u, hu, hframe, hstalls, hcounters, htaken, hout, hflags, hdone⟩

/-! ### The turn of an engine (R120) -/

theorem busCmd_ctrl {s : State} {e : EngineId} {a b x y f : Bool}
    (h : s.busCmd = .ctrl e a b x y f) :
    ∃ d, s.input.host = .write (engineAddr e 0x20) d ∧ a = d.getLsbD 0 ∧ b = d.getLsbD 1 := by
  obtain ⟨addr, d, t, hw, ht, hacc⟩ := busCmd_accepted h (by simp) (by simp) (by simp)
  obtain ⟨rfl, ha, hb, -⟩ := hacc.ctrl _ _ _ _ _ _ rfl
  exact ⟨d, decodeAddr_inv_ctrl ht ▸ hw, ha, hb⟩

/-- R103: `RESTART` of an engine is bit 1 of a write of its `CTRL`. -/
theorem restarts_iff (s : State) (e : EngineId) : s.busCmd.restarts e = true ↔
    ∃ d, s.input.host = .write (engineAddr e 0x20) d ∧ d.getLsbD 1 = true := by
  refine ⟨fun h => ?_, fun ⟨d, hw, hd⟩ => by simp [busCmd_of_ctrl hw, ctrlCmd, BusCmd.restarts, hd]⟩
  unfold BusCmd.restarts at h
  split at h
  · next hc =>
    obtain ⟨d, hw, -, hb⟩ := busCmd_ctrl hc
    simp only [Bool.and_eq_true, decide_eq_true_eq] at h
    exact ⟨d, h.1 ▸ hw, hb ▸ h.2⟩
  · cases h

/-- R103, R136: `START` takes effect by bit 0 of a write of `CTRL` to a stopped engine. -/
theorem startsEngine_iff (s : State) (e : EngineId) : s.startsEngine e = true ↔
    ∃ d, s.input.host = .write (engineAddr e 0x20) d ∧
      d.getLsbD 0 = true ∧ (s.engine e).run = false := by
  simp only [State.startsEngine, Bool.and_eq_true, Bool.not_eq_true']
  refine ⟨fun ⟨h, hrun⟩ => ?_, fun ⟨d, hw, hd, hrun⟩ =>
    ⟨by simp [busCmd_of_ctrl hw, ctrlCmd, BusCmd.starts, hd], hrun⟩⟩
  unfold BusCmd.starts at h
  split at h
  · next hc =>
    obtain ⟨d, hw, ha, -⟩ := busCmd_ctrl hc
    simp only [Bool.and_eq_true, decide_eq_true_eq] at h
    exact ⟨d, h.1 ▸ hw, ha ▸ h.2, hrun⟩
  · cases h

/-- R120 b: what restarts an engine. -/
theorem restartsEngine_iff (s : State) (e : EngineId) : s.restartsEngine e = true ↔
    (s.busCmd.restarts e = true ∨ s.startsEngine e = true) ∨
    (e = .cap ∧ (s.engine e).rxStall = true) ∨ (e = .gen ∧ (s.engine e).txStall = true) := by
  cases e <;> simp [State.restartsEngine, State.capRecovery, State.genRecovery]

section activity
variable {s : State} {e : EngineId}

theorem activity_restarted (h : s.restartsEngine e = true) : s.activity e = .restarted := by
  simp [State.activity, h]

theorem activity_stopped (h : s.restartsEngine e = false)
    (hs : (s.engine e).run = false ∨ (s.engine e).fault ≠ none) : s.activity e = .stopped := by
  simp only [State.activity, h, if_pos hs]
  rfl

theorem activity_runs (h : s.restartsEngine e = false) (hr : (s.engine e).run = true)
    (hf : (s.engine e).fault = none) :
    s.activity e = if (s.engine e).dly ≠ 0 then .delaying else .evaluating := by
  simp [State.activity, h, hr, hf]

end activity

/-- Settles O7: `activity` tests the cases in the order of R120, and each has its turn. -/
theorem engineTurn : Obligations.EngineTurn := by
  intro s e
  refine ⟨fun hrst => ⟨_, steps_reset hrst, resetCycle_engine s e⟩, ?_,
    fun h => turn_restarted (activity_restarted h), fun h => ⟨fun hs =>
      turn_stopped (activity_stopped h hs), fun hr hf => ⟨fun hd => ?_, fun hd => ?_⟩⟩⟩
  · rw [restartsEngine_iff, restarts_iff, startsEngine_iff, ← exists_or]
    simp only [and_or_left]
  · exact turn_delaying (by rw [activity_runs h hr hf, if_pos hd])
  · have ha : s.activity e = .evaluating := by
      rw [activity_runs h hr hf, if_neg (not_not_intro hd)]
    refine ⟨fun r hill => turn_of_illegal ha hill, fun i hleg => ?_⟩
    obtain ⟨u, hu⟩ := exec_next i (s.focus e)
    exact ⟨u, hu, turn_of_evaluates ⟨ha, hleg⟩ hu⟩

/-! ### Restart and start by the host (R136, R137) -/

/-- The registers of an engine in the restart state (R137). -/
structure InRestart (en : Engine) : Prop where
  pc : en.pc = 0
  sr : en.sr = 0
  cnt : en.cnt = 0
  dly : en.dly = 0
  rem : en.rem = 0
  fault : en.fault = none

theorem engine_of_restart {s : State} {ts : Turns} {e : EngineId} (hts : s.turns exec = .next ts)
    (h : s.restartsEngine e = true) : (s.merge ts).engine e =
      s.nextEngine e { eng := restartEngine (s.engine e), req := Requests.none } := by
  rw [merge_engine, turns_get_of_turn hts (turn_restarted (activity_restarted h))]

theorem inRestart_of_restart {s : State} {ts : Turns} {e : EngineId} (hts : s.turns exec = .next ts)
    (h : s.restartsEngine e = true) : InRestart ((s.merge ts).engine e) := by
  rw [engine_of_restart hts h]
  exact ⟨rfl, rfl, rfl, rfl, rfl, rfl⟩

/-- R137: an engine in the restart state that runs evaluates its slot 0, if nothing restarts it. -/
theorem activity_of_inRestart {s : State} {e : EngineId} (h : InRestart (s.engine e))
    (hrun : (s.engine e).run = true) (hno : s.restartsEngine e = false) :
    s.activity e = .evaluating := by
  rw [activity_runs hno hrun h.fault, if_neg (not_not_intro h.dly)]

/-- Settles O25: the command restarts the engine, so that its turn is `restartEngine` and leaves it
`InRestart`. -/
theorem restartByHost : Obligations.RestartByHost := by
  intro s t e d hrst hw hd hstep
  obtain ⟨ts, -, hts, rfl⟩ := steps_cases_merge hstep hrst
  have hc := busCmd_of_ctrl hw
  have hre : s.restartsEngine e = true :=
    (restartsEngine_iff s e).2 (.inl (.inl ((restarts_iff s e).2 ⟨d, hw, hd⟩)))
  have hin := inRestart_of_restart hts hre
  refine ⟨turn_restarted (activity_restarted hre), hin.pc, hin.sr, hin.cnt, hin.dly, hin.rem,
    hin.fault, ?_, ?_, ?_, ?_, fun h0 => ?_, activity_of_inRestart hin⟩
  · rw [engine_of_restart hts hre]; rfl
  · rw [engine_of_restart hts hre]; rfl
  · simp [hc, ctrlCmd, BusCmd.nextProg]
  · simp [hc, ctrlCmd, BusCmd.nextConfig]
  · rw [merge_engine, nextEngine_run, State.startsEngine, hc, ctrlCmd, BusCmd.starts, h0]
    simp

/-! ### `START` of a running engine (R136)

No agent of the cycle sees the command: what each does is what it would do without the host. -/

/-- Words read their view alone (R8), so an engine that does the same thing in two states with the same
view takes the same turn. -/
theorem turn_of_sameView {s s' : State} {e : EngineId} (hv : SameView e s s')
    (ha : s'.activity e = s.activity e) : s'.turn exec e = s.turn exec e := by
  cases h : s.activity e with
  | restarted => rw [turn_restarted (ha.trans h), turn_restarted h, hv.engine]
  | stopped => rw [turn_stopped (ha.trans h), turn_stopped h, hv.engine]
  | delaying => rw [turn_delaying (ha.trans h), turn_delaying h, hv.engine]
  | evaluating =>
    cases hd : decode (fetch (s.engine e)) with
    | illegal r =>
      rw [turn_of_illegal (ha.trans h) (hv.engine ▸ hd), turn_of_illegal h hd, hv.engine]
    | legal i =>
      obtain ⟨u, v, hu, hu', heng, hreq⟩ := execDependsOnlyOnItsView i s s' e hv
      rw [turn_of_evaluates ⟨ha.trans h, hv.engine ▸ hd⟩ hu', turn_of_evaluates ⟨h, hd⟩ hu, heng,
        hreq]

theorem busCmd_withoutHost (s : State) (i : Input) (rest : List Input) :
    (s.withoutHost i rest).busCmd = .none := busCmd_idle rfl

theorem sameView_withoutHost {s : State} {i : Input} {rest : List Input} (hstim : s.stim = i :: rest)
    (e : EngineId) : SameView e s (s.withoutHost i rest) where
  engine := rfl
  params := rfl
  pins b := by rw [input_of_stim hstim]; cases b <;> exact ⟨rfl, rfl, rfl⟩
  edges _ := rfl
  flags := rfl
  lut := rfl

section startOfRunning
variable {s : State} {e : EngineId} {i : Input} {rest : List Input} (hstim : s.stim = i :: rest)
  (hc : s.busCmd = .ctrl e true false false false false) (hrun : (s.engine e).run = true)
include hc

theorem flushed_withoutHost (e' : EngineId) :
    (s.withoutHost i rest).flushed e' = s.flushed e' := by
  simp only [State.flushed, hc, busCmd_withoutHost, BusCmd.flushes, Bool.and_false]
  rfl

include hrun in
theorem startsEngine_withoutHost (e' : EngineId) :
    (s.withoutHost i rest).startsEngine e' = s.startsEngine e' := by
  simp only [State.startsEngine, hc, busCmd_withoutHost, BusCmd.starts]
  by_cases he : e = e'
  · subst he; simp [hrun]
  · simp [he]

include hrun in
theorem activity_withoutHost (e' : EngineId) :
    (s.withoutHost i rest).activity e' = s.activity e' := by
  simp only [State.activity, State.restartsEngine, startsEngine_withoutHost hc hrun, hc,
    busCmd_withoutHost, BusCmd.restarts, Bool.and_false]
  rfl

include hstim hrun in
theorem turns_withoutHost : (s.withoutHost i rest).turns exec = s.turns exec := by
  simp only [State.turns, turn_of_sameView (sameView_withoutHost hstim _)
    (activity_withoutHost hc hrun _)]

theorem moverWord_withoutHost : (s.withoutHost i rest).moverWord = s.moverWord := by
  simp only [State.moverWord, flushed_withoutHost hc]
  rfl

theorem feederWord_withoutHost : (s.withoutHost i rest).feederWord = s.feederWord := by
  simp only [State.feederWord, flushed_withoutHost hc]
  rfl

theorem playerWord_withoutHost (g : SyncGen) :
    (s.withoutHost i rest).playerWord g = s.playerWord g := by
  simp only [State.playerWord, flushed_withoutHost hc, hc, busCmd_withoutHost, BusCmd.controls]
  rfl

theorem nextCapture_withoutHost : (s.withoutHost i rest).nextCapture = s.nextCapture := by
  simp only [State.nextCapture, State.moverWrites, State.nextCx, State.nextWptr, State.nextWdOn,
    State.nextWdCtr, State.watchdogTimeout, State.watchdogCounts, State.watchdogLoad,
    State.capBoundary, State.moverActs, State.armed, moverWord_withoutHost hc, hc,
    busCmd_withoutHost, reduceCtorEq]
  rfl

theorem nextGeneration_withoutHost : (s.withoutHost i rest).nextGeneration = s.nextGeneration := by
  simp only [State.nextGeneration, State.windowWrites, State.nextGx, State.nextRptr,
    State.nextFeedEn, State.nextSingle, State.genSwap, State.enablesFeeder, State.genBoundary,
    State.feederActs, feederWord_withoutHost hc, hc, busCmd_withoutHost, reduceCtorEq]
  rfl

theorem nextPlayer_withoutHost (g : SyncGen) :
    (s.withoutHost i rest).nextPlayer g = s.nextPlayer g := by
  simp only [State.nextPlayer, State.advancedPlayer, playerWord_withoutHost hc, hc,
    busCmd_withoutHost]
  rfl

theorem watchdogTimeout_withoutHost :
    (s.withoutHost i rest).watchdogTimeout = s.watchdogTimeout := by
  simp only [State.watchdogTimeout, State.watchdogCounts, State.watchdogLoad, State.capBoundary,
    State.moverActs, State.armed, moverWord_withoutHost hc, hc, busCmd_withoutHost, reduceCtorEq]
  rfl

include hrun in
theorem nextEngine_withoutHost (e' : EngineId) (r : Turn) :
    (s.withoutHost i rest).nextEngine e' r = s.nextEngine e' r := by
  have hpops : (s.withoutHost i rest).agentPops e' = s.agentPops e' := by
    cases e' <;> simp only [State.agentPops, State.moverActs, moverWord_withoutHost hc]
  have hpush : (s.withoutHost i rest).agentPush e' = s.agentPush e' := by
    cases e' <;> simp only [State.agentPush, feederWord_withoutHost hc, playerWord_withoutHost hc]
  simp only [State.nextEngine, State.clearsRx, State.clearsTx, hpops, hpush,
    startsEngine_withoutHost hc hrun, flushed_withoutHost hc, watchdogTimeout_withoutHost hc, hc,
    busCmd_withoutHost, BusCmd.nextProg, BusCmd.nextConfig, BusCmd.clearsRx, BusCmd.clearsTx,
    BusCmd.pops, BusCmd.pushes, Bool.and_false]
  rfl

include hstim hrun in
/-- R136: the cycle of a `START` of a running engine is the cycle without it. -/
theorem steps_of_start_of_running {t : State} (hrst : s.input.rst = false) (hstep : Steps s t) :
    Steps (s.withoutHost i rest) t := by
  obtain ⟨ts, hfault, hts, rfl⟩ := steps_cases_merge hstep hrst
  have hin := input_of_stim hstim
  have hread : s.busReadData = none := by
    obtain ⟨d, hw, -⟩ := busCmd_ctrl hc
    simp [State.busReadData, hw]
  have hfault' : (s.withoutHost i rest).bankFault = none := by
    rw [← hfault]
    simp only [State.bankFault, State.moverActs, State.feederActs, moverWord_withoutHost hc,
      feederWord_withoutHost hc]
    rfl
  have hmerge : (s.withoutHost i rest).merge ts = s.merge ts := by
    have hedge : ∀ b, (s.withoutHost i rest).edgeNext b = s.edgeNext b := fun b => by
      simp only [State.edgeNext, (sameView_withoutHost hstim .cap).pins b]
    simp only [State.merge, hedge, nextEngine_withoutHost hc hrun, nextCapture_withoutHost hc,
      nextGeneration_withoutHost hc, nextPlayer_withoutHost hc, hread, hc, busCmd_withoutHost,
      BusCmd.nextLut, BusCmd.eventClears, reduceCtorEq]
    simp only [State.withoutHost, hstim]
    rfl
  rw [← hmerge]
  exact steps_merge (by rw [← hrst, hin]; rfl) ((turns_withoutHost hstim hc hrun).trans hts) hfault'

end startOfRunning

/-- Settles O26: a `START` that takes effect is a restart; one of a running engine is
`steps_of_start_of_running`. -/
theorem startByHost : Obligations.StartByHost := by
  intro s t e d hrst hw hd hstep
  refine ⟨fun hrun => ?_, fun hrun => ⟨?_, ?_, ?_⟩⟩
  · obtain ⟨ts, -, hts, rfl⟩ := steps_cases_merge hstep hrst
    have hst : s.startsEngine e = true := (startsEngine_iff s e).2 ⟨d, hw, hd, hrun⟩
    have hre : s.restartsEngine e = true := (restartsEngine_iff s e).2 (.inl (.inr hst))
    have hin := inRestart_of_restart hts hre
    have hrun' : ((s.merge ts).engine e).run = true := by simp [hst]
    exact ⟨hrun', hin.pc, hin.sr, hin.cnt, hin.dly, hin.rem, hin.fault,
      activity_of_inRestart hin hrun'⟩
  · simp [State.startsEngine, hrun]
  · simp [busCmd_of_ctrl hw, ctrlCmd]
  · rintro rfl i rest hstim
    exact steps_of_start_of_running hstim (busCmd_of_ctrl hw) hrun hrst hstep

end Sys2Proof.Machine

/-!
PROOFS. The Timing Calculator (42_timing_calculator): `rhe` is the rounding R152 names (O55), the
rounded H phases against the rounded H total (O56), and the refresh rate the results imply (O57).
-/

namespace Sys2Proof.Machine

/-! ### Rounding half to even (O55) -/

/-- The quotient below the half, its successor above it, and the even one of the two at the half. -/
theorem rheNat_cases (n d : Nat) :
    (2 * (n % d) < d ∧ rheNat n d = n / d) ∨
    (d < 2 * (n % d) ∧ rheNat n d = n / d + 1) ∨
    (2 * (n % d) = d ∧ rheNat n d % 2 = 0 ∧ (rheNat n d = n / d ∨ rheNat n d = n / d + 1)) := by
  unfold rheNat
  split_ifs <;> omega

/-- The floor of a non-negative rational and the fraction left over it are its numerator's quotient
and remainder by its denominator. -/
theorem floor_eq_num_div_den {q : Rat} (hq : 0 ≤ q) :
    ⌊q⌋₊ = q.num.toNat / q.den ∧
    2 * (q - ⌊q⌋₊) = ((2 * (q.num.toNat % q.den) : Nat) : Rat) / q.den := by
  have hden : (q.den : Rat) ≠ 0 := Nat.cast_ne_zero.2 q.den_nz
  have hnum : ((q.num.toNat : Nat) : Int) = q.num := Int.toNat_of_nonneg (Rat.num_nonneg.2 hq)
  have hval : q = (q.num.toNat : Rat) / q.den := by
    rw [← Int.cast_natCast q.num.toNat, hnum, Rat.num_div_den]
  have hfloor : ⌊q⌋₊ = q.num.toNat / q.den := by
    conv_lhs => rw [hval]
    exact Nat.floor_div_eq_div _ _
  have hdiv : (q.den : Rat) * (q.num.toNat / q.den : Nat) + (q.num.toNat % q.den : Nat)
      = q.num.toNat := by exact_mod_cast Nat.div_add_mod q.num.toNat q.den
  have hmul : q * q.den = q.num.toNat := (eq_div_iff hden).1 hval
  refine ⟨hfloor, ?_⟩
  rw [hfloor, eq_div_iff hden, Nat.cast_mul, Nat.cast_two]
  linear_combination 2 * hmul - 2 * hdiv

/-- `rheNat_cases` on the rational itself. -/
theorem rhe_cases {q : Rat} (hq : 0 ≤ q) :
    (q - ⌊q⌋₊ < 1 / 2 ∧ rhe q = ⌊q⌋₊) ∨
    (1 / 2 < q - ⌊q⌋₊ ∧ rhe q = ⌊q⌋₊ + 1) ∨
    (q - ⌊q⌋₊ = 1 / 2 ∧ rhe q % 2 = 0 ∧ (rhe q = ⌊q⌋₊ ∨ rhe q = ⌊q⌋₊ + 1)) := by
  obtain ⟨hfloor, hfrac⟩ := floor_eq_num_div_den hq
  have hden : (0 : Rat) < q.den := Nat.cast_pos.2 q.den_pos
  have hcases := rheNat_cases q.num.toNat q.den
  rw [← hfloor] at hcases
  obtain ⟨hlt, hr⟩ | ⟨hgt, hr⟩ | ⟨htie, heven, hr⟩ := hcases
  · have hlt' := hfrac.trans_lt ((div_lt_one hden).2 (Nat.cast_lt.2 hlt))
    exact .inl ⟨by linarith, hr⟩
  · have hgt' := ((one_lt_div hden).2 (Nat.cast_lt.2 hgt)).trans_eq hfrac.symm
    exact .inr (.inl ⟨by linarith, hr⟩)
  · have htie' : 2 * (q - ⌊q⌋₊) = 1 := by rw [hfrac, htie, div_self hden.ne']
    exact .inr (.inr ⟨by linarith, heven, hr⟩)

/-- Settles O55, by the three cases of `rhe`: only at the half is the distance `1/2`. -/
theorem roundHalfToEven : Obligations.RoundHalfToEven := by
  intro q hq
  have hle : (⌊q⌋₊ : Rat) ≤ q := Nat.floor_le hq
  have hlt : q < ⌊q⌋₊ + 1 := Nat.lt_floor_add_one q
  have hdown : |q - (⌊q⌋₊ : Rat)| = q - ⌊q⌋₊ := abs_of_nonneg (by linarith)
  have hup : |q - ((⌊q⌋₊ + 1 : Nat) : Rat)| = 1 - (q - ⌊q⌋₊) := by
    rw [Nat.cast_succ, abs_of_nonpos (by linarith)]
    ring
  obtain ⟨hf, hr⟩ | ⟨hf, hr⟩ | ⟨hf, heven, hr⟩ := rhe_cases hq
  · rw [hr, hdown]
    exact ⟨hf.le, fun h => absurd h hf.ne⟩
  · rw [hr, hup]
    exact ⟨by linarith, fun h => by linarith⟩
  · refine ⟨?_, fun _ => heven⟩
    obtain hr | hr := hr
    · rw [hr, hdown, hf]
    · rw [hr, hup]
      linarith

/-- R152: the error of `rhe`. -/
theorem abs_sub_rhe_le {q : Rat} (hq : 0 ≤ q) : |q - (rhe q : Rat)| ≤ 1 / 2 :=
  (roundHalfToEven q hq).1

/-! ### The H phases and the H total (O56) -/

theorem VideoMode.ratio_nonneg {m : VideoMode} {clock : Rat} (hm : m.valid clock) :
    0 ≤ m.ratio clock := by
  obtain ⟨hpixel, hclock, -, -⟩ := hm
  exact div_nonneg hclock.le hpixel.le

/-- Four roundings and that of the sum err by less than 3 together, and these are integers. -/
theorem sum_rhe_near_rhe_sum {a b c d : Rat} (ha : 0 ≤ a) (hb : 0 ≤ b) (hc : 0 ≤ c) (hd : 0 ≤ d) :
    rhe a + rhe b + rhe c + rhe d ≤ rhe (a + b + c + d) + 2 ∧
    rhe (a + b + c + d) ≤ rhe a + rhe b + rhe c + rhe d + 2 := by
  obtain ⟨ha1, ha2⟩ := abs_le.1 (abs_sub_rhe_le ha)
  obtain ⟨hb1, hb2⟩ := abs_le.1 (abs_sub_rhe_le hb)
  obtain ⟨hc1, hc2⟩ := abs_le.1 (abs_sub_rhe_le hc)
  obtain ⟨hd1, hd2⟩ := abs_le.1 (abs_sub_rhe_le hd)
  obtain ⟨hs1, hs2⟩ := abs_le.1 (abs_sub_rhe_le (by positivity : 0 ≤ a + b + c + d))
  constructor <;> rw [← Nat.lt_succ_iff, ← Nat.cast_lt (α := Rat)] <;> push_cast <;> linarith

/-- Settles O56: the H total times `r` is the sum of the phases times `r`. -/
theorem phasesSumToTotal : Obligations.PhasesSumToTotal := by
  intro m clock hm
  have hphase : ∀ p : Nat, 0 ≤ (p : Rat) * m.ratio clock := fun p =>
    mul_nonneg p.cast_nonneg (VideoMode.ratio_nonneg hm)
  have htotal : (m.h.total : Rat) * m.ratio clock = m.h.front * m.ratio clock
      + m.h.sync * m.ratio clock + m.h.back * m.ratio clock + m.h.active * m.ratio clock := by
    simp only [Axis.total, Nat.cast_add, add_mul]
  simpa only [compute, htotal] using
    sum_rhe_near_rhe_sum (hphase m.h.front) (hphase m.h.sync) (hphase m.h.back) (hphase m.h.active)

/-! ### The refresh rate (O57) -/

/-- R161: the V totals add no error, so the two rates are as the exact and the rounded H total. -/
theorem impliedRefresh_div_nominalRefresh {m : VideoMode} {clock : Rat} (hm : m.valid clock)
    (hline : rhe (m.h.total * m.ratio clock) ≠ 0) :
    impliedRefresh m clock / nominalRefresh m
      = m.h.total * m.ratio clock / rhe (m.h.total * m.ratio clock) := by
  obtain ⟨hpixel, -, hh, hv⟩ := hm
  have hhtotal : (m.h.total : Rat) ≠ 0 := Nat.cast_ne_zero.2 (by unfold Axis.total; omega)
  have hvtotal : m.v.total ≠ 0 := by unfold Axis.total; omega
  have hvtotal' : (m.v.total : Rat) ≠ 0 := Nat.cast_ne_zero.2 hvtotal
  have hline' : (rhe (m.h.total * m.ratio clock) : Rat) ≠ 0 := Nat.cast_ne_zero.2 hline
  have himplied : impliedRefresh m clock
      = clock / (rhe (m.h.total * m.ratio clock) * m.v.total) := by
    simp [impliedRefresh, compute, hline, hvtotal]
  rw [himplied, nominalRefresh, Nat.cast_mul]
  generalize rhe (m.h.total * m.ratio clock) = line at hline'
  unfold VideoMode.ratio
  field_simp

/-- The relative error of a value against its rounding. -/
theorem abs_div_rhe_sub_one_le {n : Rat} (hn : 1 / 2 < n) :
    rhe n ≠ 0 ∧ |n / rhe n - 1| ≤ 1 / (2 * n - 1) := by
  have herr := abs_sub_rhe_le (by linarith : 0 ≤ n)
  have hlow : n - 1 / 2 ≤ rhe n := by linarith [(abs_le.1 herr).2]
  have hpos : (0 : Rat) < rhe n := by linarith
  refine ⟨Nat.cast_ne_zero.1 hpos.ne', ?_⟩
  calc |n / rhe n - 1| = |n - rhe n| / rhe n := by
        rw [div_sub_one hpos.ne', abs_div, abs_of_pos hpos]
    _ ≤ (1 / 2) / (n - 1 / 2) := div_le_div₀ (by norm_num) herr (by linarith) hlow
    _ = 1 / (2 * n - 1) := by
        rw [← mul_div_mul_left (1 / 2 : Rat) (n - 1 / 2) two_ne_zero]
        ring_nf

/-- R161: the relative error of the implied refresh rate. -/
theorem abs_refresh_error_le {m : VideoMode} {clock : Rat} (hm : m.valid clock)
    (hn : 1 / 2 < (m.h.total : Rat) * m.ratio clock) :
    |impliedRefresh m clock / nominalRefresh m - 1|
      ≤ 1 / (2 * ((m.h.total : Rat) * m.ratio clock) - 1) := by
  obtain ⟨hline, herr⟩ := abs_div_rhe_sub_one_le hn
  rwa [impliedRefresh_div_nominalRefresh hm hline]

/-- Settles O57: the error is that of the rounded H total, and `2n - 1` exceeds 1000 from
`n = 500.5` on. -/
theorem refreshRateError : Obligations.RefreshRateError := by
  intro m clock hm n
  refine ⟨abs_refresh_error_le hm, fun hn => ?_⟩
  have hsmall : 1 / (2 * n - 1) < 1 / 1000 :=
    one_div_lt_one_div_of_lt (by norm_num) (by linarith)
  exact (abs_refresh_error_le hm (by linarith)).trans_lt hsmall

end Sys2Proof.Machine

/-!
PROOFS. The loop-table players (44_generation): what an armed player pushes (O53), and what the host
writes to a loop table and its control register (O54).
-/

namespace Sys2Proof.Machine

/-! ### The writes that a loop-table command comes from -/

theorem tableAddr_toNat {g : SyncGen} {off : Nat} (h : off < 0x20) :
    (tableAddr g off).toNat = 0x200 + 0x20 * tableIndex g + off := by
  have hg : tableIndex g < 2 := by cases g <;> decide
  rw [tableAddr, BitVec.toNat_ofNat, Nat.mod_eq_of_lt (by omega)]

theorem decodeAddr_inv_ltEntry {p : Params} {a : Addr} {g : SyncGen} {i : BitVec 4}
    (h : decodeAddr p a = some (.ltEntry g i)) : a = tableAddr g i.toNat := by
  have hi := i.isLt
  apply BitVec.eq_of_toNat_eq
  rw [decodeAddr_inv h, tableAddr_toNat (by omega)]
  rfl

theorem busCmd_ltEntry {s : State} {g : SyncGen} {i : BitVec 4} {d : Word}
    (h : s.busCmd = .ltEntry g i d) : s.input.host = .write (tableAddr g i.toNat) d := by
  obtain ⟨a, d', tg, ha, htg, hw⟩ := busCmd_accepted h (by simp) (by simp) (by simp)
  obtain ⟨rfl, rfl⟩ := hw.ltEntry _ _ _ rfl
  rw [ha, decodeAddr_inv_ltEntry htg]

theorem write_of_ltCtrl {s : State} {g : SyncGen} {len : BitVec 5} {armed : Bool}
    (h : s.busCmd = .ltCtrl g len armed) : ∃ d, s.input.host = .write (tableAddr g 0x10) d := by
  obtain ⟨a, d, tg, ha, htg, hw⟩ := busCmd_accepted h (by simp) (by simp) (by simp)
  obtain ⟨rfl, _⟩ := hw.ltCtrl _ _ _ rfl
  exact ⟨d, by rw [ha, decodeAddr_inv_ltCtrl htg]⟩

theorem write_of_ctrl {s : State} {e : EngineId} {a b x y f : Bool}
    (h : s.busCmd = .ctrl e a b x y f) : ∃ d, s.input.host = .write (engineAddr e 0x20) d := by
  obtain ⟨addr, d, tg, ha, htg, hw⟩ := busCmd_accepted h (by simp) (by simp) (by simp)
  obtain ⟨rfl, _⟩ := hw.ctrl _ _ _ _ _ _ rfl
  exact ⟨d, by rw [ha, decodeAddr_inv_ctrl htg]⟩

theorem controls_cases (c : BusCmd) (g : SyncGen) :
    c.controls g = false ∨ ∃ len armed, c = .ltCtrl g len armed := by
  cases c
  case ltCtrl g' len armed =>
    by_cases hg : g' = g
    · exact .inr ⟨len, armed, by rw [hg]⟩
    · exact .inl (decide_eq_false hg)
  all_goals exact .inl rfl

theorem flushes_cases (c : BusCmd) (e : EngineId) :
    c.flushes e = false ∨ ∃ a b x y f, c = .ctrl e a b x y f := by
  cases c
  case ctrl e' a b x y f =>
    by_cases he : e' = e
    · exact .inr ⟨a, b, x, y, f, by rw [he]⟩
    · exact .inl (by simp [BusCmd.flushes, he])
  all_goals exact .inl rfl

/-- R199: only the host's write of `LT_CTRL` controls a player. -/
theorem controls_eq_false {s : State} {g : SyncGen}
    (h : ∀ d, s.input.host ≠ .write (tableAddr g 0x10) d) : s.busCmd.controls g = false := by
  refine (controls_cases _ _).resolve_right ?_
  rintro ⟨len, armed, hc⟩
  obtain ⟨d, ha⟩ := write_of_ltCtrl hc
  exact h d ha

/-- R138: a player's engine has no recovery, so only the host's write of its `CTRL` flushes it. -/
theorem flushed_playerEngine_eq_false {s : State} {g : SyncGen}
    (h : ∀ d, s.input.host ≠ .write (engineAddr (playerEngine g) 0x20) d) :
    s.flushed (playerEngine g) = false := by
  have hcmd : s.busCmd.flushes (playerEngine g) = false := by
    refine (flushes_cases _ _).resolve_right ?_
    rintro ⟨a, b, x, y, f, hc⟩
    obtain ⟨d, ha⟩ := write_of_ctrl hc
    exact h d ha
  cases g <;> exact (Bool.or_false _).trans hcmd

/-! ### The player after a cycle -/

/-- R198, R199: without a write of `LT_CTRL` a player does no more than advance; its table is another
matter. -/
theorem nextPlayer_uncontrolled {s : State} {g : SyncGen} (h : s.busCmd.controls g = false) :
    ∃ mem, s.nextPlayer g = { s.advancedPlayer g with mem := mem } := by
  rcases nextPlayer_cases s g with hn | ⟨i, d, _, hn⟩ | ⟨len, armed, hc, _⟩
  · exact ⟨_, hn⟩
  · exact ⟨_, hn⟩
  · simp [hc, BusCmd.controls] at h

/-- R67: the table of a player changes by a write of an entry alone. -/
theorem nextPlayer_mem_cases (s : State) (g : SyncGen) :
    (s.nextPlayer g).mem = (s.player g).mem ∨ ∃ i d, s.busCmd = .ltEntry g i d := by
  rcases nextPlayer_cases s g with hn | ⟨i, d, hc, _⟩ | ⟨len, armed, _, hn⟩
  · exact .inl (by rw [hn, advancedPlayer_form])
  · exact .inr ⟨i, d, hc⟩
  · exact .inl (by rw [hn])

/-! ### The push of a player (O53) -/

/-- R198: the conditions under which a player pushes. -/
theorem playerWord_of {s : State} {g : SyncGen} (harmed : (s.player g).armed = true)
    (hdir : (s.engine (playerEngine g)).config.dir = .tx)
    (hroom : (s.engine (playerEngine g)).fifo.length < s.params.fifoDepth)
    (hctl : s.busCmd.controls g = false) (hflush : s.flushed (playerEngine g) = false) :
    s.playerWord g = some (s.ltWord g (s.player g).idx.toNat) := by
  simp [State.playerWord, harmed, hdir, hroom, hctl, hflush]

theorem agentPush_playerEngine (s : State) (g : SyncGen) :
    s.agentPush (playerEngine g) = s.playerWord g := by
  cases g <;> rfl

/-- R128: only the word of an RX engine pushes. -/
theorem turn_push_of_tx {s : State} {e : EngineId} {r : Turn} (hw : TurnWithin s e r)
    (hdir : (s.engine e).config.dir = .tx) : r.req.push = none := by
  rw [← Option.not_isSome_iff_eq_none]
  intro hp
  have hrx := (hw.push hp).1
  rw [hdir] at hrx
  cases hrx

/-- R31, R198: a FIFO to which its agent pushes; the engine of a TX FIFO pushes nothing. -/
theorem fifo_of_agentPush {s : State} {e : EngineId} {r : Turn} {w : Word}
    (hw : TurnWithin s e r) (hf : s.flushed e = false) (hdir : (s.engine e).config.dir = .tx)
    (hpush : s.agentPush e = some w) :
    ∃ k ≤ 1, (s.nextEngine e r).fifo = (s.engine e).fifo.drop k ++ [w] := by
  rw [nextEngine_fifo, turn_push_of_tx hw hdir, hpush, hf]
  cases (r.req.pop || s.agentPops e || s.busCmd.pops e)
  · exact ⟨0, by omega, by simp [nextFifo]⟩
  · exact ⟨1, by omega, by simp [nextFifo]⟩

/-- R198: the index after a push; a legal length keeps it in its four bits. -/
theorem advancedPlayer_idx_of_push {s : State} {g : SyncGen} {w : Word} (hinv : PlayerInv (s.player g))
    (harmed : (s.player g).armed = true) (hpush : s.playerWord g = some w) :
    (s.advancedPlayer g).idx.toNat = ((s.player g).idx.toNat + 1) % (s.player g).len.toNat := by
  obtain ⟨hpos, hlen⟩ := hinv.length harmed
  have := Nat.mod_lt ((s.player g).idx.toNat + 1) hpos
  rw [advancedPlayer_form, hpush]
  exact Nat.mod_eq_of_lt (by omega)

/-- Settles O53: nothing stops the player, and its push is the one word that joins the FIFO. -/
theorem playerPushesEntry : Obligations.PlayerPushesEntry := by
  intro s t g hrst hstep hinv harmed hdir hroom hnoLt hnoCtrl
  obtain ⟨ts, _, hts, rfl⟩ := steps_cases_merge hstep hrst
  have hctl := controls_eq_false hnoLt
  have hflush := flushed_playerEngine_eq_false hnoCtrl
  have hpush := playerWord_of harmed hdir hroom hctl hflush
  obtain ⟨mem, hn⟩ := nextPlayer_uncontrolled hctl
  rw [merge_engine, merge_player, hn]
  refine ⟨fifo_of_agentPush (turns_within hts _).2 hflush hdir
      ((agentPush_playerEngine s g).trans hpush),
    advancedPlayer_idx_of_push hinv harmed hpush, ?_, ?_⟩
  · simp [advancedPlayer_form]
  · simpa [advancedPlayer_form] using harmed

/-! ### The writes of a loop table (O54) -/

/-- R199: a write of `LT_CTRL` that arms a table of no or of more than 16 entries is refused. -/
theorem writeTarget_ltCtrl_refused {s : State} {g : SyncGen} {d : Word} (ha : d.getLsbD 8 = true)
    (hbad : d.extractLsb' 0 5 = 0 ∨ 16 < (d.extractLsb' 0 5).toNat) :
    s.writeTarget d (.ltCtrl g) = .refused :=
  if_pos ⟨ha, hbad⟩

/-- R199: any other asks for its length and armed bit. -/
theorem writeTarget_ltCtrl {s : State} {g : SyncGen} {d : Word}
    (hok : d.getLsbD 8 = false ∨ (d.extractLsb' 0 5 ≠ 0 ∧ (d.extractLsb' 0 5).toNat ≤ 16)) :
    s.writeTarget d (.ltCtrl g) = .ltCtrl g (d.extractLsb' 0 5) (d.getLsbD 8) := by
  refine if_neg ?_
  rintro ⟨ha, hbad⟩
  rcases hok with hoff | ⟨hne, hle⟩
  · rw [hoff] at ha
    cases ha
  · rcases hbad with h0 | h16
    · exact hne h0
    · omega

/-- R67: after a write of an entry its word is the data, and no other byte of the table changed. -/
theorem entry_written {s : State} {ts : Turns} {g : SyncGen} {i : BitVec 4} {d : Word}
    (hc : s.busCmd = .ltEntry g i d) :
    (s.merge ts).ltWord g i.toNat = d ∧
    ∀ a, ¬ inWord i.toNat a →
      (s.merge ts).byteAt (.loopTable g) a = s.byteAt (.loopTable g) a := by
  have hmem : (s.nextPlayer g).mem = Memory.writeWord (s.player g).mem i.toNat d := by
    simp [State.nextPlayer, hc]
  refine ⟨?_, fun a hout => ?_⟩
  · rw [State.ltWord, merge_player, hmem, readWord_writeWord]
  · simp only [State.byteAt, State.memory, merge_player, hmem]
    exact readByte_writeWord_ne _ _ _ _ _ hout

/-- Settles O54: a write of `LT_CTRL` is refused or asks for its fields, a write of an entry writes one
word (`entry_written`), and only such writes do either. -/
theorem loopTableWrites : Obligations.LoopTableWrites := by
  intro s t g hrst hstep
  obtain ⟨ts, _, _, rfl⟩ := steps_cases_merge hstep hrst
  refine ⟨fun d ha => ?_, fun hno => ?_, fun i d ha => ?_, fun hno a => ?_⟩
  · have hw : s.busCmd = s.writeTarget d (.ltCtrl g) := busCmd_write ha (decodeAddr_ltCtrl _ g)
    refine ⟨fun harm hbad => hw.trans (writeTarget_ltCtrl_refused harm hbad), fun hok => ?_⟩
    have hc := hw.trans (writeTarget_ltCtrl hok)
    have hn : s.nextPlayer g = { s.player g with
        len := d.extractLsb' 0 5, armed := d.getLsbD 8, idx := 0 } := by
      simp [State.nextPlayer, hc]
    rw [merge_player, hn]
    exact ⟨rfl, rfl, rfl, merge_busErr_of_quiet (by simp [hc]) (by rw [hc]; rfl)⟩
  · obtain ⟨mem, hn⟩ := nextPlayer_uncontrolled (controls_eq_false hno)
    rw [merge_player, hn, advancedPlayer_form]
    exact ⟨rfl, rfl⟩
  · exact entry_written (busCmd_write ha (decodeAddr_ltEntry _ g i))
  · have hmem : (s.nextPlayer g).mem = (s.player g).mem := by
      refine (nextPlayer_mem_cases s g).resolve_right ?_
      rintro ⟨i, d, hc⟩
      exact hno i d (busCmd_ltEntry hc)
    simp only [State.byteAt, State.memory, merge_player, hmem]

end Sys2Proof.Machine

/-!
PROOFS. The frame exchange of 45_frame_exchange: the transitions of the handshakes and the ownership
(O41, O45), the commands of the host (O39, O40, O44), the words that the capture mover and the feeder
move (O42, O43), who writes which memory (O46), and the period meters (O48).
-/

namespace Sys2Proof.Machine

/-! ### The boundaries in a cycle (R222, R230) -/

theorem armed_eq_false {s : State} (h : s.cap.x ≠ .idle) : s.armed = false := by
  rw [← Bool.not_eq_true]
  intro ha
  obtain ⟨_, hidle, _⟩ := armed_facts ha
  exact h hidle

/-- R220: a word that is moved is the last of its frame, or it is not. -/
theorem capBoundary_iff {s : State} (h : s.moverActs = true) :
    s.capBoundary = true ↔ s.frameWords ≤ s.cap.ptr.toNat + 1 := by
  simp [State.capBoundary, h]

/-- R228. -/
theorem genBoundary_iff {s : State} (h : s.feederActs = true) :
    s.genBoundary = true ↔ s.frameWords ≤ s.gen.ptr.toNat + 1 := by
  simp [State.genBoundary, h]

/-- R222: at the boundary the frame is settled; no command and no recovery falls in that cycle. -/
theorem nextCx_of_capBoundary {s : State} (h : s.capBoundary = true) : s.nextCx = .settled := by
  obtain ⟨hr, hx, _⟩ := moverActs_facts (capBoundary_facts h).1
  have ha : s.armed = false := armed_eq_false (by simp [hx])
  have ht : s.busCmd ≠ .capTake := fun ht => by simpa [hx] using (busCmd_capTake ht).1
  simp [State.nextCx, hr, ha, ht, h]

/-- R230. -/
theorem nextGx_of_genSwap {s : State} (h : s.genSwap = true) : s.nextGx = .settled := by
  obtain ⟨_, hx⟩ := genSwap_facts h
  have hc : s.busCmd ≠ .commitFrame := fun hc => by simpa [hx] using (busCmd_commitFrame hc).1
  have ht : s.busCmd ≠ .genTake := fun ht => by simpa [hx] using (busCmd_genTake ht).1
  simp [State.nextGx, hc, ht, h]

/-! ### The transitions of the handshakes (O41) -/

/-- R217, R219, R222, R223, R245: `cx` after a cycle, with what changed it. -/
theorem nextCx_cases (s : State) :
    s.nextCx = s.cap.x ∨
    (s.cap.x = .idle ∧ s.nextCx = .transferring ∧ s.busCmd = .arm) ∨
    (s.cap.x = .transferring ∧ s.nextCx = .settled ∧ s.capBoundary = true) ∨
    (s.cap.x = .settled ∧ s.nextCx = .idle ∧ s.busCmd = .capTake) ∨
    (s.cap.x = .transferring ∧ s.nextCx = .idle ∧ s.capRecovery = true) := by
  cases hr : s.capRecovery with
  | true =>
    by_cases hx : s.cap.x = .transferring
    · simp [State.nextCx, hr, hx]
    · exact .inl (by simp [State.nextCx, hr, hx])
  | false =>
    cases ha : s.armed with
    | true =>
      obtain ⟨hc, hx, _⟩ := armed_facts ha
      exact .inr (.inl ⟨hx, by simp [State.nextCx, hr, ha], hc⟩)
    | false =>
      by_cases ht : s.busCmd = .capTake
      · obtain ⟨hx, _⟩ := busCmd_capTake ht
        simp [State.nextCx, hr, ha, ht, hx]
      · cases hb : s.capBoundary with
        | true =>
          obtain ⟨_, hx, _⟩ := moverActs_facts (capBoundary_facts hb).1
          simp [nextCx_of_capBoundary hb, hx]
        | false => exact .inl (by simp [State.nextCx, hr, ha, ht, hb])

/-- R217, R227, R230, R231: `gx` after a cycle, with what changed it. -/
theorem nextGx_cases (s : State) :
    s.nextGx = s.gen.x ∨
    (s.gen.x = .idle ∧ s.nextGx = .transferring ∧ s.busCmd = .commitFrame) ∨
    (s.gen.x = .transferring ∧ s.nextGx = .settled ∧ s.genBoundary = true) ∨
    (s.gen.x = .settled ∧ s.nextGx = .idle ∧ s.busCmd = .genTake) := by
  by_cases hc : s.busCmd = .commitFrame
  · obtain ⟨hx, _⟩ := busCmd_commitFrame hc
    simp [State.nextGx, hc, hx]
  · by_cases ht : s.busCmd = .genTake
    · obtain ⟨hx, _⟩ := busCmd_genTake ht
      simp [State.nextGx, ht, hx]
    · cases hs : s.genSwap with
      | true =>
        obtain ⟨hb, hx⟩ := genSwap_facts hs
        simp [nextGx_of_genSwap hs, hx, hb]
      | false => exact .inl (by simp [State.nextGx, hc, ht, hs])

/-- Settles O41: a step is a merge, whose handshakes are `nextCx` and `nextGx`. -/
theorem handshakeTransitions : Obligations.HandshakeTransitions := by
  intro s t hrst hstep
  obtain ⟨ts, _, _, rfl⟩ := steps_cases_merge hstep hrst
  exact ⟨(nextCx_cases s).resolve_left, (nextGx_cases s).resolve_left⟩

/-! ### The ownership bits (O45) -/

/-- Settles O45: `csel` toggles where a capture boundary is, `gsel` where a committed frame is swapped
in. -/
theorem ownershipOnlyAtBoundary : Obligations.OwnershipOnlyAtBoundary := by
  intro s t hrst hstep
  obtain ⟨ts, _, _, rfl⟩ := steps_cases_merge hstep hrst
  refine ⟨fun hne => ?_, fun hne => ?_⟩
  · have hb : s.capBoundary = true := by
      by_contra hb
      exact hne (by simp [hb])
    exact ⟨hb, by simp [hb], nextCx_of_capBoundary hb⟩
  · have hs : s.genSwap = true := by
      by_contra hs
      exact hne (by simp [hs])
    obtain ⟨hb, hx⟩ := genSwap_facts hs
    exact ⟨hb, hx, by simp [hb], nextGx_of_genSwap hs⟩

/-! ### The watchdog (R244) -/

/-- A load of the watchdog, in a cycle that does not switch it off. -/
theorem watchdogLoaded_of_load {s : State} {w : Word} (hl : s.watchdogLoad = some w)
    (hr : s.capRecovery = false) (hb : s.capBoundary = false) :
    WatchdogLoaded w s.nextCapture := by
  by_cases hw : w = 0
  · simp [WatchdogLoaded, State.nextWdOn, hl, hr, hb, hw]
  · have hctr : s.nextWdCtr = w := by
      rw [State.nextWdCtr, hl]
      exact if_neg hw
    rw [WatchdogLoaded, if_neg hw]
    exact ⟨by simpa [State.nextWdOn, hl, hr, hb] using hw, hctr⟩

/-! ### The commands of the capture side (O39) -/

/-- R219: what `ARM` does. -/
theorem nextCapture_of_arm {s : State} (hc : s.busCmd = .arm) :
    s.nextCapture.x = .transferring ∧ s.nextCapture.buf = s.cap.sel ∧ s.nextCapture.ptr = 0 ∧
      WatchdogLoaded (s.lutAt idxArmWindow) s.nextCapture ∧ s.moverActs = false := by
  obtain ⟨hx, hr⟩ := busCmd_arm hc
  have ha : s.armed = true := decide_eq_true hc
  have hne : s.cap.x ≠ .transferring := by simp [hx]
  exact ⟨by simp [State.nextCx, hr, ha], by simp [ha], by simp [State.nextWptr, hr, ha],
    watchdogLoaded_of_load (by simp [State.watchdogLoad, ha]) hr (capBoundary_eq_false hne),
    moverActs_eq_false hne⟩

/-- R223: what `TAKE` does. -/
theorem nextCapture_of_take {s : State} (hc : s.busCmd = .capTake) :
    s.nextCapture.x = .idle ∧ s.nextCapture.sel = s.cap.sel := by
  obtain ⟨hx, hr⟩ := busCmd_capTake hc
  have ha : s.armed = false := armed_eq_false (by simp [hx])
  have hb : s.capBoundary = false := capBoundary_eq_false (by simp [hx])
  exact ⟨by simp [State.nextCx, hr, ha, hc], by simp [hb]⟩

/-- Settles O39: the command of the write is that of its two bits, and an accepted one does what
`nextCapture_of_arm` and `nextCapture_of_take` say. -/
theorem captureCommands : Obligations.CaptureCommands := by
  intro s t d hrst ha hstep
  obtain ⟨ts, _, _, rfl⟩ := steps_cases_merge hstep hrst
  have hw : s.busCmd = s.capXctrl d := busCmd_write ha (decodeAddr_capXctrl _)
  refine ⟨fun h0 h1 => ?_, fun h0 h1 => ?_, fun h0 h1 => by simp only [hw, State.capXctrl, h0, h1],
    fun h0 h1 _ => ?_⟩
  · simp only [State.capXctrl, h0, h1] at hw
    refine ⟨fun hx hr => ?_, fun hbad => hw.trans (if_neg hbad)⟩
    have hc : s.busCmd = .arm := hw.trans (if_pos ⟨hx, hr⟩)
    obtain ⟨hcx, hbuf, hptr, hwd, hmover⟩ := nextCapture_of_arm hc
    exact ⟨hcx, hbuf, hptr, hwd, hmover, merge_busErr_of_quiet (by simp [hc]) (by rw [hc]; rfl)⟩
  · simp only [State.capXctrl, h0, h1] at hw
    refine ⟨fun hx hr => ?_, fun hbad => hw.trans (if_neg hbad)⟩
    have hc : s.busCmd = .capTake := hw.trans (if_pos ⟨hx, hr⟩)
    obtain ⟨hcx, hsel⟩ := nextCapture_of_take hc
    exact ⟨hcx, hsel, merge_busErr_of_quiet (by simp [hc]) (by rw [hc]; rfl)⟩
  · have hc : s.busCmd = .none := by simp only [hw, State.capXctrl, h0, h1]
    exact ⟨hc, merge_busErr_of_quiet (by simp [hc]) (by rw [hc]; rfl)⟩

/-! ### The commands of the generation side (O40) -/

/-- Settles O40: the command of the write is that of its two bits, and an accepted one sets `gx`. -/
theorem generationCommands : Obligations.GenerationCommands := by
  intro s t d hrst ha hstep
  obtain ⟨ts, _, _, rfl⟩ := steps_cases_merge hstep hrst
  have hw : s.busCmd = s.genXctrl d := busCmd_write ha (decodeAddr_genXctrl _)
  refine ⟨fun h0 h1 => ?_, fun h0 h1 => ?_, fun h0 h1 => by simp only [hw, State.genXctrl, h0, h1],
    fun h0 h1 _ => ?_⟩
  · simp only [State.genXctrl, h0, h1] at hw
    refine ⟨fun hx hs hr => ?_, fun hbad => hw.trans (if_neg hbad)⟩
    have hc : s.busCmd = .commitFrame := hw.trans (if_pos ⟨hx, hs, hr⟩)
    exact ⟨by simp [State.nextGx, hc], by simp [hc],
      merge_busErr_of_quiet (by simp [hc]) (by rw [hc]; rfl)⟩
  · simp only [State.genXctrl, h0, h1] at hw
    refine ⟨fun hx hr => ?_, fun hbad => hw.trans (if_neg hbad)⟩
    have hc : s.busCmd = .genTake := hw.trans (if_pos ⟨hx, hr⟩)
    exact ⟨by simp [State.nextGx, hc], merge_busErr_of_quiet (by simp [hc]) (by rw [hc]; rfl)⟩
  · have hc : s.busCmd = .none := by simp only [hw, State.genXctrl, h0, h1]
    exact ⟨hc, merge_busErr_of_quiet (by simp [hc]) (by rw [hc]; rfl)⟩

/-! ### The configuration of the feeder (O44) -/

theorem write_of_genXcfg {s : State} {a b : Bool} (h : s.busCmd = .genXcfg a b) :
    ∃ d, s.input.host = .write 0x0034 d := by
  obtain ⟨addr, d, tg, ha, htg, hw⟩ := busCmd_accepted h (by simp) (by simp) (by simp)
  obtain ⟨rfl, _⟩ := hw.genXcfg _ _ rfl
  exact ⟨d, by rw [ha, decodeAddr_inv_genXcfg htg]⟩

/-- R232: no other command changes `feed_en` or `single`. -/
theorem nextXcfg_cases (s : State) :
    (s.nextFeedEn = s.gen.feedEn ∧ s.nextSingle = s.gen.single) ∨
      ∃ a b, s.busCmd = .genXcfg a b := by
  unfold State.nextFeedEn State.nextSingle
  cases s.busCmd
  case genXcfg a b => exact .inr ⟨a, b, rfl⟩
  all_goals exact .inl ⟨rfl, rfl⟩

/-- R232: the feeder starts at word 0 when it is enabled. -/
theorem nextRptr_of_enablesFeeder {s : State} (h : s.enablesFeeder = true) : s.nextRptr = 0 := by
  simp [State.nextRptr, h]

theorem feederActs_eq_false {s : State} (h : s.gen.feedEn = false) : s.feederActs = false := by
  simp [State.feederActs, State.feederWord, h]

/-- Settles O44: the write asks for its two bits, and only such a write asks for them. -/
theorem genXcfgWrite : Obligations.GenXcfgWrite := by
  intro s t hrst hstep
  obtain ⟨ts, _, _, rfl⟩ := steps_cases_merge hstep hrst
  refine ⟨fun d ha => ?_, fun hno => ?_⟩
  · have hc : s.busCmd = .genXcfg (d.getLsbD 0) (d.getLsbD 1) :=
      busCmd_write ha (decodeAddr_genXcfg _)
    refine ⟨by simp [State.nextFeedEn, hc], by simp [State.nextSingle, hc], by simp [hc],
      merge_busErr_of_quiet (by simp [hc]) (by rw [hc]; rfl), fun hoff hon => ?_,
      feederActs_eq_false⟩
    exact nextRptr_of_enablesFeeder (by simp [State.enablesFeeder, hc, hoff, hon])
  · refine (nextXcfg_cases s).resolve_right ?_
    rintro ⟨a, b, hc⟩
    obtain ⟨d, ha⟩ := write_of_genXcfg hc
    exact hno d ha

/-! ### Who writes which memory (O46) -/

/-- R220: a cycle changes no byte of the capture banks but those of the word at `wptr` of the bank in
flight. -/
theorem byteAt_cbank_merge {s : State} {ts : Turns} {b : Bool} {a : Nat}
    (hout : ¬ (b = s.cap.sel ∧ inWord s.cap.ptr.toNat a)) :
    (s.merge ts).byteAt (.cbank b) a = s.byteAt (.cbank b) a := by
  simp only [State.byteAt, State.memory, merge_cap, nextCapture_bank, moverWrites_bank]
  split
  · split
    next hb => exact readByte_writeWord_ne _ _ _ _ _ fun hin => hout ⟨hb, hin⟩
    next => rfl
  · rfl

/-- R69: only the host writes a generation bank. -/
theorem byteAt_gbank_merge {s : State} {ts : Turns} (hno : ∀ a d, s.input.host ≠ .write a d)
    (b : Bool) (a : Nat) : (s.merge ts).byteAt (.gbank b) a = s.byteAt (.gbank b) a := by
  have hbank : s.windowWrites.bank b = s.gen.bank b := by
    refine (windowWrites_bank s b).resolve_right ?_
    rintro ⟨i, d, hc, _⟩
    obtain ⟨_, ha⟩ := busCmd_genWindow hc
    exact hno _ _ ha
  simp only [State.byteAt, State.memory, merge_gen, nextGeneration_bank, hbank]

/-- R67: only the host writes a loop table. -/
theorem byteAt_loopTable_merge {s : State} {ts : Turns} (hno : ∀ a d, s.input.host ≠ .write a d)
    (g : SyncGen) (a : Nat) :
    (s.merge ts).byteAt (.loopTable g) a = s.byteAt (.loopTable g) a := by
  have hmem : (s.nextPlayer g).mem = (s.player g).mem := by
    refine (nextPlayer_mem_cases s g).resolve_right ?_
    rintro ⟨i, d, hc⟩
    exact hno _ _ (busCmd_ltEntry hc)
  simp only [State.byteAt, State.memory, merge_player, hmem]

/-- Settles O46: a reset writes no memory, and a merge writes the bank in flight and what the host
writes. -/
theorem banksWrittenByOwnerOnly : Obligations.BanksWrittenByOwnerOnly := by
  intro s t hstep
  rcases steps_cases hstep with ⟨_, rfl⟩ | ⟨ts, hrst, _, _, rfl⟩
  · exact ⟨resetCycle_byteAt s _, fun _ => ⟨fun b => resetCycle_byteAt s (.gbank b),
      fun g => resetCycle_byteAt s (.loopTable g)⟩, fun _ => resetCycle_byteAt s⟩
  · exact ⟨fun a => byteAt_cbank_merge fun hin => by simp at hin,
      fun hno => ⟨byteAt_gbank_merge hno, byteAt_loopTable_merge hno⟩,
      fun hr => by simp [hrst] at hr⟩

/-! ### A word of the capture mover (O42) -/

/-- R31, R220: a FIFO whose head its agent takes. -/
theorem fifo_of_agentPop {s : State} {e : EngineId} {r : Turn} {w : Word} {q : List Word}
    (hf : s.flushed e = false) (hpop : s.agentPops e = true) (hq : (s.engine e).fifo = w :: q) :
    ∃ new : List Word, new.length ≤ 1 ∧ (s.nextEngine e r).fifo = q ++ new := by
  refine ⟨(r.req.push <|> s.agentPush e <|> s.busCmd.pushes e).toList, Option.length_toList_le, ?_⟩
  simp [nextEngine_fifo, nextFifo, hf, hpop, hq]

/-- R220: the word that is moved stands at its place of the bank in flight. -/
theorem cbankWord_of_moverWord {s : State} {ts : Turns} {w : Word} (h : s.moverWord = some w) :
    (s.merge ts).cbankWord s.cap.sel s.cap.ptr.toNat = w := by
  simp [State.cbankWord, moverWrites_bank, h]

/-- R220, R244: a move before the last word of a frame. -/
theorem nextCapture_of_move {s : State} (ha : s.moverActs = true) (hb : s.capBoundary = false) :
    s.nextCapture.ptr = s.cap.ptr + 1 ∧ s.nextCapture.x = .transferring ∧
      s.nextCapture.sel = s.cap.sel ∧ s.nextCapture.frames = s.cap.frames ∧
      (s.cap.ptr = 0 → WatchdogLoaded (s.lutAt idxFrameWindow) s.nextCapture) := by
  obtain ⟨hr, hx, _⟩ := moverActs_facts ha
  have harm : s.armed = false := armed_eq_false (by simp [hx])
  have htake : s.busCmd ≠ .capTake := fun hc => by simpa [hx] using (busCmd_capTake hc).1
  refine ⟨by simp [State.nextWptr, hr, harm, ha, hb], by simp [State.nextCx, hr, harm, htake, hb, hx],
    by simp [hb], by simp [hb], fun h0 => ?_⟩
  exact watchdogLoaded_of_load (by simp [State.watchdogLoad, harm, ha, hb, h0]) hr hb

/-- R222, R244: the move of the last word of a frame. -/
theorem nextCapture_of_boundary {s : State} (hb : s.capBoundary = true) :
    s.nextCapture.sel = (!s.cap.sel) ∧ s.nextCapture.x = .settled ∧
      s.nextCapture.buf = s.cap.buf ∧ s.nextCapture.wdOn = false ∧
      s.nextCapture.frames = s.cap.frames + 1 ∧ s.nextCapture.ptr = s.cap.ptr := by
  obtain ⟨hr, hx, _⟩ := moverActs_facts (capBoundary_facts hb).1
  have harm : s.armed = false := armed_eq_false (by simp [hx])
  exact ⟨by simp [hb], nextCx_of_capBoundary hb, by simp [harm], by simp [State.nextWdOn, hb],
    by simp [hb], by simp [State.nextWptr, hr, harm, hb]⟩

/-- Settles O42: under the conditions of R220 the mover acts, and its word is the last of the frame or
is not. -/
theorem captureMoverMovesWord : Obligations.CaptureMoverMovesWord := by
  intro s t w q hrst hstep hr hx hdir hq hflush fw
  obtain ⟨ts, _, _, rfl⟩ := steps_cases_merge hstep hrst
  have hword := moverWord_of hr hx hdir hq hflush
  have ha : s.moverActs = true := (moverActs_iff s).2 ⟨w, hword⟩
  obtain ⟨_, _, _, hf⟩ := moverActs_facts ha
  refine ⟨cbankWord_of_moverWord hword, fun b a => byteAt_cbank_merge, ?_, fun hlt => ?_,
    fun hle => nextCapture_of_boundary ((capBoundary_iff ha).2 hle)⟩
  · rw [merge_engine]
    exact fifo_of_agentPop hf ha hq
  · have hb : s.capBoundary = false := by
      rw [← Bool.not_eq_true, capBoundary_iff ha]
      exact Nat.not_le.2 hlt
    exact nextCapture_of_move ha hb

/-! ### A word of the feeder (O43) -/

/-- R228: a feeder that runs is not enabled anew. -/
theorem nextRptr_of_feederActs {s : State} (h : s.feederActs = true) :
    s.nextRptr = if s.genBoundary then 0 else s.gen.ptr + 1 := by
  obtain ⟨hr, hen, _⟩ := feederActs_facts h
  have hno : s.enablesFeeder = false := by
    unfold State.enablesFeeder
    split
    · simp [hen]
    · rfl
  simp [State.nextRptr, hr, hno, h]

/-- Settles O43: under the conditions of R228 the feeder pushes, and its word is the last of the frame
or is not. -/
theorem feederPushesWord : Obligations.FeederPushesWord := by
  intro s t hrst hstep hr hen hdir hroom hflush fw
  obtain ⟨ts, _, hts, rfl⟩ := steps_cases_merge hstep hrst
  have hword := feederWord_of hr hen hdir hroom hflush
  have ha : s.feederActs = true := by simp [State.feederActs, hword]
  obtain ⟨_, _, _, _, hf⟩ := feederActs_facts ha
  have hptr := nextRptr_of_feederActs ha
  refine ⟨?_, fun hlt => ?_, fun hle => ?_⟩
  · rw [merge_engine]
    exact fifo_of_agentPush (turns_within hts .gen).2 hf hdir hword
  · have hb : s.genBoundary = false := by
      rw [← Bool.not_eq_true, genBoundary_iff ha]
      exact Nat.not_le.2 hlt
    simp [hptr, hb, State.genSwap]
  · have hb : s.genBoundary = true := (genBoundary_iff ha).2 hle
    refine ⟨by simp [hptr, hb], by simp [hb], fun hx => ?_, fun hx => ?_⟩
    · have hs : s.genSwap = true := by simp [State.genSwap, hb, hx]
      exact ⟨by simp [hs], nextGx_of_genSwap hs⟩
    · simp [State.genSwap, hx]

/-! ### The period meters (O48) -/

/-- Settles O48: the meter of a merge depends on the boundary of its direction alone, and its counter
ticks as `meterTick_toNat` says. -/
theorem periodMeters : Obligations.PeriodMeters := by
  intro s t hrst hstep
  obtain ⟨ts, _, _, rfl⟩ := steps_cases_merge hstep hrst
  refine ⟨fun hb => ?_, fun hb => ?_, fun hb => ?_, fun hb => ?_⟩
  · exact ⟨by simp [hb, meterTick_toNat], by simp [hb]⟩
  · exact ⟨by simp [hb], by simp [hb, meterTick_toNat]⟩
  · exact ⟨by simp [hb, meterTick_toNat], by simp [hb]⟩
  · exact ⟨by simp [hb], by simp [hb, meterTick_toNat]⟩

end Sys2Proof.Machine

/-!
PROOFS. The exceptions of 60_exceptions: the counter of the recoveries (O51), the watchdog that
raises one of the two stalls (O52), and the recoveries from both (O49, O50).
-/

namespace Sys2Proof.Machine

/-! ### The counter of the recoveries (O51) -/

/-- R248: two increments that saturate are one sum that saturates. -/
theorem nextErr_toNat (s : State) :
    s.nextErr.toNat = min (s.err.toNat + recoveries s) (2 ^ 64 - 1) := by
  simp only [State.nextErr, errTick_toNat, recoveries]
  omega

/-- R245, R246: a recovery is the cycle after a stall of its engine. -/
theorem recoveries_eq (s : State) : recoveries s =
    (if (s.engine .cap).rxStall then 1 else 0) + (if (s.engine .gen).txStall then 1 else 0) := by
  simp only [recoveries, State.capRecovery, State.genRecovery, Bool.toNat, Bool.cond_eq_ite]

/-- Settles O51: a reset clears `err`, and a merge adds the recoveries of its cycle. -/
theorem errorCounter : Obligations.ErrorCounter := by
  intro s t hstep
  rcases steps_cases hstep with ⟨hrst, rfl⟩ | ⟨ts, hrst, _, _, rfl⟩
  · exact ⟨fun hno => by simp [hrst] at hno, fun _ => rfl⟩
  · refine ⟨fun _ => ?_, fun hr => by simp [hrst] at hr⟩
    rw [merge_err, nextErr_toNat, recoveries_eq]

/-! ### The watchdog counts (O52) -/

/-- R244: in a transfer only the move of word 0 of a frame loads the watchdog. -/
theorem watchdogLoad_of_transfer {s : State} (hx : s.cap.x = .transferring)
    (hmove : s.moverActs = true → s.cap.ptr ≠ 0) : s.watchdogLoad = none := by
  have harm : s.armed = false := armed_eq_false (by simp [hx])
  cases ha : s.moverActs with
  | true => simp [State.watchdogLoad, harm, show s.cap.ptr ≠ 0#16 from hmove ha]
  | false => simp [State.watchdogLoad, harm, ha]

section counting
variable {s : State} (hcounts : s.watchdogCounts = true)
include hcounts

/-- R244: what a watchdog that counts was in. -/
theorem watchdogCounts_facts : s.cap.wdOn = true ∧ s.watchdogLoad = none ∧
    s.capBoundary = false ∧ s.capRecovery = false := by
  simp only [State.watchdogCounts, Bool.and_eq_true, Bool.not_eq_true', Option.isNone_iff_eq_none]
    at hcounts
  obtain ⟨⟨⟨⟨_, hon⟩, hload⟩, hb⟩, hr⟩ := hcounts
  exact ⟨hon, hload, hb, hr⟩

theorem nextWdOn_of_counts : s.nextWdOn = true := by
  obtain ⟨hon, hload, hb, hr⟩ := watchdogCounts_facts hcounts
  simp [State.nextWdOn, hr, hb, hload, hon]

theorem nextWdCtr_of_counts :
    s.nextWdCtr = if s.cap.wdCtr = 0 then s.cap.wdCtr else s.cap.wdCtr - 1 := by
  obtain ⟨_, hload, _, _⟩ := watchdogCounts_facts hcounts
  by_cases h0 : s.cap.wdCtr = 0 <;>
    simp [State.nextWdCtr, State.watchdogTimeout, hload, hcounts, h0]

end counting

/-- R128, R244: without a stall before, `rx_stall` of engine 0 after a cycle is an overrun of its
word or a timeout of the watchdog. -/
theorem rxStall_of_unstalled {s : State} {ts : Turns} (hts : s.turns exec = .next ts)
    (hpre : (s.engine .cap).rxStall = false) : ((s.merge ts).engine .cap).rxStall = true ↔
      Overruns s .cap ∨ s.watchdogTimeout = true := by
  rw [merge_engine, nextEngine_rxStall, resolveSticky_iff, Bool.or_eq_true,
    turn_rxAsked (turns_within hts .cap).1]
  simp [hpre]

/-- R128: only a word that is evaluated overruns. -/
theorem evaluating_of_overruns {s : State} {e : EngineId} (h : Overruns s e) :
    s.activity e = .evaluating := by
  obtain ⟨_, _, _, _, hev, _⟩ := h
  exact hev.1

/-- Settles O52: nothing loads the watchdog or switches it off in such a cycle, so it counts, and it
times out at 0. -/
theorem watchdogCounts : Obligations.WatchdogCounts := by
  intro s t hrst hstep hx hon hpre hmove hb
  obtain ⟨ts, _, hts, rfl⟩ := steps_cases_merge hstep hrst
  have hr : s.capRecovery = false := hpre
  have hcounts : s.watchdogCounts = true := by
    simp [State.watchdogCounts, hx, hon, watchdogLoad_of_transfer hx hmove, hb, hr]
  have hctr := nextWdCtr_of_counts hcounts
  refine ⟨nextWdOn_of_counts hcounts, fun h0 => ⟨?_, ?_⟩, fun h0 => ⟨?_, fun hidle => ?_⟩⟩
  · exact (rxStall_of_unstalled hts hpre).2 (.inr (by simp [State.watchdogTimeout, hcounts, h0]))
  · exact (hctr.trans (if_pos h0)).trans h0
  · exact hctr.trans (if_neg h0)
  · rw [← Bool.not_eq_true, rxStall_of_unstalled hts hpre]
    rintro (hover | htimeout)
    · exact hidle (evaluating_of_overruns hover)
    · exact h0 (by simpa [State.watchdogTimeout, hcounts] using htimeout)

/-! ### The capture recovery (O49) -/

section captureRecovery
variable {s : State} (h : s.capRecovery = true)
include h

theorem restartsEngine_of_capRecovery : s.restartsEngine .cap = true :=
  (restartsEngine_iff s .cap).2 (.inr (.inl ⟨rfl, h⟩))

theorem flushed_of_capRecovery : s.flushed .cap = true := by simp [State.flushed, h]

/-- R244: a recovery stops the watchdog, so none times out in it. -/
theorem watchdogTimeout_of_capRecovery : s.watchdogTimeout = false := by
  simp [State.watchdogTimeout, State.watchdogCounts, h]

/-- R245: the capture side after the recovery, but for its banks and the counter of its meter. -/
theorem nextCapture_of_capRecovery :
    s.nextCapture.x = (if s.cap.x = .transferring then .idle else s.cap.x) ∧
      s.nextCapture.ptr = 0 ∧ s.nextCapture.wdOn = false ∧ s.nextCapture.wdCtr = s.cap.wdCtr ∧
      s.nextCapture.sel = s.cap.sel ∧ s.nextCapture.buf = s.cap.buf ∧
      s.nextCapture.frames = s.cap.frames ∧ s.nextCapture.meas = s.cap.meas := by
  have hb := capBoundary_of_recovery h
  have ha := armed_of_recovery h
  have hmove := (agents_of_flushed (flushed_of_capRecovery h)).1 rfl
  have hload : s.watchdogLoad = none := by simp [State.watchdogLoad, ha, hmove]
  exact ⟨by simp [State.nextCx, h], by simp [State.nextWptr, h], by simp [State.nextWdOn, h],
    by simp [State.nextWdCtr, hload, State.watchdogCounts, h], by simp [hb], by simp [ha],
    by simp [hb], by simp [hb]⟩

/-- R245: the mover is still in a recovery, so the capture banks hold. -/
theorem byteAt_cbank_of_capRecovery (ts : Turns) (b : Bool) (a : Nat) :
    (s.merge ts).byteAt (.cbank b) a = s.byteAt (.cbank b) a := by
  have hword : s.moverWord = none := by simp [State.moverWord, h]
  simp [State.byteAt, State.memory, moverWrites_bank, hword]

/-- R245, R262: a recovery refuses the commands of `CAP_XCTRL`. -/
theorem capXctrl_of_capRecovery {d : Word} (hd : d.getLsbD 0 = true ∨ d.getLsbD 1 = true) :
    s.capXctrl d = .refused := by
  rcases hd with hd | hd
  · cases h1 : d.getLsbD 1 <;>
      simp only [State.capXctrl, hd, h1, h, Bool.true_eq_false, and_false, ↓reduceIte]
  · cases h0 : d.getLsbD 0 <;>
      simp only [State.capXctrl, hd, h0, h, Bool.true_eq_false, and_false, ↓reduceIte]

/-- R245: the recovery clears the stall that caused it, and nothing sets it again in that cycle. -/
theorem rxStall_of_capRecovery : (s.nextEngine .cap
    { eng := restartEngine (s.engine .cap), req := Requests.none }).rxStall = false := by
  have hclear : s.clearsRx .cap = true := by simp [State.clearsRx, h]
  rw [nextEngine_rxStall, hclear, watchdogTimeout_of_capRecovery h, ← Bool.not_eq_true,
    resolveSticky_iff]
  simp [Requests.none]

end captureRecovery

/-- Settles O49: the stall restarts engine 0 and flushes its FIFO, and the capture side is then what
`nextCapture_of_capRecovery` says. -/
theorem captureRecovery : Obligations.CaptureRecovery := by
  intro s t hrst hstall hstep
  obtain ⟨ts, _, hts, rfl⟩ := steps_cases_merge hstep hrst
  have hr : s.capRecovery = true := hstall
  have hre := restartsEngine_of_capRecovery hr
  have heng := engine_of_restart hts hre
  have hin := inRestart_of_restart hts hre
  obtain ⟨hx, hptr, hwdOn, hwdCtr, hsel, hbuf, hframes, hmeas⟩ := nextCapture_of_capRecovery hr
  refine ⟨?_, hin.pc, hin.sr, hin.cnt, hin.dly, hin.rem, hin.fault, ?_,
    fun ht => hx.trans (if_pos ht), fun hn => hx.trans (if_neg hn), hptr, hwdOn, hwdCtr,
    nextErr_toNat s, ?_, hsel, hbuf, byteAt_cbank_of_capRecovery hr ts, hframes, hmeas, ?_, ?_,
    fun d ha hd => ?_⟩
  · rw [heng, fifo_of_flushed (flushed_of_capRecovery hr)]
  · rw [heng, rxStall_of_capRecovery hr]
  · rw [merge_capEvt, resolveSticky_iff]
    exact .inl hr
  · rw [heng]; rfl
  · rw [heng]; rfl
  · rw [busCmd_write ha (decodeAddr_capXctrl _)]
    exact capXctrl_of_capRecovery hr hd

/-! ### The generation recovery (O50) -/

section generationRecovery
variable {s : State} (h : s.genRecovery = true)
include h

theorem restartsEngine_of_genRecovery : s.restartsEngine .gen = true :=
  (restartsEngine_iff s .gen).2 (.inr (.inr ⟨rfl, h⟩))

theorem flushed_of_genRecovery : s.flushed .gen = true := by simp [State.flushed, h]

/-- R246: the feeder is still in a recovery, so no frame ends. -/
theorem genBoundary_of_genRecovery : s.genBoundary = false := by
  simp [State.genBoundary, (agents_of_flushed (flushed_of_genRecovery h)).2.1 rfl]

/-- R246: the generation side after the recovery, but for its banks, its configuration and the
counter of its meter. -/
theorem nextGeneration_of_genRecovery :
    s.nextGeneration.ptr = 0 ∧ s.nextGeneration.x = s.gen.x ∧ s.nextGeneration.buf = s.gen.buf ∧
      s.nextGeneration.sel = s.gen.sel ∧ s.nextGeneration.frames = s.gen.frames ∧
      s.nextGeneration.meas = s.gen.meas := by
  have hb := genBoundary_of_genRecovery h
  have hswap : s.genSwap = false := by simp [State.genSwap, hb]
  have hcommit : s.busCmd ≠ .commitFrame := fun hc => by
    simpa [h] using (busCmd_commitFrame hc).2.2
  have htake : s.busCmd ≠ .genTake := fun hc => by simpa [h] using (busCmd_genTake hc).2
  exact ⟨by simp [State.nextRptr, h], by simp [State.nextGx, hcommit, htake, hswap],
    by simp [hcommit], by simp [hswap], by simp [hb], by simp [hb]⟩

/-- R246, R262: a recovery refuses the commands of `GEN_XCTRL`. -/
theorem genXctrl_of_genRecovery {d : Word} (hd : d.getLsbD 0 = true ∨ d.getLsbD 1 = true) :
    s.genXctrl d = .refused := by
  rcases hd with hd | hd
  · cases h1 : d.getLsbD 1 <;>
      simp only [State.genXctrl, hd, h1, h, Bool.true_eq_false, and_false, ↓reduceIte]
  · cases h0 : d.getLsbD 0 <;>
      simp only [State.genXctrl, hd, h0, h, Bool.true_eq_false, and_false, ↓reduceIte]

/-- R246: the recovery clears the stall that caused it, and nothing sets it again in that cycle. -/
theorem txStall_of_genRecovery : (s.nextEngine .gen
    { eng := restartEngine (s.engine .gen), req := Requests.none }).txStall = false := by
  have hclear : s.clearsTx .gen = true := by simp [State.clearsTx, h]
  rw [nextEngine_txStall, hclear, ← Bool.not_eq_true, resolveSticky_iff]
  simp [Requests.none]

/-- R120 b, R246: engine 1 is restarted in the recovery and evaluates no word. -/
theorem not_evaluating_of_genRecovery : s.activity .gen ≠ .evaluating := by
  simp [activity_restarted (restartsEngine_of_genRecovery h)]

end generationRecovery

/-- R232: `feed_en` and `single` hold in a cycle without a write of `GEN_XCFG`. -/
theorem nextXcfg_of_no_write {s : State} (hno : ∀ d, s.input.host ≠ .write 0x0034 d) :
    s.nextFeedEn = s.gen.feedEn ∧ s.nextSingle = s.gen.single := by
  refine (nextXcfg_cases s).resolve_right ?_
  rintro ⟨a, b, hc⟩
  obtain ⟨d, ha⟩ := write_of_genXcfg hc
  exact hno d ha

/-- R21: the output pins hold in a cycle in which no engine evaluates a word. -/
theorem level_drive_of_quiet {s : State} {ts : Turns} (hts : s.turns exec = .next ts)
    (hquiet : ∀ e, s.activity e ≠ .evaluating) (o : OutPins) (p : OutPin) :
    (ts.drive o).level p = o.level p :=
  level_drive_of_none (fun e => by simp [(turns_within hts e).2.quiet (hquiet e)]) o

/-- Settles O50: the stall restarts engine 1 and flushes its FIFO, and the generation side is then
what `nextGeneration_of_genRecovery` says. -/
theorem generationRecovery : Obligations.GenerationRecovery := by
  intro s t hrst hstall hstep
  obtain ⟨ts, _, hts, rfl⟩ := steps_cases_merge hstep hrst
  have hr : s.genRecovery = true := hstall
  have hre := restartsEngine_of_genRecovery hr
  have heng := engine_of_restart hts hre
  have hin := inRestart_of_restart hts hre
  obtain ⟨hptr, hx, hbuf, hsel, hframes, hmeas⟩ := nextGeneration_of_genRecovery hr
  refine ⟨?_, hin.pc, hin.sr, hin.cnt, hin.dly, hin.rem, hin.fault, ?_, hptr, nextErr_toNat s, ?_,
    hx, hbuf, hsel, hframes, hmeas, nextXcfg_of_no_write, fun hothers => ?_, fun d ha hd => ?_⟩
  · rw [heng, fifo_of_flushed (flushed_of_genRecovery hr)]
  · rw [heng, txStall_of_genRecovery hr]
  · rw [merge_genEvt, resolveSticky_iff]
    exact .inl hr
  · have hquiet : ∀ e, s.activity e ≠ .evaluating := fun e => by
      by_cases he : e = .gen
      · exact he ▸ not_evaluating_of_genRecovery hr
      · exact hothers e he
    exact level_drive_of_quiet hts hquiet s.out .pix
  · rw [busCmd_write ha (decodeAddr_genXctrl _)]
    exact genXctrl_of_genRecovery hr hd

end Sys2Proof.Machine
